-- ==== Sys2Proof/Word.lean ====
section
/-! DEFINITION. The widths of the engine: bytes, 64-bit registers and 128-bit values in two lanes. -/

namespace Sys2Proof

/-- `u8`. -/
abbrev Byte := BitVec 8

/-- `u64`: a host register or a Keccak lane (00_scope.md R8). Its `+` and `*` wrap. -/
abbrev Word := BitVec 64

/-- `u32`: a word of the round-key buffer (10_state.md R21). -/
abbrev RkWord := BitVec 32

/-- The index of a 128-bit scratchpad cell, 0 to 131,071 (20_memory.md R46). -/
abbrev CellIndex := BitVec 17

/-- A 128-bit value held as two lanes (00_scope.md R9): `lo` is the document's `v[0]`, `hi` its `v[1]`. -/
structure Pair where
  lo : Word
  hi : Word
deriving DecidableEq, Repr

/-- Lane-wise XOR of two 128-bit values. -/
def Pair.xor (u v : Pair) : Pair := { lo := u.lo ^^^ v.lo, hi := u.hi ^^^ v.hi }

/-- The 128-bit zero. -/
def Pair.zero : Pair := { lo := 0, hi := 0 }

end Sys2Proof
end

