-- ==== Sys2Proof/Syntax.lean ====
section
/-! DEFINITION. The commands of the engine (30_encoding.md R64), one constructor per row of spec/opcode_table.json. -/

namespace Sys2Proof

/-- A command. Only AES_KEYEXP has an operand in its word, the key source field KSRC (R62, R63); every other operand
lives in an engine register that the command's own rule names. -/
inductive Instr where
  | nop
  | inClear
  | cacheZero
  | keccakAbsorb
  | keccakPermute
  | aesKeyexp (ksrc : BitVec 2)
  | aesRound
  | aesRounds
  | spInit
  | mhlInit
  | mhlStep
  | mhlRun
  | mhlShuffle
  | v2Divsqrt
  | finalize
  | finalMux
  | cellRead
  | cellWrite
  | sum
deriving DecidableEq, Repr

end Sys2Proof
end

