-- ==== Sys2Proof/WellFormed.lean ====
section
/-! DEFINITION. Which commands have an encoding. -/

namespace Sys2Proof

/-- A command is well formed when a command word stands for it: the one check is that KSRC is not 3 (30_encoding.md R63,
R65). A 2-bit field can hold nothing else that is wrong. -/
def Instr.wellFormed : Instr → Bool
  | .nop => true
  | .inClear => true
  | .cacheZero => true
  | .keccakAbsorb => true
  | .keccakPermute => true
  | .aesKeyexp ksrc => ksrc != 3
  | .aesRound => true
  | .aesRounds => true
  | .spInit => true
  | .mhlInit => true
  | .mhlStep => true
  | .mhlRun => true
  | .mhlShuffle => true
  | .v2Divsqrt => true
  | .finalize => true
  | .finalMux => true
  | .cellRead => true
  | .cellWrite => true
  | .sum => true

end Sys2Proof
end

