-- ==== Sys2Proof/Decode.lean ====
section
/-! DEFINITION. The command word (30_encoding.md R62): its decoder, total on all 64-bit words (R65), and its encoder. -/

namespace Sys2Proof

/-- Why a word is ILLEGAL (30_encoding.md R66): each makes the engine raise ERR_OPCODE. -/
inductive Illegal where
  /-- RSV, bits 63:10, is not 0. -/
  | reservedBits
  /-- OP is 0x20 and KSRC is 3. -/
  | keySource3
  /-- OP is not 0x20 and KSRC is not 0. -/
  | keySourceNotZero
  /-- OP is assigned to no command. -/
  | unassignedOpcode
deriving DecidableEq, Repr

/-- What the decoder answers. -/
inductive Decoded where
  | legal (i : Instr)
  | illegal (why : Illegal)
deriving DecidableEq, Repr

/-- The field OP, bits 7:0 (R62). -/
def opField (w : Word) : BitVec 8 := w.extractLsb' 0 8

/-- The field KSRC, bits 9:8 (R62). -/
def ksrcField (w : Word) : BitVec 2 := w.extractLsb' 8 2

/-- The field RSV, bits 63:10 (R62). -/
def rsvField (w : Word) : BitVec 54 := w.extractLsb' 10 54

/-- The opcodes that take no key source, by number (R64). -/
def opcodeTable (op : BitVec 8) : Decoded :=
  match op.toNat with
  | 0x00 => .legal .nop
  | 0x01 => .legal .inClear
  | 0x02 => .legal .cacheZero
  | 0x10 => .legal .keccakAbsorb
  | 0x11 => .legal .keccakPermute
  | 0x21 => .legal .aesRound
  | 0x22 => .legal .aesRounds
  | 0x30 => .legal .spInit
  | 0x40 => .legal .mhlInit
  | 0x41 => .legal .mhlStep
  | 0x42 => .legal .mhlRun
  | 0x43 => .legal .mhlShuffle
  | 0x50 => .legal .v2Divsqrt
  | 0x60 => .legal .finalize
  | 0x61 => .legal .finalMux
  | 0x70 => .legal .cellRead
  | 0x71 => .legal .cellWrite
  | 0x80 => .legal .sum
  | _ => .illegal .unassignedOpcode

/-- `decode(w)` of 30_encoding.md R65, its tests in the rule's order. -/
def decode (w : Word) : Decoded :=
  if rsvField w ≠ 0 then .illegal .reservedBits
  else if opField w = 0x20 then
    if ksrcField w = 3 then .illegal .keySource3 else .legal (.aesKeyexp (ksrcField w))
  else if ksrcField w ≠ 0 then .illegal .keySourceNotZero
  else opcodeTable (opField w)

/-- The OP value of a command (30_encoding.md R64). -/
def Instr.opcode : Instr → BitVec 8
  | .nop => 0x00
  | .inClear => 0x01
  | .cacheZero => 0x02
  | .keccakAbsorb => 0x10
  | .keccakPermute => 0x11
  | .aesKeyexp _ => 0x20
  | .aesRound => 0x21
  | .aesRounds => 0x22
  | .spInit => 0x30
  | .mhlInit => 0x40
  | .mhlStep => 0x41
  | .mhlRun => 0x42
  | .mhlShuffle => 0x43
  | .v2Divsqrt => 0x50
  | .finalize => 0x60
  | .finalMux => 0x61
  | .cellRead => 0x70
  | .cellWrite => 0x71
  | .sum => 0x80

/-- The KSRC field of a command's word (30_encoding.md R62, R63). -/
def Instr.ksrc : Instr → BitVec 2
  | .aesKeyexp k => k
  | .nop => 0
  | .inClear => 0
  | .cacheZero => 0
  | .keccakAbsorb => 0
  | .keccakPermute => 0
  | .aesRound => 0
  | .aesRounds => 0
  | .spInit => 0
  | .mhlInit => 0
  | .mhlStep => 0
  | .mhlRun => 0
  | .mhlShuffle => 0
  | .v2Divsqrt => 0
  | .finalize => 0
  | .finalMux => 0
  | .cellRead => 0
  | .cellWrite => 0
  | .sum => 0

/-- The command word: RSV = 0, then KSRC, then OP (30_encoding.md R62, R64). -/
def encode (i : Instr) : Word := (0 : BitVec 54) ++ i.ksrc ++ i.opcode

/-- What the decoder reads from a command whose bits, numbered as spec/opcode_table.json numbers them, are the low `nbits`
bits of `w`: a command is one 64-bit word (30_encoding.md R67), so no byte order enters. -/
def decodeTableWord (nbits w : Nat) : Option Instr :=
  match decode (BitVec.ofNat 64 (w % 2 ^ nbits)) with
  | .legal i => some i
  | .illegal _ => none

end Sys2Proof
end

