-- ==== Sys2Proof/Config.lean ====
section
/-! DEFINITION. What an implementation fixes (00_scope.md R7) and the one free value of the spec. None of the opaque constants has a body, so a proof holds for every value of them. -/

namespace Sys2Proof.Config

/-- How far the capacity of the input buffer exceeds the 43 bytes that R7 (a) demands at least. Open (log 5). -/
opaque inMaxExtra : Fin 18446744073709551573

/-- `IN_MAX` (00_scope.md R7 (a), 92_eei_decisions.md D11): at least 43, and at most 2^64 - 1, because the 64-bit `IN_LEN`
counts up to it (log 10). -/
def inMax : Nat := inMaxExtra.val + 43

/-- The open part of `V2_SHUFFLE_PERM` (43_memory_hard_loop.md R94): for each destination chunk 0, 1, 2, which lane of its
source chunk each of its eight lanes takes. Every legal table is one of these (log 6). -/
opaque shuffleLanes : Fin 3 → Equiv.Perm (Fin 8)

/-- `FINALIST[0..3]` (45_finalize_mux.md R105): four total functions from 200 bytes to 32 bytes. Open (log 7). -/
opaque finalist : Fin 4 → Vector Byte 200 → Vector Byte 32

/-- `HOST_BASE` (20_memory.md R53): where a platform places the register window. No rule depends on it, and nothing
in the model reads it (log 8). -/
opaque hostBase : Nat

/-- A byte of `IN` that nothing has written (10_state.md R34: unspecified). Free value (log 9). -/
opaque freeIn : Nat → Byte

end Sys2Proof.Config
end

