-- ==== Sys2Proof/Machine/State.lean ====
section
/-! DEFINITION. The state of the engine (10_state.md R41 lists it) and of the host agent that drives it, with the state after reset (70_reset_and_hazards.md R132). -/

namespace Sys2Proof.Machine

/-- The scratchpad's bytes (20_memory.md R42) as (address, byte) pairs. An address that is not listed reads 0. -/
abbrev Memory := List Host.Cell

/-- What a byte of the scratchpad that no entry lists reads as: the reset contents (R132). -/
def unlistedByte : Byte := 0

/-- The bytes of the scratchpad, 2^21 (20_memory.md R42). -/
def scratchpadBytes : Nat := 2097152

/-- `Memory.wfFrom lo m`: the entries of `m` rise strictly from `lo` on, lie inside the scratchpad, and none holds what
an unlisted address reads as. -/
def Memory.wfFrom (lo : Nat) : Memory → Bool
  | [] => true
  | (a, v) :: rest => decide (lo ≤ a) && decide (a < scratchpadBytes) && (v != unlistedByte) && Memory.wfFrom (a + 1) rest

/-- The canonical form of the scratchpad: equal contents are equal lists. -/
def Memory.wf (m : Memory) : Bool := Memory.wfFrom 0 m

/-- The fields of `STATUS` (10_state.md R32); the reserved bits read 0. -/
structure Status where
  done : Bool
  err : Bool
  /-- 1 while a command runs: always 0 here, because a command takes the whole of one step (R32, R141). -/
  busy : Bool
  dv : Bool
  errcode : BitVec 8
  lastop : BitVec 8
deriving DecidableEq, Repr

/-- `STATUS` after reset (R132): every field 0. -/
def Status.reset : Status := { done := false, err := false, busy := false, dv := false, errcode := 0, lastop := 0 }

/-- What the host does in one step of its own (10_state.md R16, R132). -/
inductive HostAccess where
  /-- `HRead(addr)`. -/
  | read (addr : Nat)
  /-- `HWrite(addr, value)`. -/
  | write (addr : Nat) (value : Word)
  /-- The platform's reset input (70_reset_and_hazards.md R132). -/
  | reset
deriving DecidableEq, Repr

/-- A host access fault (10_state.md R18, 60_exceptions.md R125). -/
inductive HostFault where
  /-- An access to a reserved address or to one above 0x07F. -/
  | reserved (addr : Nat)
  /-- A write of a read-only register. -/
  | readOnly (addr : Nat)
  /-- A read of `IN_BYTE`. -/
  | writeOnly (addr : Nat)
deriving DecidableEq, Repr

/-- Why a step stops with a fault. -/
inductive Fault where
  /-- Raised by `step` when the host agent has made a faulty access (R18): the fault is never cleared and the run is
  not final. Safe: real hardware may go on, the model does not. -/
  | hostAccess (why : HostFault)
deriving DecidableEq, Repr

/-- Why an instruction has no meaning. -/
inductive Refusal where
  /-- Raised by `exec` for a command that is not modelled yet: none is left. Safe. -/
  | notModelled (mnemonic : String)
deriving DecidableEq, Repr

/-- The whole machine. The engine's registers carry the names of 10_state.md. -/
@[ext]
structure State where
  /-- `ST[0..24]`, the Keccak state (R19). -/
  st : Vector Word 25
  /-- `SP`, the scratchpad (R20). -/
  sp : Memory
  /-- `RK[0..39]`, the round-key buffer (R21). -/
  rk : Vector RkWord 40
  /-- `BLK[0..15]`, the blocks buffer (R22). -/
  blk : Vector Word 16
  /-- `A` (R23). -/
  a : Pair
  /-- `B` (R23). -/
  b : Pair
  /-- `C` (R24). -/
  c : Pair
  /-- `C2` (R24). -/
  c2 : Pair
  /-- `P` (R25). -/
  p : Pair
  /-- `ADDR` (R26); bits 63:17 are always 0. -/
  addr : CellIndex
  /-- `ADDR2` (R26). -/
  addr2 : CellIndex
  /-- `TWEAK` (R27). -/
  tweak : Word
  /-- `DIVR` (R27). -/
  divr : Word
  /-- `SQRTR` (R27). -/
  sqrtr : Word
  /-- `ITER` (R28). -/
  iter : BitVec 32
  /-- `KEY[0..3]` (R29). -/
  key : Vector Word 4
  /-- `X` (R30). -/
  x : Pair
  /-- `K` (R30). -/
  k : Pair
  /-- `Y` (R30). -/
  y : Pair
  /-- `CMD`, the last word written (R31). -/
  cmd : Word
  /-- `STATUS` (R32). -/
  status : Status
  /-- `VARIANT` (R33). -/
  variant : Word
  /-- The bytes of `IN` that have been written, from index 0 (R34); the others are `Config.freeIn`. -/
  inBytes : List Byte
  /-- `IN_LEN` (R34). -/
  inLen : Word
  /-- `CELLIDX` (R35). -/
  cellIdx : Word
  /-- `SEL` (R36). -/
  sel : BitVec 2
  /-- `DIGEST[0..3]` (R37). -/
  digest : Vector Word 4
  /-- The host agent: the accesses it has still to make, in order (R13, R56). The model's own (log 1). -/
  hostQueue : List HostAccess
  /-- The host agent: what `HRead` has returned to it, newest first (R16). The model's own (log 1). -/
  hostReads : List Word
  /-- The host agent: the access fault it has made, if any (R18). -/
  hostFault : Option HostFault
deriving DecidableEq, Repr

/-- The machine right after reset (70_reset_and_hazards.md R132): every register 0, every scratchpad byte 0, no byte of
`IN` known, and a host that has done nothing yet and has nothing pending. -/
def State.reset : State where
  st := Vector.replicate 25 0
  sp := []
  rk := Vector.replicate 40 0
  blk := Vector.replicate 16 0
  a := Pair.zero
  b := Pair.zero
  c := Pair.zero
  c2 := Pair.zero
  p := Pair.zero
  addr := 0
  addr2 := 0
  tweak := 0
  divr := 0
  sqrtr := 0
  iter := 0
  key := Vector.replicate 4 0
  x := Pair.zero
  k := Pair.zero
  y := Pair.zero
  cmd := 0
  status := Status.reset
  variant := 0
  inBytes := []
  inLen := 0
  cellIdx := 0
  sel := 0
  digest := Vector.replicate 4 0
  hostQueue := []
  hostReads := []
  hostFault := none

/-- What a step or a meaning answers. -/
abbrev Result := Host.Outcome State Fault Refusal

end Sys2Proof.Machine
end

