-- ==== Sys2Proof/Machine/Flags.lean ====
section
/-! DEFINITION. The STATUS register: its error codes, its word as the host reads it, and every way it is written. -/

namespace Sys2Proof.Machine

/-- The errors the engine can report (60_exceptions.md R116). -/
inductive ErrorCode where
  | opcode
  | variant
  | shortInput
  | cellIdx
  | inFull
deriving DecidableEq, Repr

/-- The code of an error in `STATUS.ERRCODE` (60_exceptions.md R116); 0x00 is OK. -/
def errorNumber : ErrorCode → BitVec 8
  | .opcode => 0x01
  | .variant => 0x02
  | .shortInput => 0x03
  | .cellIdx => 0x04
  | .inFull => 0x05

/-- `STATUS` as `HRead` gives it (10_state.md R32): DONE 0, ERR 1, BUSY 2, DV 3, ERRCODE 15:8, LASTOP 23:16, the rest 0. -/
def statusWord (t : Status) : Word :=
  (0 : BitVec 40) ++ t.lastop ++ t.errcode ++ (0 : BitVec 4) ++ BitVec.ofBool t.dv ++ BitVec.ofBool t.busy
    ++ BitVec.ofBool t.err ++ BitVec.ofBool t.done

/-- The STATUS write of a command that succeeds, `w` being the word written to `CMD` (60_exceptions.md R117). -/
def statusSuccess (w : Word) (t : Status) : Status :=
  { t with done := true, err := false, errcode := 0x00, lastop := w.extractLsb' 0 8 }

/-- The STATUS write of a command that raises `e` (60_exceptions.md R117). -/
def statusError (e : ErrorCode) (w : Word) (t : Status) : Status :=
  { t with done := true, err := true, errcode := errorNumber e, lastop := w.extractLsb' 0 8 }

/-- The STATUS write of an `IN_BYTE` write that finds the buffer full; LASTOP and DV stay (10_state.md R34). -/
def statusInFull (t : Status) : Status :=
  { t with done := true, err := true, errcode := errorNumber .inFull }

/-- Writing `STATUS.DV`. -/
def statusDv (v : Bool) (t : Status) : Status := { t with dv := v }

end Sys2Proof.Machine
end

