-- ==== Sys2Proof/Machine/Operands.lean ====
section
/-! DEFINITION. The operand forms of the engine: byte order, the views of 128-bit values and lanes, the key sources, the input buffer and the cell address. -/

namespace Sys2Proof.Machine

/-- Byte `k` of a lane, `x[8k+7:8k]` (00_scope.md R10). -/
def laneByte (x : Word) (k : Nat) : Byte := x.extractLsb' (8 * k) 8

/-- `U64LE` (00_scope.md R10): the lane whose least significant byte is `b0`. -/
def u64le (b0 b1 b2 b3 b4 b5 b6 b7 : Byte) : Word := b7 ++ b6 ++ b5 ++ b4 ++ b3 ++ b2 ++ b1 ++ b0

/-- `U32LE` (00_scope.md R10). -/
def u32le (b0 b1 b2 b3 : Byte) : RkWord := b3 ++ b2 ++ b1 ++ b0

/-- `U64LE(s[i .. i+7])` of a byte string given by its bytes; a byte past the end is taken as 0, and no rule of the spec
reads one. -/
def u64leAt (s : List Byte) (i : Nat) : Word :=
  u64le (s.getD i 0) (s.getD (i + 1) 0) (s.getD (i + 2) 0) (s.getD (i + 3) 0)
    (s.getD (i + 4) 0) (s.getD (i + 5) 0) (s.getD (i + 6) 0) (s.getD (i + 7) 0)

/-- Sixteen bytes: an AES block, or the byte view of a 128-bit value (00_scope.md R9). -/
abbrev Block := Vector Byte 16

/-- `bytes16(v) = LE64(v.lo) ++ LE64(v.hi)` (00_scope.md R9). -/
def bytes16 (v : Pair) : Block :=
  Vector.ofFn fun i => if i.val < 8 then laneByte v.lo i.val else laneByte v.hi (i.val - 8)

/-- `cell16(s)`, the inverse of `bytes16` (00_scope.md R9). -/
def cell16 (s : Block) : Pair where
  lo := u64le s[0] s[1] s[2] s[3] s[4] s[5] s[6] s[7]
  hi := u64le s[8] s[9] s[10] s[11] s[12] s[13] s[14] s[15]

/-- `bytes200(ST) = LE64(ST[0]) ++ ... ++ LE64(ST[24])` (00_scope.md R10, 20_memory.md R48). -/
@[irreducible] def bytes200 (st : Vector Word 25) : Vector Byte 200 :=
  Vector.ofFn fun i => laneByte st[i.val / 8] (i.val % 8)

/-- A 256-bit key (41_aes.md R83). -/
abbrev KeyBytes := Vector Byte 32

/-- The 32 key bytes of four lanes, `LE64(l0) ++ LE64(l1) ++ LE64(l2) ++ LE64(l3)` (30_encoding.md R63). -/
def keyOfLanes (l0 l1 l2 l3 : Word) : KeyBytes :=
  Vector.ofFn fun i =>
    if i.val < 8 then laneByte l0 i.val
    else if i.val < 16 then laneByte l1 (i.val - 8)
    else if i.val < 24 then laneByte l2 (i.val - 16)
    else laneByte l3 (i.val - 24)

/-- `LE64(KEY[0]) ++ ... ++ LE64(KEY[3])`: key source 0 (30_encoding.md R63). -/
def keyFromKey (s : State) : KeyBytes := keyOfLanes s.key[0] s.key[1] s.key[2] s.key[3]

/-- `ST.bytes[0..31]`: key source 1, and SP_INIT's key (30_encoding.md R63, 42_scratchpad_init.md R88). -/
def keyFromStLo (s : State) : KeyBytes := keyOfLanes s.st[0] s.st[1] s.st[2] s.st[3]

/-- `ST.bytes[32..63]`: key source 2, and FINALIZE's key (30_encoding.md R63, 45_finalize_mux.md R104). -/
def keyFromStHi (s : State) : KeyBytes := keyOfLanes s.st[4] s.st[5] s.st[6] s.st[7]

/-- The key source that KSRC names (30_encoding.md R63); 3 names none. -/
def keySource (ksrc : BitVec 2) (s : State) : Option KeyBytes :=
  match ksrc.toNat with
  | 0 => some (keyFromKey s)
  | 1 => some (keyFromStLo s)
  | 2 => some (keyFromStHi s)
  | _ => none

/-- `IN[i]` (10_state.md R34): the byte written there, or a free value where nothing has been written. -/
def inByte (s : State) (i : Nat) : Byte := s.inBytes.getD i (Config.freeIn i)

/-- `IN[i] <- b` on the bytes written from index `base` on; skipped indices keep their free value. -/
def setInByte (base : Nat) : List Byte → Nat → Byte → List Byte
  | [], 0, b => [b]
  | [], i + 1, b => Config.freeIn base :: setInByte (base + 1) [] i b
  | _ :: rest, 0, b => b :: rest
  | v :: rest, i + 1, b => v :: setInByte (base + 1) rest i b

/-- The input `IN[0 .. IN_LEN-1]`, the document's `data` (10_state.md R34). -/
def input (s : State) : List Byte := (List.range s.inLen.toNat).map (inByte s)

/-- `U64LE(IN[35 .. 42])`, the nonce of variant 1 (43_memory_hard_loop.md R90). -/
def inputNonce (s : State) : Word :=
  u64le (inByte s 35) (inByte s 36) (inByte s 37) (inByte s 38) (inByte s 39) (inByte s 40) (inByte s 41) (inByte s 42)

/-- Half-word `h` of a 128-bit value: bits `16h+15 : 16h` (20_memory.md R44). -/
def cellHalf (v : Pair) (h : Fin 8) : BitVec 16 :=
  if h.val < 4 then v.lo.extractLsb' (16 * h.val) 16 else v.hi.extractLsb' (16 * (h.val - 4)) 16

/-- `to_addr(v) = (v.lo & 0x1FFFF0) >> 4` (20_memory.md R46): bits 20:4 of the low lane. -/
def toAddr (v : Pair) : CellIndex := ((v.lo &&& 0x1FFFF0) >>> 4).setWidth 17

/-- Sub-block `j` of the blocks buffer, `(lo BLK[2j], hi BLK[2j+1])` (10_state.md R22). -/
def subBlock (blk : Vector Word 16) (j : Fin 8) : Pair where
  lo := blk[2 * j.val]
  hi := blk[2 * j.val + 1]

/-- The blocks buffer whose sub-block `j` is `f j` (10_state.md R22). -/
@[irreducible] def blocksOf (f : Fin 8 → Pair) : Vector Word 16 :=
  Vector.ofFn fun i =>
    if i.val % 2 = 0 then (f ⟨i.val / 2, by omega⟩).lo else (f ⟨i.val / 2, by omega⟩).hi

/-- `BLK[j] <- ST[8 + j]` for `j` in 0..15: bytes 64..191 of the Keccak state (42_scratchpad_init.md R88). -/
@[irreducible] def blocksFromSt (st : Vector Word 25) : Vector Word 16 := Vector.ofFn fun j => st[8 + j.val]

/-- `ST[8 + j] <- BLK[j]` for `j` in 0..15 (45_finalize_mux.md R104). -/
@[irreducible] def stWithBlocks (st : Vector Word 25) (blk : Vector Word 16) : Vector Word 25 :=
  Vector.ofFn fun i => if h : 8 ≤ i.val ∧ i.val < 24 then blk[i.val - 8] else st[i.val]

/-- The variants the engine supports (00_scope.md R3). -/
inductive Variant where
  | v0
  | v1
  | v2
deriving DecidableEq, Repr

/-- The variant a value of `VARIANT` names, if it is 0, 1 or 2 (10_state.md R33). -/
def variantOf (w : Word) : Option Variant :=
  if w = 0 then some .v0 else if w = 1 then some .v1 else if w = 2 then some .v2 else none

end Sys2Proof.Machine
end

