-- ==== Sys2Proof/Machine/Ops.lean ====
section
/-! DEFINITION. The shared operations: scratchpad access (20_memory.md R43, R45), counted loops, the checks, and the two ways a command ends (60_exceptions.md R117). -/

namespace Sys2Proof.Machine

/-- `for i in 0..n-1` (00_scope.md R11): applies `f 0`, then `f 1`, up to `f (n - 1)`. -/
def loopUp {α : Type} (f : Nat → α → α) : Nat → α → α
  | 0, s => s
  | n + 1, s => f n (loopUp f n s)

/-- `SPB[a]`. -/
def readByte : Memory → Nat → Byte
  | [], _ => unlistedByte
  | (k, v) :: rest, a => if a < k then unlistedByte else if a = k then v else readByte rest a

/-- `SPB[a] <- v`, keeping the canonical form: a byte equal to what an unlisted address reads as is not listed. -/
def writeByte : Memory → Nat → Byte → Memory
  | [], a, v => if v = unlistedByte then [] else [(a, v)]
  | (k, w) :: rest, a, v =>
    if a < k then (if v = unlistedByte then (k, w) :: rest else (a, v) :: (k, w) :: rest)
    else if a = k then (if v = unlistedByte then rest else (a, v) :: rest)
    else (k, w) :: writeByte rest a v

/-- `MemRead(addr, n)`, little-endian, as a number below 256^n (20_memory.md R43). -/
def memRead (m : Memory) (addr : Nat) : Nat → Nat
  | 0 => 0
  | n + 1 => memRead m addr n + 256 ^ n * (readByte m (addr + n)).toNat

/-- `MemWrite(addr, n, v)`, little-endian (20_memory.md R43). -/
def memWrite (m : Memory) (addr n v : Nat) : Memory :=
  loopUp (fun k t => writeByte t (addr + k) (BitVec.ofNat 8 (v / 256 ^ k))) n m

/-- `CellRead(n)` (20_memory.md R45). A cell index has 17 bits, so it is always in range. -/
@[irreducible] def cellRead (m : Memory) (n : CellIndex) : Pair where
  lo := BitVec.ofNat 64 (memRead m (16 * n.toNat) 8)
  hi := BitVec.ofNat 64 (memRead m (16 * n.toNat + 8) 8)

/-- `CellWrite(n, v)` (20_memory.md R45). -/
@[irreducible] def cellWrite (m : Memory) (n : CellIndex) (v : Pair) : Memory :=
  memWrite (memWrite m (16 * n.toNat) 8 v.lo.toNat) (16 * n.toNat + 8) 8 v.hi.toNat

/-- 128-byte chunks of the scratchpad (00_scope.md R6, 90_conflicts.md C1). -/
@[irreducible] def chunkCount : Nat := 16384

/-- Cell `8*ch + j`: sub-block `j` of chunk `ch` (20_memory.md R44). -/
def chunkCell (ch : Nat) (j : Nat) : CellIndex := BitVec.ofNat 17 (8 * ch + j)

/-- `check_variant()` (60_exceptions.md R119). -/
def checkVariant (s : State) : Option ErrorCode :=
  match variantOf s.variant with
  | some _ => none
  | none => some .variant

/-- `check_short_input()` (60_exceptions.md R120). -/
def checkShortInput (s : State) : Option ErrorCode :=
  if s.variant = 1 ∧ s.inLen.toNat < 43 then some .shortInput else none

/-- ERR_VARIANT, then ERR_SHORT_INPUT (60_exceptions.md R122). -/
def checkVariantThenInput (s : State) : Option ErrorCode :=
  match checkVariant s with
  | some e => some e
  | none => checkShortInput s

/-- `check_cellidx()` (60_exceptions.md R121): all 64 bits are compared. -/
def checkCellIdx (s : State) : Option ErrorCode :=
  if 131072 ≤ s.cellIdx.toNat then some .cellIdx else none

/-- The cell that `CELLIDX` names once it has been checked (10_state.md R35). -/
def selectedCell (s : State) : CellIndex := s.cellIdx.setWidth 17

/-- The variant in force once it has been checked: a command whose check failed never asks. -/
def checkedVariant (s : State) : Variant := (variantOf s.variant).getD .v0

/-- The end of a command that succeeds (60_exceptions.md R117). `CMD` holds the word that started it (10_state.md R31). -/
def complete (s : State) : State := { s with status := statusSuccess s.cmd s.status }

/-- `raise Error(e)` (00_scope.md R11, 60_exceptions.md R117, R123): the whole of an error's effect is this STATUS write.
It is the engine's only exception entry: it saves nothing, changes no mode and jumps nowhere, so there is no return. -/
def raiseError (e : ErrorCode) (s : State) : State := { s with status := statusError e s.cmd s.status }

/-- A command: its check comes before its first state write; an error ends it at once (00_scope.md R11). -/
def runCommand (check : Option ErrorCode) (effect : State → State) (s : State) : Result :=
  match check with
  | some e => .next (raiseError e s)
  | none => .next (complete (effect s))

end Sys2Proof.Machine
end

