-- ==== Sys2Proof/Machine/Aes.lean ====
section
/-! DEFINITION. The CryptoNight-AES units (41_aes.md): the round, ten rounds, the key schedule, and AES_KEYEXP, AES_ROUND, AES_ROUNDS. -/

namespace Sys2Proof.Machine

/-- `xtime(b)` (41_aes.md R75). -/
def xtime (b : Byte) : Byte := (b <<< 1) ^^^ (if b.getLsbD 7 then 0x1B else 0)

/-- `gmul(b, 2)` (41_aes.md R75). -/
def gmul2 (b : Byte) : Byte := xtime b

/-- `gmul(b, 3)` (41_aes.md R75). -/
def gmul3 (b : Byte) : Byte := xtime b ^^^ b

/-- The rows of the S-box table (41_aes.md R77), row `H` at place `H`, each with its entries x0 to xF from left to right. -/
def sboxRows : List (BitVec 128) :=
  [0x637c777bf26b6fc53001672bfed7ab76,
   0xca82c97dfa5947f0add4a2af9ca472c0,
   0xb7fd9326363ff7cc34a5e5f171d83115,
   0x04c723c31896059a071280e2eb27b275,
   0x09832c1a1b6e5aa0523bd6b329e32f84,
   0x53d100ed20fcb15b6acbbe394a4c58cf,
   0xd0efaafb434d338545f9027f503c9fa8,
   0x51a3408f929d38f5bcb6da2110fff3d2,
   0xcd0c13ec5f974417c4a77e3d645d1973,
   0x60814fdc222a908846eeb814de5e0bdb,
   0xe0323a0a4906245cc2d3ac629195e479,
   0xe7c8376d8dd54ea96c56f4ea657aae08,
   0xba78252e1ca6b4c6e8dd741f4bbd8b8a,
   0x703eb5664803f60e613557b986c11d9e,
   0xe1f8981169d98e949b1e87e9ce5528df,
   0x8ca1890dbfe6426841992d0fb054bb16]

/-- `SBOX[0xHL]` (41_aes.md R77): row `H`, column `L`. -/
def sbox (b : Byte) : Byte :=
  let row := sboxRows.getD (b.toNat / 16) 0
  (row >>> (8 * (15 - b.toNat % 16))).setWidth 8

/-- SubBytes (41_aes.md R77). -/
def subBytes (s : Block) : Block := Vector.ofFn fun i => sbox s[i.val]

/-- ShiftRows (41_aes.md R78); byte `r + 4c` is row `r`, column `c` (R76). -/
def shiftRows (t : Block) : Block :=
  Vector.ofFn fun i =>
    let r := i.val % 4
    let c := i.val / 4
    t[r + 4 * ((c + r) % 4)]'(by omega)

/-- MixColumns (41_aes.md R79). -/
def mixColumns (u : Block) : Block :=
  Vector.ofFn fun i =>
    let c := i.val / 4
    let a0 := u[4 * c]
    let a1 := u[4 * c + 1]
    let a2 := u[4 * c + 2]
    let a3 := u[4 * c + 3]
    if i.val % 4 = 0 then gmul2 a0 ^^^ gmul3 a1 ^^^ a2 ^^^ a3
    else if i.val % 4 = 1 then a0 ^^^ gmul2 a1 ^^^ gmul3 a2 ^^^ a3
    else if i.val % 4 = 2 then a0 ^^^ a1 ^^^ gmul2 a2 ^^^ gmul3 a3
    else gmul3 a0 ^^^ a1 ^^^ a2 ^^^ gmul2 a3

/-- AddRoundKey: byte-wise XOR (41_aes.md R80). -/
def addRoundKey (v k : Block) : Block := Vector.ofFn fun i => v[i.val] ^^^ k[i.val]

/-- `cn_round(s, k)` (41_aes.md R80, 90_conflicts.md C2). -/
def cnRound (s k : Block) : Block := addRoundKey (mixColumns (shiftRows (subBytes s))) k

/-- Round key `r`, the 16 bytes of `RK[4r .. 4r+3]` (10_state.md R21, 20_memory.md R49). -/
def roundKey (rk : Vector RkWord 40) (r : Nat) : Block :=
  Vector.ofFn fun i => (rk.toList.getD (4 * r + i.val / 4) 0).extractLsb' (8 * (i.val % 4)) 8

/-- `cn_rounds(s, RK)`: ten rounds with round keys 0 to 9 (41_aes.md R81). -/
def cnRounds (rk : Vector RkWord 40) (s : Block) : Block := loopUp (fun r t => cnRound t (roundKey rk r)) 10 s

/-- `cn_rounds` on a 128-bit value (41_aes.md R76, R81). -/
@[irreducible] def cnRoundsPair (rk : Vector RkWord 40) (v : Pair) : Pair := cell16 (cnRounds rk (bytes16 v))

/-- `cn_round` on 128-bit values (41_aes.md R76, R80). -/
@[irreducible] def cnRoundPair (v k : Pair) : Pair := cell16 (cnRound (bytes16 v) (bytes16 k))

/-- `RotWord` on a word whose byte 0 is bits 7:0 (41_aes.md R82): `(w1, w2, w3, w0)`. -/
def rotWord (w : RkWord) : RkWord :=
  u32le (w.extractLsb' 8 8) (w.extractLsb' 16 8) (w.extractLsb' 24 8) (w.extractLsb' 0 8)

/-- `SubWord` (41_aes.md R82). -/
def subWord (w : RkWord) : RkWord :=
  u32le (sbox (w.extractLsb' 0 8)) (sbox (w.extractLsb' 8 8)) (sbox (w.extractLsb' 16 8)) (sbox (w.extractLsb' 24 8))

/-- `rc_(n+1)`: `rc_1 = 0x01`, `rc_(j+1) = xtime(rc_j)` (41_aes.md R82). -/
def rcByte : Nat → Byte
  | 0 => 0x01
  | n + 1 => xtime (rcByte n)

/-- `Rcon[j] = (rc_j, 0, 0, 0)`, for `j` from 1 (41_aes.md R82). -/
def rcon (j : Nat) : RkWord := u32le (rcByte (j - 1)) 0 0 0

/-- What the recurrence of `ExpandKey` XORs into `W[i-8]`, `prev` being `W[i-1]` (41_aes.md R83). -/
def scheduleMix (i : Nat) (prev : RkWord) : RkWord :=
  if i % 8 = 0 then subWord (rotWord prev) ^^^ rcon (i / 8)
  else if i % 8 = 4 then subWord prev
  else prev

/-- The pass of `ExpandKey`'s loop that appends `W[i]`, `i = k + 8`, to `W[0 .. i-1]` (41_aes.md R83). -/
def scheduleStep (k : Nat) (w : List RkWord) : List RkWord :=
  w ++ [w.getD k 0 ^^^ scheduleMix (k + 8) (w.getD (k + 7) 0)]

/-- `W[0..7]`, the raw key (41_aes.md R83). -/
def keyWords (key : KeyBytes) : List RkWord :=
  List.ofFn fun i : Fin 8 => u32le key[4 * i.val] key[4 * i.val + 1] key[4 * i.val + 2] key[4 * i.val + 3]

/-- `ExpandKey(key)` (41_aes.md R83). A word `W[i]` is held with its byte 0 in bits 7:0, as `RK[i]` is. -/
@[irreducible] def expandKey (key : KeyBytes) : Vector RkWord 40 :=
  let w := loopUp scheduleStep 32 (keyWords key)
  Vector.ofFn fun i => w.getD i.val 0

/-- `RK <- ExpandKey(key)` (41_aes.md R84). -/
def expandInto (key : KeyBytes) (s : State) : State := { s with rk := expandKey key }

/-- AES_KEYEXP (41_aes.md R84). KSRC 3 is no key source: ERR_OPCODE (30_encoding.md R63). -/
def execAesKeyexp (ksrc : BitVec 2) (s : State) : Result :=
  match keySource ksrc s with
  | some key => runCommand none (expandInto key) s
  | none => runCommand (some .opcode) id s

/-- AES_ROUND's assignment (41_aes.md R85). -/
def aesRoundEffect (s : State) : State := { s with y := cnRoundPair s.x s.k }

/-- AES_ROUND (41_aes.md R85). -/
def execAesRound (s : State) : Result := runCommand none aesRoundEffect s

/-- AES_ROUNDS's assignment (41_aes.md R86). -/
def aesRoundsEffect (s : State) : State := { s with y := cnRoundsPair s.rk s.x }

/-- AES_ROUNDS (41_aes.md R86). -/
def execAesRounds (s : State) : Result := runCommand none aesRoundsEffect s

end Sys2Proof.Machine
end

