-- ==== Sys2Proof/Machine/Keccak.lean ====
section
/-! DEFINITION. The Keccak units (40_keccak.md): the permutation, KECCAK_ABSORB and KECCAK_PERMUTE. -/

namespace Sys2Proof.Machine

/-- The 25 lanes; lane `x + 5*y` is column `x`, row `y` (10_state.md R19, 40_keccak.md R69). -/
abbrev Lanes := Vector Word 25

/-- `rotl64(v, n)` (40_keccak.md R69). -/
def rotl64 (v : Word) (n : Nat) : Word := (v <<< n) ||| (v >>> (64 - n))

/-- `RC[round]`, the table of 40_keccak.md R70 entry by entry; no rule asks for a round beyond 23. -/
def rcLane (round : Nat) : Word :=
  match round with
  | 0 => 0x0000000000000001
  | 1 => 0x0000000000008082
  | 2 => 0x800000000000808A
  | 3 => 0x8000000080008000
  | 4 => 0x000000000000808B
  | 5 => 0x0000000080000001
  | 6 => 0x8000000080008081
  | 7 => 0x8000000000008009
  | 8 => 0x000000000000008A
  | 9 => 0x0000000000000088
  | 10 => 0x0000000080008009
  | 11 => 0x000000008000000A
  | 12 => 0x000000008000808B
  | 13 => 0x800000000000008B
  | 14 => 0x8000000000008089
  | 15 => 0x8000000000008003
  | 16 => 0x8000000000008002
  | 17 => 0x8000000000000080
  | 18 => 0x000000000000800A
  | 19 => 0x800000008000000A
  | 20 => 0x8000000080008081
  | 21 => 0x8000000000008080
  | 22 => 0x0000000080000001
  | 23 => 0x8000000080008008
  | _ => 0

/-- `ROT[x][y]` at place `x + 5*y` (40_keccak.md R71). -/
def rotationOffsets : List Nat :=
  [0, 1, 62, 28, 27,
   36, 44, 6, 55, 20,
   3, 10, 43, 25, 39,
   41, 45, 15, 21, 8,
   18, 2, 61, 56, 14]

/-- `Cx[x]`: the parity of column `x` (40_keccak.md R69, theta). -/
def columnParity (s : Lanes) : Vector Word 5 :=
  Vector.ofFn fun x => s[x.val] ^^^ s[x.val + 5] ^^^ s[x.val + 10] ^^^ s[x.val + 15] ^^^ s[x.val + 20]

/-- theta (40_keccak.md R69). -/
def theta (s : Lanes) : Lanes :=
  let cx := columnParity s
  let dx : Vector Word 5 :=
    Vector.ofFn fun x =>
      cx[(x.val + 4) % 5]'(Nat.mod_lt _ (by decide)) ^^^ rotl64 (cx[(x.val + 1) % 5]'(Nat.mod_lt _ (by decide))) 1
  Vector.ofFn fun i => s[i.val] ^^^ dx[i.val % 5]'(Nat.mod_lt _ (by decide))

/-- rho and pi (40_keccak.md R69): lane `(x, y)`, rotated by `ROT[x][y]`, goes to column `y` and row `2x + 3y` modulo 5. The
lane that comes to column `y` and row `v` is therefore the one of column `3v + y` modulo 5 and row `y`. -/
def rhoPi (s : Lanes) : Lanes :=
  Vector.ofFn fun i =>
    let y := i.val % 5
    let x := (3 * (i.val / 5) + y) % 5
    rotl64 (s[x + 5 * y]'(by omega)) (rotationOffsets.getD (x + 5 * y) 0)

/-- chi (40_keccak.md R69). -/
def chi (t : Lanes) : Lanes :=
  Vector.ofFn fun i =>
    let x := i.val % 5
    let y := i.val / 5
    t[i.val] ^^^ (~~~(t[(x + 1) % 5 + 5 * y]'(by omega)) &&& t[(x + 2) % 5 + 5 * y]'(by omega))

/-- iota (40_keccak.md R69). -/
def iota (round : Nat) (s : Lanes) : Lanes := s.set 0 (s[0] ^^^ rcLane round)

/-- One round of the permutation (40_keccak.md R69). -/
def keccakRound (round : Nat) (s : Lanes) : Lanes := iota round (chi (rhoPi (theta s)))

/-- `KeccakF(S)`: rounds 0 to 23 (40_keccak.md R69). -/
@[irreducible] def keccakF (s : Lanes) : Lanes := loopUp keccakRound 24 s

/-- `S[j] <- S[j] ^ U64LE(bytes[at + 8*j .. at + 8*j + 7])` for the 17 lanes of the rate (40_keccak.md R72). -/
def xorRate (s : Lanes) (bytes : List Byte) (start : Nat) : Lanes :=
  Vector.ofFn fun j => if j.val < 17 then s[j.val] ^^^ u64leAt bytes (start + 8 * j.val) else s[j.val]

/-- Absorbing one 136-byte block (40_keccak.md R72). -/
def absorbBlock (bytes : List Byte) (blk : Nat) (s : Lanes) : Lanes := keccakF (xorRate s bytes (136 * blk))

/-- The last block `T` (40_keccak.md R72): the bytes left over, 0x01, zeros, and 0x80 in the last byte. -/
def lastBlock (data : List Byte) : List Byte :=
  let r := data.length % 136
  let t := data.drop (136 * (data.length / 136)) ++ [0x01] ++ List.replicate (135 - r) 0x00
  t.set 135 (t.getD 135 0 ||| 0x80)

/-- The sponge of KECCAK_ABSORB (40_keccak.md R72): all full blocks, then the padded last one. -/
@[irreducible] def keccakAbsorb (data : List Byte) : Lanes :=
  let full := loopUp (absorbBlock data) (data.length / 136) (Vector.replicate 25 0)
  keccakF (xorRate full (lastBlock data) 0)

/-- KECCAK_ABSORB's assignments (40_keccak.md R72). -/
def absorbEffect (s : State) : State := { s with st := keccakAbsorb (input s) }

/-- KECCAK_ABSORB (40_keccak.md R72). -/
def execKeccakAbsorb (s : State) : Result := runCommand none absorbEffect s

/-- KECCAK_PERMUTE's assignment (40_keccak.md R73). -/
def permuteEffect (s : State) : State := { s with st := keccakF s.st }

/-- KECCAK_PERMUTE (40_keccak.md R73). -/
def execKeccakPermute (s : State) : Result := runCommand none permuteEffect s

end Sys2Proof.Machine
end

