-- ==== Sys2Proof/Machine/Finalize.lean ====
section
/-! DEFINITION. Finalization and the final hash multiplexer (45_finalize_mux.md): FINALIZE and FINAL_MUX. -/

namespace Sys2Proof.Machine

/-- The first inner loop of FINALIZE's chunk pass: each cell of chunk `ch` is XORed with its sub-block of the blocks buffer and
encrypted in place (45_finalize_mux.md R104). -/
def encryptChunk (ch : Nat) (s : State) : State :=
  { s with
    sp := (List.finRange 8).foldl
      (fun m j =>
        cellWrite m (chunkCell ch j.val) (cnRoundsPair s.rk ((cellRead m (chunkCell ch j.val)).xor (subBlock s.blk j))))
      s.sp }

/-- The second inner loop: the blocks buffer takes chunk `ch` as just written (45_finalize_mux.md R104). -/
def reloadBlocks (ch : Nat) (s : State) : State :=
  { s with blk := blocksOf fun j => cellRead s.sp (chunkCell ch j.val) }

/-- One pass of FINALIZE's chunk loop (45_finalize_mux.md R104). -/
def finalizeChunk (ch : Nat) (s : State) : State := reloadBlocks ch (encryptChunk ch s)

/-- Step 1 and the load of step 2 (45_finalize_mux.md R104). -/
def finalizeLoad (s : State) : State := { s with rk := expandKey (keyFromStHi s), blk := blocksFromSt s.st }

/-- Steps 3 and 4: the blocks buffer into lanes 8 to 23, then the permutation (45_finalize_mux.md R104). -/
def finalizeStore (s : State) : State := { s with st := keccakF (stWithBlocks s.st s.blk) }

/-- FINALIZE's assignments (45_finalize_mux.md R104). -/
def finalizeEffect (s : State) : State := finalizeStore (loopUp finalizeChunk chunkCount (finalizeLoad s))

/-- FINALIZE (45_finalize_mux.md R104). -/
def execFinalize (s : State) : Result := runCommand none finalizeEffect s

/-- `ST[0] & 0x03` (45_finalize_mux.md R106). -/
def finalistIndex (st : Vector Word 25) : BitVec 2 := st[0].setWidth 2

/-- The 32 bytes that the selected finalist makes of the state (45_finalize_mux.md R105, R106). -/
@[irreducible] def finalDigest (st : Vector Word 25) : Vector Byte 32 := Config.finalist (finalistIndex st).toFin (bytes200 st)

/-- `DIGEST[i] <- U64LE(d[8i .. 8i+7])` (45_finalize_mux.md R106). -/
@[irreducible] def digestLanes (d : Vector Byte 32) : Vector Word 4 := Vector.ofFn fun i => u64leAt d.toList (8 * i.val)

/-- FINAL_MUX's assignments (45_finalize_mux.md R106). -/
def finalMuxEffect (s : State) : State :=
  { s with
    sel := finalistIndex s.st
    digest := digestLanes (finalDigest s.st)
    status := statusDv true s.status }

/-- FINAL_MUX (45_finalize_mux.md R106). -/
def execFinalMux (s : State) : Result := runCommand none finalMuxEffect s

end Sys2Proof.Machine
end

