-- ==== Sys2Proof/Machine/DivSqrt.lean ====
section
/-! DEFINITION. The variant 2 division and square root (44_isqrt_divmod.md), with the binary64 primitives it is defined by, and V2_DIVSQRT. -/

namespace Sys2Proof.Machine

/-- A non-negative finite binary64 value `mant * 2^exp`: zero, or a value whose significand `mant` has 53 bits. -/
structure Binary64 where
  mant : Nat
  exp : Int
deriving DecidableEq, Repr

/-- `n / 2^k` rounded to the nearest integer, ties to even (44_isqrt_divmod.md R99). -/
def roundShift (n k : Nat) : Nat :=
  let q := n / 2 ^ k
  let r := n % 2 ^ k
  if 2 ^ k < 2 * r ∨ (2 * r = 2 ^ k ∧ q % 2 = 1) then q + 1 else q

/-- A significand that rounding has carried to 54 bits is halved. -/
def renormalize (m : Nat) (e : Int) : Binary64 :=
  if m = 2 ^ 53 then { mant := 2 ^ 52, exp := e + 1 } else { mant := m, exp := e }

/-- `f64(n)`: the nearest binary64 value, ties to even; exact below 2^53 (44_isqrt_divmod.md R99). -/
def f64OfNat (n : Nat) : Binary64 :=
  if n = 0 then { mant := 0, exp := 0 }
  else if n.log2 ≤ 52 then { mant := n * 2 ^ (52 - n.log2), exp := (n.log2 : Int) - 52 }
  else renormalize (roundShift n (n.log2 - 52)) ((n.log2 : Int) - 52)

/-- The largest `k` with `k * k ≤ m`, for `m < 4^d`, one binary digit at a time. -/
def isqrtDigits : Nat → Nat → Nat
  | 0, _ => 0
  | d + 1, m =>
    let r := 2 * isqrtDigits d (m / 4)
    if (r + 1) * (r + 1) ≤ m then r + 1 else r

/-- The exact square root `sqrt(m)` rounded to the nearest integer. It is never half-way between two integers, because
`(r + 1/2)^2` is not an integer; it lies above `r + 1/2` exactly when `m - r*r > r`. -/
def roundedSqrt (m : Nat) : Nat :=
  let r := isqrtDigits 53 m
  if r < m - r * r then r + 1 else r

/-- `sqrt_f64(x)`, correctly rounded to nearest (44_isqrt_divmod.md R99): the significand is scaled by an even power of two to
105 or 106 bits, so that the rounded root has the 53 bits of a significand. -/
def f64Sqrt (x : Binary64) : Binary64 :=
  if x.mant = 0 then x
  else if x.exp % 2 = 0 then renormalize (roundedSqrt (x.mant * 2 ^ 52)) ((x.exp - 52) / 2)
  else renormalize (roundedSqrt (x.mant * 2 ^ 53)) ((x.exp - 53) / 2)

/-- `trunc_u64(x)`: the integer part (44_isqrt_divmod.md R99). -/
def f64Trunc (x : Binary64) : Word :=
  BitVec.ofNat 64 (if 0 ≤ x.exp then x.mant * 2 ^ x.exp.toNat else x.mant / 2 ^ (-x.exp).toNat)

/-- The divisor of step 7: bits 31 and 0 are set (44_isqrt_divmod.md R100). -/
def v2Divisor (blo : Word) : Word := (blo &&& 0xFFFFFFFF) ||| 0x80000001

/-- `DIVR'` (44_isqrt_divmod.md R100). -/
@[irreducible] def v2Division (blo bhi : Word) : Word :=
  ((bhi / v2Divisor blo) &&& 0xFFFFFFFF) ||| ((bhi % v2Divisor blo) <<< 32)

/-- `m`, the argument of the square root: a wrapping add, then a shift (44_isqrt_divmod.md R100). -/
def v2RootArg (blo bhi : Word) : Word := (blo + v2Division blo bhi) >>> 16

/-- `SQRTR'` (44_isqrt_divmod.md R100, 90_conflicts.md C6). -/
@[irreducible] def v2Root (blo bhi : Word) : Word := f64Trunc (f64Sqrt (f64OfNat (v2RootArg blo bhi).toNat))

/-- Step 7 of the iteration: the XOR with the old results, then the new ones (44_isqrt_divmod.md R103, 43_memory_hard_loop.md
R92). -/
def divSqrtEffect (s : State) : State :=
  { s with
    c2 := { lo := s.c2.lo, hi := s.c2.hi ^^^ s.divr ^^^ s.sqrtr }
    divr := v2Division s.b.lo s.b.hi
    sqrtr := v2Root s.b.lo s.b.hi }

/-- V2_DIVSQRT (44_isqrt_divmod.md R103). -/
def execV2Divsqrt (s : State) : Result := runCommand none divSqrtEffect s

end Sys2Proof.Machine
end

