-- ==== Sys2Proof/Machine/MemoryHardLoop.lean ====
section
/-! DEFINITION. The memory-hard loop (43_memory_hard_loop.md): MHL_INIT, the 13-step iteration, MHL_STEP, MHL_RUN, the variant 2 shuffle and MHL_SHUFFLE. -/

namespace Sys2Proof.Machine

/-- The table that lane choices `lanes` of the three destination chunks make (43_memory_hard_loop.md R94): destination
chunk 0 draws from chunk 2, 1 from 0, and 2 from 1. -/
def shuffleTable (lanes : Fin 3 → Equiv.Perm (Fin 8)) (d : Fin 24) : Fin 24 :=
  let chunk : Fin 3 := ⟨d.val / 8, by omega⟩
  let lane : Fin 8 := ⟨d.val % 8, by omega⟩
  ⟨8 * ((chunk.val + 2) % 3) + (lanes chunk lane).val, by omega⟩

/-- `V2_SHUFFLE_PERM`, the implementation's own table (43_memory_hard_loop.md R94). -/
def v2ShufflePerm : Fin 24 → Fin 24 := shuffleTable Config.shuffleLanes

/-- The default table `PI[d] = (d + 16) mod 24` (43_memory_hard_loop.md R94). -/
def defaultShufflePerm (d : Fin 24) : Fin 24 := ⟨(d.val + 16) % 24, by omega⟩

/-- The 24 half-words of `chunk0 || chunk1 || chunk2`, half-word `h` being lane `h mod 8` of chunk `h / 8`
(43_memory_hard_loop.md R94, R95; 20_memory.md R44). -/
def halfWords (c0 c1 c2 : Pair) : Vector (BitVec 16) 24 :=
  Vector.ofFn fun h =>
    cellHalf (if h.val < 8 then c0 else if h.val < 16 then c1 else c2) ⟨h.val % 8, by omega⟩

/-- Chunk `i` of 24 half-words, the inverse of `halfWords`. -/
def chunkOfHalfWords (g : Vector (BitVec 16) 24) (i : Fin 3) : Pair where
  lo := g[8 * i.val + 3] ++ g[8 * i.val + 2] ++ g[8 * i.val + 1] ++ g[8 * i.val]
  hi := g[8 * i.val + 7] ++ g[8 * i.val + 6] ++ g[8 * i.val + 5] ++ g[8 * i.val + 4]

/-- `Shuffle(n)` on the scratchpad (43_memory_hard_loop.md R95): all 24 half-words are read before any is written. The
neighbours are `n XOR 1`, `n XOR 2`, `n XOR 3` (20_memory.md R47, 90_conflicts.md C5). -/
@[irreducible] def shuffle (perm : Fin 24 → Fin 24) (n : CellIndex) (m : Memory) : Memory :=
  let h := halfWords (cellRead m (n ^^^ 1)) (cellRead m (n ^^^ 2)) (cellRead m (n ^^^ 3))
  let g : Vector (BitVec 16) 24 := Vector.ofFn fun d => h[(perm d).val]
  cellWrite (cellWrite (cellWrite m (n ^^^ 1) (chunkOfHalfWords g 0)) (n ^^^ 2) (chunkOfHalfWords g 1))
    (n ^^^ 3) (chunkOfHalfWords g 2)

/-- `tprime(t)` (43_memory_hard_loop.md R91). -/
def tprime (t : Word) : Word :=
  (((~~~t) &&& 1) <<< 4) ||| ((((((~~~t) &&& 1) <<< 4) &&& t)) <<< 1) ||| ((t &&& 32) >>> 1)

/-- Step 1: `ADDR <- to_addr(A)` (43_memory_hard_loop.md R92). -/
def loopStep1 (s : State) : State := { s with addr := toAddr s.a }

/-- Step 2: the AES round of the cell at `ADDR`, keyed with `A` (43_memory_hard_loop.md R92). -/
def loopStep2 (s : State) : State := { s with c := cnRoundPair (cellRead s.sp s.addr) s.a }

/-- Step 3: the shuffle around `ADDR`, variant 2 only (43_memory_hard_loop.md R92). -/
def loopStep3 (perm : Fin 24 → Fin 24) (v : Variant) (s : State) : State :=
  match v with
  | .v0 => s
  | .v1 => s
  | .v2 => { s with sp := shuffle perm s.addr s.sp }

/-- Step 4: `B XOR C` is stored at `ADDR`, and `B` takes `C` (43_memory_hard_loop.md R92). -/
def loopStep4 (s : State) : State := { s with sp := cellWrite s.sp s.addr (s.b.xor s.c), b := s.c }

/-- Step 5: the tweak of the cell just stored, variant 1 only (43_memory_hard_loop.md R92). -/
def loopStep5 (v : Variant) (s : State) : State :=
  match v with
  | .v0 => s
  | .v1 =>
    let w := cellRead s.sp s.addr
    let t := w.hi >>> 24
    { s with sp := cellWrite s.sp s.addr { lo := w.lo, hi := w.hi ^^^ (tprime t <<< 24) } }
  | .v2 => s

/-- Step 6: `ADDR2 <- to_addr(B)` and the second cell read (43_memory_hard_loop.md R92). -/
def loopStep6 (s : State) : State := { s with addr2 := toAddr s.b, c2 := cellRead s.sp (toAddr s.b) }

/-- Step 7: the division and square root, variant 2 only (43_memory_hard_loop.md R92). -/
def loopStep7 (v : Variant) (s : State) : State :=
  match v with
  | .v0 => s
  | .v1 => s
  | .v2 => divSqrtEffect s

/-- The widening product of step 8 (43_memory_hard_loop.md R92). -/
def wideProduct (u v : Word) : BitVec 128 := u.setWidth 128 * v.setWidth 128

/-- Step 8: `P` is the 128-bit product of `B.lo` and `C2.lo` (43_memory_hard_loop.md R92). -/
def loopStep8 (s : State) : State :=
  { s with p := { lo := (wideProduct s.b.lo s.c2.lo).extractLsb' 0 64, hi := (wideProduct s.b.lo s.c2.lo).extractLsb' 64 64 } }

/-- Step 9: the shuffle around `ADDR2`, variant 2 only (43_memory_hard_loop.md R92). -/
def loopStep9 (perm : Fin 24 → Fin 24) (v : Variant) (s : State) : State :=
  match v with
  | .v0 => s
  | .v1 => s
  | .v2 => { s with sp := shuffle perm s.addr2 s.sp }

/-- Step 10: the lanes of `P` are added crosswise to `A`, wrapping (43_memory_hard_loop.md R92). -/
def loopStep10 (s : State) : State := { s with a := { lo := s.a.lo + s.p.hi, hi := s.a.hi + s.p.lo } }

/-- Step 11: `A` is stored at `ADDR2` (43_memory_hard_loop.md R92). -/
def loopStep11 (s : State) : State := { s with sp := cellWrite s.sp s.addr2 s.a }

/-- Step 12: `A <- A XOR C2` (43_memory_hard_loop.md R92). -/
def loopStep12 (s : State) : State := { s with a := s.a.xor s.c2 }

/-- Step 13: `TWEAK` is XORed into the stored high lane, variant 1 only (43_memory_hard_loop.md R92). -/
def loopStep13 (v : Variant) (s : State) : State :=
  match v with
  | .v0 => s
  | .v1 =>
    let w := cellRead s.sp s.addr2
    { s with sp := cellWrite s.sp s.addr2 { lo := w.lo, hi := w.hi ^^^ s.tweak } }
  | .v2 => s

/-- `Iterate(v)`: the 13 steps in order (43_memory_hard_loop.md R92). -/
def iterate (perm : Fin 24 → Fin 24) (v : Variant) (s : State) : State :=
  let s4 := loopStep4 (loopStep3 perm v (loopStep2 (loopStep1 s)))
  let s8 := loopStep8 (loopStep7 v (loopStep6 (loopStep5 v s4)))
  loopStep13 v (loopStep12 (loopStep11 (loopStep10 (loopStep9 perm v s8))))

/-- `ITER <- ITER + 1`, modulo 2^32 (10_state.md R28). -/
def countIteration (s : State) : State := { s with iter := s.iter + 1 }

/-- One iteration and its count (43_memory_hard_loop.md R96). -/
def iterateCounted (perm : Fin 24 → Fin 24) (v : Variant) (s : State) : State := countIteration (iterate perm v s)

/-- MHL_STEP's effect (43_memory_hard_loop.md R96). -/
def mhlStepEffect (s : State) : State := iterateCounted v2ShufflePerm (checkedVariant s) s

/-- MHL_STEP (43_memory_hard_loop.md R96). -/
def execMhlStep (s : State) : Result := runCommand (checkVariant s) mhlStepEffect s

/-- MHL_INIT's assignments (43_memory_hard_loop.md R90). -/
def mhlInitEffect (s : State) : State :=
  { s with
    a := { lo := s.st[0] ^^^ s.st[4], hi := s.st[1] ^^^ s.st[5] }
    b := { lo := s.st[2] ^^^ s.st[6], hi := s.st[3] ^^^ s.st[7] }
    tweak := if s.variant = 1 then s.st[24] ^^^ inputNonce s else 0
    divr := 0
    sqrtr := 0
    iter := 0 }

/-- MHL_INIT (43_memory_hard_loop.md R90). -/
def execMhlInit (s : State) : Result := runCommand (checkVariantThenInput s) mhlInitEffect s

/-- The iterations of MHL_RUN (43_memory_hard_loop.md R97). -/
@[irreducible] def loopIterations : Nat := 524288

/-- MHL_RUN's assignments (43_memory_hard_loop.md R97). -/
def mhlRunEffect (s : State) : State :=
  loopUp (fun _ => iterateCounted v2ShufflePerm (checkedVariant s)) loopIterations (mhlInitEffect s)

/-- MHL_RUN (43_memory_hard_loop.md R97). -/
def execMhlRun (s : State) : Result := runCommand (checkVariantThenInput s) mhlRunEffect s

/-- MHL_SHUFFLE's effect (43_memory_hard_loop.md R98). -/
def mhlShuffleEffect (s : State) : State := { s with sp := shuffle v2ShufflePerm (selectedCell s) s.sp }

/-- MHL_SHUFFLE (43_memory_hard_loop.md R98). -/
def execMhlShuffle (s : State) : Result := runCommand (checkCellIdx s) mhlShuffleEffect s

end Sys2Proof.Machine
end

