-- ==== Sys2Proof/Machine/ScratchpadInit.lean ====
section
/-! DEFINITION. The scratchpad initializer (42_scratchpad_init.md): SP_INIT. -/

namespace Sys2Proof.Machine

/-- `cn_rounds` on each of the eight sub-blocks of the blocks buffer (42_scratchpad_init.md R88). -/
def encryptBlocks (s : State) : State :=
  { s with blk := blocksOf fun j => cnRoundsPair s.rk (subBlock s.blk j) }

/-- Copies the blocks buffer into chunk `ch`, sub-blocks 0 to 7 in order (42_scratchpad_init.md R88). -/
def copyBlocks (ch : Nat) (s : State) : State :=
  { s with sp := (List.finRange 8).foldl (fun m j => cellWrite m (chunkCell ch j.val) (subBlock s.blk j)) s.sp }

/-- One pass of SP_INIT's chunk loop: encrypt, then copy (42_scratchpad_init.md R88). -/
def initChunk (ch : Nat) (s : State) : State := copyBlocks ch (encryptBlocks s)

/-- SP_INIT's assignments before its chunk loop (42_scratchpad_init.md R88). -/
def spInitLoad (s : State) : State := { s with rk := expandKey (keyFromStLo s), blk := blocksFromSt s.st }

/-- SP_INIT's assignments (42_scratchpad_init.md R88). -/
def spInitEffect (s : State) : State := loopUp initChunk chunkCount (spInitLoad s)

/-- SP_INIT (42_scratchpad_init.md R88). -/
def execSpInit (s : State) : Result := runCommand none spInitEffect s

end Sys2Proof.Machine
end

