-- ==== Sys2Proof/Machine/Control.lean ====
section
/-! DEFINITION. The control commands (46_control.md): NOP, IN_CLEAR, CACHE_ZERO, CELL_READ, CELL_WRITE, and the one-shot hash SUM. -/

namespace Sys2Proof.Machine

/-- NOP (46_control.md R108): no data state changes. -/
def execNop (s : State) : Result := runCommand none id s

/-- IN_CLEAR's assignment (46_control.md R109); the bytes of `IN` stay. -/
def inClearEffect (s : State) : State := { s with inLen := 0 }

/-- IN_CLEAR (46_control.md R109). -/
def execInClear (s : State) : Result := runCommand none inClearEffect s

/-- CACHE_ZERO's assignments (46_control.md R110): the scratchpad with every byte 0 is the one that lists nothing. -/
def cacheZeroEffect (s : State) : State :=
  { s with
    st := Vector.replicate 25 0
    sp := []
    rk := Vector.replicate 40 0
    blk := Vector.replicate 16 0
    a := Pair.zero
    b := Pair.zero
    c := Pair.zero
    c2 := Pair.zero
    y := Pair.zero
    p := Pair.zero
    addr := 0
    addr2 := 0
    tweak := 0
    divr := 0
    sqrtr := 0
    iter := 0
    sel := 0
    digest := Vector.replicate 4 0
    status := statusDv false s.status }

/-- CACHE_ZERO (46_control.md R110). -/
def execCacheZero (s : State) : Result := runCommand none cacheZeroEffect s

/-- CELL_READ's assignment (46_control.md R111). -/
def cellReadEffect (s : State) : State := { s with y := cellRead s.sp (selectedCell s) }

/-- CELL_READ (46_control.md R111). -/
def execCellRead (s : State) : Result := runCommand (checkCellIdx s) cellReadEffect s

/-- CELL_WRITE's assignment (46_control.md R112). -/
def cellWriteEffect (s : State) : State := { s with sp := cellWrite s.sp (selectedCell s) s.x }

/-- CELL_WRITE (46_control.md R112). -/
def execCellWrite (s : State) : Result := runCommand (checkCellIdx s) cellWriteEffect s

/-- What SUM writes before it raises an error: `DIGEST` and DV are cleared (46_control.md R113). -/
def clearDigest (s : State) : State :=
  { s with digest := Vector.replicate 4 0, status := statusDv false s.status }

/-- `STATUS.DV <- 0`, the first assignment of a SUM whose checks passed (46_control.md R113). -/
def clearDv (s : State) : State := { s with status := statusDv false s.status }

/-- SUM's assignments once its checks have passed (46_control.md R113). -/
def sumEffect (s : State) : State :=
  finalMuxEffect (finalizeEffect (mhlRunEffect (spInitEffect (absorbEffect (clearDv s)))))

/-- SUM (46_control.md R113). -/
def execSum (s : State) : Result :=
  match checkVariantThenInput s with
  | some e => runCommand (some e) id (clearDigest s)
  | none => runCommand none sumEffect s

end Sys2Proof.Machine
end

