-- ==== Sys2Proof/Machine/Dispatch.lean ====
section
/-! DEFINITION. One arm per command of spec/opcode_table.json. -/

namespace Sys2Proof.Machine

def exec (i : Instr) (s : State) : Host.Outcome State Fault Refusal :=
  match i with
  | .nop => Sys2Proof.Machine.execNop s
  | .inClear => Sys2Proof.Machine.execInClear s
  | .cacheZero => Sys2Proof.Machine.execCacheZero s
  | .keccakAbsorb => Sys2Proof.Machine.execKeccakAbsorb s
  | .keccakPermute => Sys2Proof.Machine.execKeccakPermute s
  | .aesKeyexp ksrc => Sys2Proof.Machine.execAesKeyexp ksrc s
  | .aesRound => Sys2Proof.Machine.execAesRound s
  | .aesRounds => Sys2Proof.Machine.execAesRounds s
  | .spInit => Sys2Proof.Machine.execSpInit s
  | .mhlInit => Sys2Proof.Machine.execMhlInit s
  | .mhlStep => Sys2Proof.Machine.execMhlStep s
  | .mhlRun => Sys2Proof.Machine.execMhlRun s
  | .mhlShuffle => Sys2Proof.Machine.execMhlShuffle s
  | .v2Divsqrt => Sys2Proof.Machine.execV2Divsqrt s
  | .finalize => Sys2Proof.Machine.execFinalize s
  | .finalMux => Sys2Proof.Machine.execFinalMux s
  | .cellRead => Sys2Proof.Machine.execCellRead s
  | .cellWrite => Sys2Proof.Machine.execCellWrite s
  | .sum => Sys2Proof.Machine.execSum s

end Sys2Proof.Machine
end

