-- ==== Sys2Proof/Machine/HostPort.lean ====
section
/-! DEFINITION. The host's register window (10_state.md R16 to R18): the register map, HRead, HWrite, and what each host access does. -/

namespace Sys2Proof.Machine

/-- The host registers (10_state.md R17). -/
inductive HostReg where
  | st (i : Fin 25)
  | key (i : Fin 4)
  | xLo
  | xHi
  | kLo
  | kHi
  | yLo
  | yHi
  | aLo
  | aHi
  | bLo
  | bHi
  | cLo
  | cHi
  | c2Lo
  | c2Hi
  | pLo
  | pHi
  | addr
  | addr2
  | tweak
  | divr
  | sqrtr
  | rkw (j : Fin 20)
  | blk (j : Fin 16)
  | cmd
  | status
  | variant
  | inLen
  | inByte
  | cellIdx
  | sel
  | iter
  | digest (i : Fin 4)
  | id
deriving DecidableEq, Repr

/-- The registers of the map that stand alone, by word address (10_state.md R17). -/
def singleReg (addr : Nat) : Option HostReg :=
  match addr with
  | 0x024 => some .xLo
  | 0x025 => some .xHi
  | 0x026 => some .kLo
  | 0x027 => some .kHi
  | 0x028 => some .yLo
  | 0x029 => some .yHi
  | 0x02A => some .aLo
  | 0x02B => some .aHi
  | 0x02C => some .bLo
  | 0x02D => some .bHi
  | 0x02E => some .cLo
  | 0x02F => some .cHi
  | 0x030 => some .c2Lo
  | 0x031 => some .c2Hi
  | 0x032 => some .pLo
  | 0x033 => some .pHi
  | 0x034 => some .addr
  | 0x035 => some .addr2
  | 0x036 => some .tweak
  | 0x037 => some .divr
  | 0x038 => some .sqrtr
  | 0x070 => some .cmd
  | 0x071 => some .status
  | 0x072 => some .variant
  | 0x073 => some .inLen
  | 0x074 => some .inByte
  | 0x075 => some .cellIdx
  | 0x076 => some .sel
  | 0x077 => some .iter
  | 0x07F => some .id
  | _ => none

/-- The register at a word address (10_state.md R17); `none` for a reserved address and for one above 0x07F. -/
def regAt (addr : Nat) : Option HostReg :=
  if h : addr < 25 then some (.st ⟨addr, h⟩)
  else if h : 0x020 ≤ addr ∧ addr < 0x024 then some (.key ⟨addr - 0x020, by omega⟩)
  else if h : 0x040 ≤ addr ∧ addr < 0x054 then some (.rkw ⟨addr - 0x040, by omega⟩)
  else if h : 0x058 ≤ addr ∧ addr < 0x068 then some (.blk ⟨addr - 0x058, by omega⟩)
  else if h : 0x078 ≤ addr ∧ addr < 0x07C then some (.digest ⟨addr - 0x078, by omega⟩)
  else singleReg addr

/-- The constant `ID` (10_state.md R38). -/
def idValue : Word := 0x434E435200070007

/-- `RKW[j] = RK[2j] | RK[2j+1] << 32` (10_state.md R21). -/
def rkwValue (rk : Vector RkWord 40) (j : Fin 20) : Word := rk[2 * j.val + 1] ++ rk[2 * j.val]

/-- What `HRead` returns of a register (10_state.md R17); `none` for the write-only `IN_BYTE`. Unused high bits read 0. -/
def readReg (r : HostReg) (s : State) : Option Word :=
  match r with
  | .st i => some s.st[i.val]
  | .key i => some s.key[i.val]
  | .xLo => some s.x.lo
  | .xHi => some s.x.hi
  | .kLo => some s.k.lo
  | .kHi => some s.k.hi
  | .yLo => some s.y.lo
  | .yHi => some s.y.hi
  | .aLo => some s.a.lo
  | .aHi => some s.a.hi
  | .bLo => some s.b.lo
  | .bHi => some s.b.hi
  | .cLo => some s.c.lo
  | .cHi => some s.c.hi
  | .c2Lo => some s.c2.lo
  | .c2Hi => some s.c2.hi
  | .pLo => some s.p.lo
  | .pHi => some s.p.hi
  | .addr => some (s.addr.setWidth 64)
  | .addr2 => some (s.addr2.setWidth 64)
  | .tweak => some s.tweak
  | .divr => some s.divr
  | .sqrtr => some s.sqrtr
  | .rkw j => some (rkwValue s.rk j)
  | .blk j => some s.blk[j.val]
  | .cmd => some s.cmd
  | .status => some (statusWord s.status)
  | .variant => some s.variant
  | .inLen => some s.inLen
  | .inByte => none
  | .cellIdx => some s.cellIdx
  | .sel => some (s.sel.setWidth 64)
  | .iter => some (s.iter.setWidth 64)
  | .digest i => some s.digest[i.val]
  | .id => some idValue

/-- What `HWrite` does to a register of access code RW, which has no effect but to store the value; `none` for a register of
another access code (10_state.md R17). -/
def storeReg (r : HostReg) (v : Word) (s : State) : Option State :=
  match r with
  | .st i => some { s with st := s.st.set i.val v }
  | .key i => some { s with key := s.key.set i.val v }
  | .xLo => some { s with x := { lo := v, hi := s.x.hi } }
  | .xHi => some { s with x := { lo := s.x.lo, hi := v } }
  | .kLo => some { s with k := { lo := v, hi := s.k.hi } }
  | .kHi => some { s with k := { lo := s.k.lo, hi := v } }
  | .aLo => some { s with a := { lo := v, hi := s.a.hi } }
  | .aHi => some { s with a := { lo := s.a.lo, hi := v } }
  | .bLo => some { s with b := { lo := v, hi := s.b.hi } }
  | .bHi => some { s with b := { lo := s.b.lo, hi := v } }
  | .c2Lo => some { s with c2 := { lo := v, hi := s.c2.hi } }
  | .c2Hi => some { s with c2 := { lo := s.c2.lo, hi := v } }
  | .tweak => some { s with tweak := v }
  | .divr => some { s with divr := v }
  | .sqrtr => some { s with sqrtr := v }
  | .variant => some { s with variant := v }
  | .cellIdx => some { s with cellIdx := v }
  | .yLo => none
  | .yHi => none
  | .cLo => none
  | .cHi => none
  | .pLo => none
  | .pHi => none
  | .addr => none
  | .addr2 => none
  | .rkw _ => none
  | .blk _ => none
  | .cmd => none
  | .status => none
  | .inLen => none
  | .inByte => none
  | .sel => none
  | .iter => none
  | .digest _ => none
  | .id => none

/-- An `IN_BYTE` write (10_state.md R34): bits 63:8 of the value are ignored. -/
def pushInByte (v : Word) (s : State) : State :=
  if s.inLen.toNat < Config.inMax then
    { s with inBytes := setInByte 0 s.inBytes s.inLen.toNat (v.setWidth 8), inLen := s.inLen + 1 }
  else { s with status := statusInFull s.status }

/-- A `CMD` write (10_state.md R31): the word is stored, then the command it encodes runs in the same step. An ILLEGAL word
raises ERR_OPCODE and does nothing else (30_encoding.md R65, R66; 60_exceptions.md R118). -/
def commandWrite (w : Word) (s : State) : Result :=
  match decode w with
  | .legal i => exec i { s with cmd := w }
  | .illegal _ => runCommand (some .opcode) id { s with cmd := w }

/-- A host access fault (10_state.md R18): recorded in the host agent, no effect on the engine. -/
def recordFault (why : HostFault) (s : State) : Result := .next { s with hostFault := some why }

/-- `HRead(addr)` (10_state.md R16, R18): the value goes to the host; nothing of the engine changes. -/
def hostRead (addr : Nat) (s : State) : Result :=
  match regAt addr with
  | none => recordFault (.reserved addr) s
  | some r =>
    match readReg r s with
    | some v => .next { s with hostReads := v :: s.hostReads }
    | none => recordFault (.writeOnly addr) s

/-- `HWrite(addr, v)` (10_state.md R16 to R18, R31, R34). -/
def hostWrite (addr : Nat) (v : Word) (s : State) : Result :=
  match regAt addr with
  | none => recordFault (.reserved addr) s
  | some .cmd => commandWrite v s
  | some .inByte => .next (pushInByte v s)
  | some r =>
    match storeReg r v s with
    | some t => .next t
    | none => recordFault (.readOnly addr) s

/-- The platform's reset input (70_reset_and_hazards.md R132): the engine is in its reset state; what the host has still to do
and what it has read are its own. -/
def platformReset (s : State) : State :=
  { State.reset with hostQueue := s.hostQueue, hostReads := s.hostReads, hostFault := s.hostFault }

/-- One access of the host agent. -/
def hostAccess (acc : HostAccess) (s : State) : Result :=
  match acc with
  | .read addr => hostRead addr s
  | .write addr v => hostWrite addr v s
  | .reset => .next (platformReset s)

/-- One step of the machine (00_scope.md R13): the host's first pending access, with the command it starts. A host that has
made a faulty access makes no further one: the fault is never cleared (10_state.md R18). With nothing pending the engine
does nothing (60_exceptions.md R130). -/
def hostStep (s : State) : Result :=
  match s.hostFault with
  | some why => .fault (.hostAccess why)
  | none =>
    match s.hostQueue with
    | [] => .next s
    | acc :: rest => hostAccess acc { s with hostQueue := rest }

/-- The word address of `CMD` (10_state.md R17). -/
def cmdAddress : Nat := 0x070

/-- The word address of `IN_BYTE` (10_state.md R17). -/
def inByteAddress : Nat := 0x074

/-- A mnemonic alone in a host program (30_encoding.md R68): the write of the command's word to `CMD`. `W` and `R` are the accesses
`HostAccess.write` and `HostAccess.read` themselves. -/
def commandAccess (i : Instr) : HostAccess := .write cmdAddress (encode i)

/-- `LOADIN` in a host program (30_encoding.md R68): IN_CLEAR, then one write of `IN_BYTE` for each byte, the first byte first. -/
def loadInAccesses (data : List Byte) : List HostAccess :=
  commandAccess .inClear :: data.map fun b => .write inByteAddress (b.setWidth 64)

end Sys2Proof.Machine
end

