-- ==== Sys2Proof/Machine/Step.lean ====
section
/-! DEFINITION. One step of the machine, and how a command word is placed where the next step takes it. -/

namespace Sys2Proof.Machine

/-- One step. -/
def step (s : State) : Host.Outcome State Fault Refusal := hostStep s

/-- `s` with the host about to write the command word made of the low `nbits` bits of `w` to `CMD` (10_state.md R31): the
next step takes it from the front of the host's pending accesses. A host that has faulted makes no access (10_state.md R18),
so the host is one that has not. -/
def State.withFetchWord (s : State) (nbits w : Nat) : State :=
  { s with hostQueue := .write cmdAddress (BitVec.ofNat 64 (w % 2 ^ nbits)) :: s.hostQueue, hostFault := none }

end Sys2Proof.Machine
end

