-- ==== Sys2Proof/Safety.lean ====
section
/-! DEFINITION. What counts as a sound state of the machine, in the terms the statements use. -/

namespace Sys2Proof.Machine

/-- STATUS is consistent (10_state.md R32): BUSY is 0; ERR is 1 exactly when ERRCODE is not 0; no code above 0x05 is ever there
(60_exceptions.md R116); an error shows only with DONE; and LASTOP is bits 7:0 of the last word written to `CMD`. -/
def statusSound (s : State) : Prop :=
  s.status.busy = false ∧ (s.status.err = true ↔ s.status.errcode ≠ 0) ∧ s.status.errcode.toNat ≤ 5 ∧
    (s.status.err = true → s.status.done = true) ∧ s.status.lastop = s.cmd.extractLsb' 0 8

/-- The input buffer is sound (10_state.md R34): IN_LEN does not exceed IN_MAX, and every byte below IN_LEN has been written. -/
def inputSound (s : State) : Prop := s.inLen.toNat ≤ Config.inMax ∧ s.inLen.toNat ≤ s.inBytes.length

/-- `DIGEST` shows nothing but a whole digest (60_exceptions.md R117, 46_control.md R113): it is 0 while DV is 0. -/
def digestSound (s : State) : Prop := s.status.dv = false → s.digest = Vector.replicate 4 0

/-- The invariant of the machine. -/
def Inv (s : State) : Prop :=
  Memory.wf s.sp = true ∧ statusSound s ∧ inputSound s ∧ digestSound s

/-- A run is safe while the host agent has made no faulty access (10_state.md R18). -/
def hostSound (s : State) : Prop := s.hostFault = none

end Sys2Proof.Machine
end

