-- ==== Sys2Proof/Certificates/Slice0/Obligations.lean ====
section
/-! DEFINITION. The statements for the provers. Sys2Proof.Rule holds what the statements need of the spec's own
vocabulary, written anew from the rules and apart from the machine's definitions. In a statement about `exec`, `s.cmd` is the
word that started the command (10_state.md R31 stores it first). -/

namespace Sys2Proof.Rule

open Sys2Proof Sys2Proof.Machine

/-! STATUS (60_exceptions.md R117). -/

/-- `STATUS` after a command that succeeds; BUSY and DV stay. -/
def ok (s : State) : Status :=
  { done := true, err := false, busy := s.status.busy, dv := s.status.dv, errcode := 0x00, lastop := s.cmd.extractLsb' 0 8 }

/-- `STATUS` after a command that raises the error of this code; BUSY and DV stay. -/
def failed (code : BitVec 8) (s : State) : Status :=
  { done := true, err := true, busy := s.status.busy, dv := s.status.dv, errcode := code, lastop := s.cmd.extractLsb' 0 8 }

/-! Bytes (00_scope.md R9, R10). -/

/-- Byte `i` of `bytes16(v)`: byte `i` of the number `v.lo + 2^64 * v.hi`. -/
def byteOf (v : Pair) (i : Nat) : Byte := (v.hi ++ v.lo).extractLsb' (8 * i) 8

/-- Half-word `h` of a 128-bit value: bits `16h+15 : 16h` (20_memory.md R44). -/
def halfOf (v : Pair) (h : Nat) : BitVec 16 := (v.hi ++ v.lo).extractLsb' (16 * h) 16

/-- `U64LE` of the bytes `f 0` to `f 7`. -/
def word (f : Nat → Byte) : Word := f 7 ++ f 6 ++ f 5 ++ f 4 ++ f 3 ++ f 2 ++ f 1 ++ f 0

/-- Byte `i` of `ST.bytes` (20_memory.md R48). -/
def stByte (s : State) (i : Fin 200) : Byte := s.st[i.val / 8].extractLsb' (8 * (i.val % 8)) 8

/-! Keccak (40_keccak.md). -/

/-- The lane at column `x` and row `y`. -/
def lane (v : Vector Word 25) (x y : Fin 5) : Word := v[x.val + 5 * y.val]

/-- `RC` (R70), the lines of the rule's table: line `r` gives the rounds `r`, `r + 8` and `r + 16`. -/
def roundConstant (round : Nat) : Word :=
  let line : Word × Word × Word :=
    [(0x0000000000000001, 0x000000000000008A, 0x8000000000008002),
     (0x0000000000008082, 0x0000000000000088, 0x8000000000000080),
     (0x800000000000808A, 0x0000000080008009, 0x000000000000800A),
     (0x8000000080008000, 0x000000008000000A, 0x800000008000000A),
     (0x000000000000808B, 0x000000008000808B, 0x8000000080008081),
     (0x0000000080000001, 0x800000000000008B, 0x8000000000008080),
     (0x8000000080008081, 0x8000000000008089, 0x0000000080000001),
     (0x8000000000008009, 0x8000000000008003, 0x8000000080008008)].getD (round % 8) (0, 0, 0)
  if round < 8 then line.1 else if round < 16 then line.2.1 else line.2.2

/-- `ROT[x][y]` (R71), the table's rows by `y`. -/
def rotation (x y : Fin 5) : Nat :=
  ([[0, 1, 62, 28, 27], [36, 44, 6, 55, 20], [3, 10, 43, 25, 39], [41, 45, 15, 21, 8], [18, 2, 61, 56, 14]].getD y.val
    []).getD x.val 0

/-- The degree-8 LFSR of R70: `x^8 + x^6 + x^5 + x^4 + 1`, from state 1. -/
def lfsr : Nat → BitVec 8
  | 0 => 1
  | n + 1 => (lfsr n <<< 1) ^^^ (if (lfsr n).getLsbD 7 then 0x71 else 0)

/-- Seven outputs of the LFSR a round, placed at the bit positions `2^j - 1` (R70). -/
def roundConstantByLfsr (round : Nat) : Word :=
  (List.range 7).foldl (fun v j => if (lfsr (7 * round + j)).getLsbD 0 then v ||| (1 <<< (2 ^ j - 1)) else v) 0

/-- The `t`-th position of the walk from `(1, 0)` under `(x, y) -> (y, 2x + 3y)` (R71). -/
def walk : Nat → Fin 5 × Fin 5
  | 0 => (1, 0)
  | t + 1 => ((walk t).2, 2 * (walk t).1 + 3 * (walk t).2)

/-- One round (R69), from the lanes `v` to the lanes `w`. Arithmetic on `Fin 5` is modulo 5. -/
def KeccakRound (round : Nat) (v w : Vector Word 25) : Prop :=
  ∃ (cx dx : Fin 5 → Word) (t b u : Vector Word 25),
    (∀ x, cx x = lane v x 0 ^^^ lane v x 1 ^^^ lane v x 2 ^^^ lane v x 3 ^^^ lane v x 4) ∧
    (∀ x, dx x = cx (x + 4) ^^^ (cx (x + 1)).rotateLeft 1) ∧
    (∀ x y, lane t x y = lane v x y ^^^ dx x) ∧
    (∀ x y, lane b y (2 * x + 3 * y) = (lane t x y).rotateLeft (rotation x y)) ∧
    (∀ x y, lane u x y = lane b x y ^^^ (~~~lane b (x + 1) y &&& lane b (x + 2) y)) ∧
    (∀ x y, lane w x y = if x = 0 ∧ y = 0 then lane u 0 0 ^^^ roundConstant round else lane u x y)

/-- `w = KeccakF(v)`: rounds 0 to 23 (R69). -/
def KeccakF (v w : Vector Word 25) : Prop :=
  ∃ z : Nat → Vector Word 25, z 0 = v ∧ z 24 = w ∧ ∀ round, round < 24 → KeccakRound round (z round) (z (round + 1))

/-- Byte `pos` of the padded input (R72): `IN[0 .. IN_LEN-1]`, then 0x01, zeros, and 0x80 ORed into the last byte of the last
136-byte block. -/
def paddedByte (s : State) (pos : Nat) : Byte :=
  (if pos < s.inLen.toNat then inByte s pos else if pos = s.inLen.toNat then 0x01 else 0x00) |||
    (if pos = 136 * (s.inLen.toNat / 136) + 135 then 0x80 else 0x00)

/-- Absorbing block `blk` of the padded input into the lanes `v` gives `w` (R72). -/
def AbsorbBlock (s : State) (blk : Nat) (v w : Vector Word 25) : Prop :=
  ∃ u : Vector Word 25,
    (∀ j : Fin 25, u[j.val] =
      if j.val < 17 then v[j.val] ^^^ word (fun k => paddedByte s (136 * blk + 8 * j.val + k)) else v[j.val]) ∧
    KeccakF u w

/-! CryptoNight-AES (41_aes.md). -/

/-- `gmul(b, 2) = xtime(b)` (R75). -/
def double (b : Byte) : Byte := if b.toNat < 128 then b <<< 1 else (b <<< 1) ^^^ 0x1B

/-- The product in GF(2^8) (R75): the sum of `b * x^k` over the bits `k` of `c`. -/
def gfMul (b c : Byte) : Byte :=
  (List.range 8).foldl (fun acc k => if c.getLsbD k then acc ^^^ (double^[k] b) else acc) 0

/-- `affine(q)` (R77). -/
def affine (q : Byte) : Byte :=
  q ^^^ q.rotateLeft 1 ^^^ q.rotateLeft 2 ^^^ q.rotateLeft 3 ^^^ q.rotateLeft 4 ^^^ 0x63

/-- `w = cn_round(v, k)` (R76 to R80), the values read as blocks of 16 bytes, column by column. -/
def AesRound (v k w : Pair) : Prop :=
  ∀ c : Fin 4,
    let a := fun r : Nat => sbox (byteOf v (r + 4 * ((c.val + r) % 4)))
    byteOf w (4 * c.val) = double (a 0) ^^^ (double (a 1) ^^^ a 1) ^^^ a 2 ^^^ a 3 ^^^ byteOf k (4 * c.val) ∧
    byteOf w (4 * c.val + 1) = a 0 ^^^ double (a 1) ^^^ (double (a 2) ^^^ a 2) ^^^ a 3 ^^^ byteOf k (4 * c.val + 1) ∧
    byteOf w (4 * c.val + 2) = a 0 ^^^ a 1 ^^^ double (a 2) ^^^ (double (a 3) ^^^ a 3) ^^^ byteOf k (4 * c.val + 2) ∧
    byteOf w (4 * c.val + 3) = (double (a 0) ^^^ a 0) ^^^ a 1 ^^^ a 2 ^^^ double (a 3) ^^^ byteOf k (4 * c.val + 3)

/-- Round key `r` as a 128-bit value (10_state.md R21, 20_memory.md R49). -/
def roundKeyOf (rk : Vector RkWord 40) (r : Fin 10) : Pair :=
  { lo := rk[4 * r.val + 1] ++ rk[4 * r.val], hi := rk[4 * r.val + 3] ++ rk[4 * r.val + 2] }

/-- `w = cn_rounds(v, RK)` (R81). -/
def AesRounds (rk : Vector RkWord 40) (v w : Pair) : Prop :=
  ∃ z : Nat → Pair, z 0 = v ∧ z 10 = w ∧ ∀ r : Fin 10, AesRound (z r.val) (roundKeyOf rk r) (z (r.val + 1))

/-- `SubWord` (R82); byte 0 of a word is its bits 7:0. -/
def subWordOf (w : RkWord) : RkWord :=
  sbox (w.extractLsb' 24 8) ++ sbox (w.extractLsb' 16 8) ++ sbox (w.extractLsb' 8 8) ++ sbox (w.extractLsb' 0 8)

/-- What `W[i-8]` is XORed with (R82, R83), `prev` being `W[i-1]`. `RotWord` moves each byte one place down, the lowest to the
top; `rc_1 .. rc_4` are 0x01, 0x02, 0x04, 0x08. -/
def scheduleTerm (i : Nat) (prev : RkWord) : RkWord :=
  if i % 8 = 0 then subWordOf (prev.rotateRight 8) ^^^ (1 <<< (i / 8 - 1))
  else if i % 8 = 4 then subWordOf prev
  else prev

/-- `rk = ExpandKey(key)` (R83). -/
def KeySchedule (key : Fin 32 → Byte) (rk : Vector RkWord 40) : Prop :=
  (∀ i : Fin 8, rk[i.val] =
    key ⟨4 * i.val + 3, by omega⟩ ++ key ⟨4 * i.val + 2, by omega⟩ ++ key ⟨4 * i.val + 1, by omega⟩ ++ key ⟨4 * i.val, by omega⟩) ∧
  (∀ i : Fin 32, rk[i.val + 8] = rk[i.val] ^^^ scheduleTerm (i.val + 8) rk[i.val + 7])

/-- Key source 0 (30_encoding.md R63): `LE64(KEY[0]) ++ LE64(KEY[1]) ++ LE64(KEY[2]) ++ LE64(KEY[3])`. -/
def keyRegister (s : State) (i : Fin 32) : Byte := s.key[i.val / 8].extractLsb' (8 * (i.val % 8)) 8

/-- Key sources 1 and 2 (R63): `ST.bytes[0..31]` and `ST.bytes[32..63]`. -/
def keyStLo (s : State) (i : Fin 32) : Byte := stByte s ⟨i.val, by omega⟩
def keyStHi (s : State) (i : Fin 32) : Byte := stByte s ⟨32 + i.val, by omega⟩

/-! The scratchpad by cells (20_memory.md). -/

/-- The scratchpad as a function from cell indices. -/
abbrev Cells := CellIndex → Pair

/-- `CellWrite(n, v)`. -/
def Cells.put (m : Cells) (n : CellIndex) (v : Pair) : Cells := fun k => if k = n then v else m k

/-- Cell `8*ch + j`. -/
def chunkCellOf (ch : Nat) (j : Fin 8) : CellIndex := BitVec.ofNat 17 (8 * ch + j.val)

/-- The neighbours `n XOR 1`, `n XOR 2`, `n XOR 3` (R47). -/
def neighbour (n : CellIndex) (i : Fin 3) : CellIndex := n ^^^ BitVec.ofNat 17 (i.val + 1)

/-- `Shuffle(n)` takes the cells `m` to the cells `m'` (43_memory_hard_loop.md R94, R95): destination half-word `d` takes source
half-word `PI[d]`, read before any is written; every other cell stays. -/
def Shuffle (perm : Fin 24 → Fin 24) (n : CellIndex) (m m' : Cells) : Prop :=
  (∀ k, (∀ i, k ≠ neighbour n i) → m' k = m k) ∧
  ∀ d : Fin 24, halfOf (m' (neighbour n ⟨d.val / 8, by omega⟩)) (d.val % 8) =
    halfOf (m (neighbour n ⟨(perm d).val / 8, by omega⟩)) ((perm d).val % 8)

/-- `to_addr(v)`: bits 20:4 of the low lane (R46). -/
def cellAddress (v : Pair) : CellIndex := v.lo.extractLsb' 4 17

/-! The division and square root (44_isqrt_divmod.md R100). -/

/-- `divisor`. -/
def divisorOf (blo : Word) : Nat := (blo.toNat % 2 ^ 32) ||| 0x80000001

/-- `DIVR'`: the low 32 bits of the quotient, and the remainder above them. -/
def divOf (blo bhi : Word) : Word :=
  BitVec.ofNat 64 (bhi.toNat / divisorOf blo % 2 ^ 32 + 2 ^ 32 * (bhi.toNat % divisorOf blo))

/-- `m`. -/
def rootArgOf (blo bhi : Word) : Nat := (blo.toNat + (divOf blo bhi).toNat) % 2 ^ 64 / 2 ^ 16

/-- `SQRTR'`, by the binary64 primitives. -/
def rootOf (blo bhi : Word) : Word := f64Trunc (f64Sqrt (f64OfNat (rootArgOf blo bhi)))

/-! The iteration (43_memory_hard_loop.md R92). -/

/-- `Iterate(v)` with `v = VARIANT`, then `ITER + 1` (R96), takes the registers of `s` and the cells `m` to the registers of `t` and
the cells `m'`; no other register of `t` differs from `s`. The intermediate cells are named by the step that leaves them. -/
def Iteration (s t : State) (m m' : Cells) : Prop :=
  ∃ (c : Pair) (m3 m4 m5 m9 m11 : Cells),
    let addr := cellAddress s.a
    let addr2 := cellAddress c
    let read2 := m5 addr2
    let c2 : Pair := { lo := read2.lo, hi := if s.variant = 2 then read2.hi ^^^ s.divr ^^^ s.sqrtr else read2.hi }
    let product := c.lo.toNat * c2.lo.toNat
    let sum : Pair := { lo := s.a.lo + BitVec.ofNat 64 (product / 2 ^ 64), hi := s.a.hi + BitVec.ofNat 64 product }
    AesRound (m addr) s.a c ∧
    (if s.variant = 2 then Shuffle v2ShufflePerm addr m m3 else m3 = m) ∧
    m4 = m3.put addr { lo := s.b.lo ^^^ c.lo, hi := s.b.hi ^^^ c.hi } ∧
    m5 = (if s.variant = 1 then
      m4.put addr { lo := (m4 addr).lo, hi := (m4 addr).hi ^^^ (tprime ((m4 addr).hi >>> 24) <<< 24) } else m4) ∧
    (if s.variant = 2 then Shuffle v2ShufflePerm addr2 m5 m9 else m9 = m5) ∧
    m11 = m9.put addr2 sum ∧
    m' = (if s.variant = 1 then m11.put addr2 { lo := (m11 addr2).lo, hi := (m11 addr2).hi ^^^ s.tweak } else m11) ∧
    t = { s with
      addr := addr
      addr2 := addr2
      c := c
      b := c
      c2 := c2
      p := { lo := BitVec.ofNat 64 product, hi := BitVec.ofNat 64 (product / 2 ^ 64) }
      a := { lo := sum.lo ^^^ c2.lo, hi := sum.hi ^^^ c2.hi }
      divr := if s.variant = 2 then divOf c.lo c.hi else s.divr
      sqrtr := if s.variant = 2 then rootOf c.lo c.hi else s.sqrtr
      iter := s.iter + 1
      sp := t.sp
      status := ok s }

/-! The host register map (10_state.md R17). -/

/-- A register of access code RW. -/
def isRW (a : Nat) : Bool :=
  a ≤ 0x018 || (0x020 ≤ a && a ≤ 0x027) || (0x02A ≤ a && a ≤ 0x02D) || a = 0x030 || a = 0x031 ||
    (0x036 ≤ a && a ≤ 0x038) || a = 0x072 || a = 0x075

/-- A register of access code RO. -/
def isRO (a : Nat) : Bool :=
  a = 0x028 || a = 0x029 || a = 0x02E || a = 0x02F || (0x032 ≤ a && a ≤ 0x035) || (0x040 ≤ a && a ≤ 0x053) ||
    (0x058 ≤ a && a ≤ 0x067) || a = 0x071 || a = 0x073 || (0x076 ≤ a && a ≤ 0x07B) || a = 0x07F

/-- A reserved address, or one above 0x07F. -/
def isReserved (a : Nat) : Bool :=
  (0x019 ≤ a && a ≤ 0x01F) || (0x039 ≤ a && a ≤ 0x03F) || (0x054 ≤ a && a ≤ 0x057) || (0x068 ≤ a && a ≤ 0x06F) ||
    (0x07C ≤ a && a ≤ 0x07E) || 0x080 ≤ a

/-- `STATUS` as a word (R32). -/
def statusBits (t : Status) : Word :=
  BitVec.ofNat 64 (t.done.toNat + 2 * t.err.toNat + 4 * t.busy.toNat + 8 * t.dv.toNat + 2 ^ 8 * t.errcode.toNat +
    2 ^ 16 * t.lastop.toNat)

/-- What `HRead` returns at a word address; `none` where the access is a fault. -/
def hread (s : State) (a : Nat) : Option Word :=
  if h : a ≤ 0x018 then some s.st[a]
  else if h : 0x020 ≤ a ∧ a ≤ 0x023 then some s.key[a - 0x020]
  else if h : 0x040 ≤ a ∧ a ≤ 0x053 then
    some (BitVec.ofNat 64 (s.rk[2 * (a - 0x040)].toNat + 2 ^ 32 * s.rk[2 * (a - 0x040) + 1].toNat))
  else if h : 0x058 ≤ a ∧ a ≤ 0x067 then some s.blk[a - 0x058]
  else if h : 0x078 ≤ a ∧ a ≤ 0x07B then some s.digest[a - 0x078]
  else match a with
    | 0x024 => some s.x.lo
    | 0x025 => some s.x.hi
    | 0x026 => some s.k.lo
    | 0x027 => some s.k.hi
    | 0x028 => some s.y.lo
    | 0x029 => some s.y.hi
    | 0x02A => some s.a.lo
    | 0x02B => some s.a.hi
    | 0x02C => some s.b.lo
    | 0x02D => some s.b.hi
    | 0x02E => some s.c.lo
    | 0x02F => some s.c.hi
    | 0x030 => some s.c2.lo
    | 0x031 => some s.c2.hi
    | 0x032 => some s.p.lo
    | 0x033 => some s.p.hi
    | 0x034 => some (BitVec.ofNat 64 s.addr.toNat)
    | 0x035 => some (BitVec.ofNat 64 s.addr2.toNat)
    | 0x036 => some s.tweak
    | 0x037 => some s.divr
    | 0x038 => some s.sqrtr
    | 0x070 => some s.cmd
    | 0x071 => some (statusBits s.status)
    | 0x072 => some s.variant
    | 0x073 => some s.inLen
    | 0x075 => some s.cellIdx
    | 0x076 => some (BitVec.ofNat 64 s.sel.toNat)
    | 0x077 => some (BitVec.ofNat 64 s.iter.toNat)
    | 0x07F => some 0x434E435200070007
    | _ => none

/-! Command words (30_encoding.md R64). -/

/-- Every command word of the opcode map with the command it stands for. -/
def commandWords : List (Nat × Instr) :=
  [(0x0000000000000000, .nop), (0x0000000000000001, .inClear), (0x0000000000000002, .cacheZero),
   (0x0000000000000010, .keccakAbsorb), (0x0000000000000011, .keccakPermute), (0x0000000000000020, .aesKeyexp 0),
   (0x0000000000000120, .aesKeyexp 1), (0x0000000000000220, .aesKeyexp 2), (0x0000000000000021, .aesRound),
   (0x0000000000000022, .aesRounds), (0x0000000000000030, .spInit), (0x0000000000000040, .mhlInit),
   (0x0000000000000041, .mhlStep), (0x0000000000000042, .mhlRun), (0x0000000000000043, .mhlShuffle),
   (0x0000000000000050, .v2Divsqrt), (0x0000000000000060, .finalize), (0x0000000000000061, .finalMux),
   (0x0000000000000070, .cellRead), (0x0000000000000071, .cellWrite), (0x0000000000000080, .sum)]

/-- The 19 assigned values of OP (R64). -/
def assignedOps : List Nat :=
  [0x00, 0x01, 0x02, 0x10, 0x11, 0x20, 0x21, 0x22, 0x30, 0x40, 0x41, 0x42, 0x43, 0x50, 0x60, 0x61, 0x70, 0x71, 0x80]

/-- The words of R66's set. -/
def illegalWord (w : Word) : Prop :=
  let op := w.toNat % 2 ^ 8
  let ksrc := w.toNat / 2 ^ 8 % 4
  op ∉ assignedOps ∨ w.toNat / 2 ^ 10 ≠ 0 ∨ (op ≠ 0x20 ∧ ksrc ≠ 0) ∨ (op = 0x20 ∧ ksrc = 3)

/-! Binary64 (44_isqrt_divmod.md R99). -/

/-- The real value of a binary64. -/
noncomputable def f64Value (x : Binary64) : ℝ := (x.mant : ℝ) * (2 : ℝ) ^ x.exp

/-- A significand that a binary64 can have: zero, or 53 bits. -/
def f64Canonical (x : Binary64) : Prop := x.mant = 0 ∨ (2 ^ 52 ≤ x.mant ∧ x.mant < 2 ^ 53)

/-- `x` is the binary64 value nearest to the real `r`, ties to even. Exponents are not bounded (log 16). -/
def f64Nearest (r : ℝ) (x : Binary64) : Prop :=
  f64Canonical x ∧
    ∀ y, f64Canonical y → |r - f64Value x| ≤ |r - f64Value y| ∧
      (|r - f64Value x| = |r - f64Value y| → f64Value y ≠ f64Value x → x.mant % 2 = 0)

/-! Results. -/

/-- The result of a command with its next state changed by `f`. -/
def onNext (f : State → State) : Result → Result
  | .next t => .next (f t)
  | .fault r => .fault r
  | .refused r => .refused r

/-- `n` steps take `s` to `t`. -/
def Steps : Nat → State → State → Prop
  | 0, s, t => s = t
  | n + 1, s, t => ∃ u, step s = .next u ∧ Steps n u t

/-- `VARIANT` is one that the engine supports, and a variant 1 input is long enough (60_exceptions.md R119, R120). -/
def hashable (s : State) : Prop :=
  (s.variant = 0 ∨ s.variant = 1 ∨ s.variant = 2) ∧ (s.variant = 1 → 43 ≤ s.inLen.toNat)

end Sys2Proof.Rule

open Sys2Proof Sys2Proof.Machine Sys2Proof.Rule

/-! Encoding. -/

/-- 30_encoding.md R64: the 21 words of the opcode map are the legal ones, each with its command. -/
def Obligations.CommandWordsAreTheOpcodeMap : Prop :=
  ∀ (w : Word) (i : Instr), decode w = .legal i ↔ (w.toNat, i) ∈ commandWords

/-- Decode and encode agree, both ways; a command is well formed exactly when its own word stands for it. -/
def Obligations.DecodeEncodeAgree : Prop :=
  (∀ i : Instr, i.wellFormed = true ↔ decode (encode i) = .legal i) ∧
  (∀ (w : Word) (i : Instr), decode w = .legal i → i.wellFormed = true ∧ encode i = w)

/-- 30_encoding.md R66, with R118: the ILLEGAL words, and all that writing one does. -/
def Obligations.IllegalWordsRaiseErrOpcode : Prop :=
  ((List.range 256).filter fun op => op ∉ assignedOps).length = 237 ∧
  (∀ w : Word, (∃ why, decode w = .illegal why) ↔ illegalWord w) ∧
  (∀ (s : State) (w : Word) (rest : List HostAccess),
    s.hostFault = none → s.hostQueue = .write 0x070 w :: rest → illegalWord w →
      step s = .next { s with hostQueue := rest, cmd := w, status := failed 0x01 { s with cmd := w } })

/-- Words written out from 30_encoding.md R62 to R64 decode to the commands they stand for, one of each unit, and
four that stand for none. -/
def Obligations.SampleWordsDecode : Prop :=
  decode 0x00 = .legal .nop ∧ decode 0x02 = .legal .cacheZero ∧ decode 0x10 = .legal .keccakAbsorb ∧
  decode 0x11 = .legal .keccakPermute ∧ decode 0x20 = .legal (.aesKeyexp 0) ∧ decode 0x120 = .legal (.aesKeyexp 1) ∧
  decode 0x220 = .legal (.aesKeyexp 2) ∧ decode 0x21 = .legal .aesRound ∧ decode 0x30 = .legal .spInit ∧
  decode 0x42 = .legal .mhlRun ∧ decode 0x50 = .legal .v2Divsqrt ∧ decode 0x61 = .legal .finalMux ∧
  decode 0x71 = .legal .cellWrite ∧ decode 0x80 = .legal .sum ∧
  decode 0x320 = .illegal .keySource3 ∧ decode 0x110 = .illegal .keySourceNotZero ∧ decode 0x03 = .illegal .unassignedOpcode ∧
  decode 0x400 = .illegal .reservedBits

/-! Steps. -/

/-- 10_state.md R31: a write of a legal word to `CMD` stores it and runs its command in the same step; the command updates
`STATUS`; `HRead(0x070)` returns the last word written; `CMD` is 0 and no command has run after reset. -/
def Obligations.StepRunsTheDecodedCommand : Prop :=
  (∀ (s : State) (w : Word) (i : Instr) (rest : List HostAccess),
    s.hostFault = none → s.hostQueue = .write 0x070 w :: rest → decode w = .legal i →
      step s = exec i { s with hostQueue := rest, cmd := w } ∧
      ∃ t, step s = .next t ∧ t.cmd = w ∧ t.hostQueue = rest ∧ t.status.done = true ∧ t.status.lastop = w.extractLsb' 0 8) ∧
  (∀ (s : State) (rest : List HostAccess), s.hostFault = none → s.hostQueue = .read 0x070 :: rest →
    step s = .next { s with hostQueue := rest, hostReads := s.cmd :: s.hostReads }) ∧
  State.reset.cmd = 0 ∧ State.reset.status.done = false

/-- Between the host's accesses the engine does nothing (the idle step is the model's reading, log 2). -/
def Obligations.IdleEngineKeepsItsState : Prop :=
  ∀ s : State, s.hostFault = none → s.hostQueue = [] → step s = .next s

/-- 70_reset_and_hazards.md R132: what reset leaves, as the host and the cell view show it, and that a reset by the platform's
input has the same effect on the engine, whatever its state. -/
def Obligations.ResetState : Prop :=
  (∀ a, a < 0x07F → ∀ v, hread State.reset a = some v → v = 0) ∧ hread State.reset 0x07F = some 0x434E435200070007 ∧
  (∀ a, readByte State.reset.sp a = 0) ∧ input State.reset = [] ∧
  (∀ (s : State) (rest : List HostAccess), s.hostFault = none → s.hostQueue = .reset :: rest →
    ∃ t, step s = .next t ∧ input t = [] ∧
      t = { State.reset with
        inBytes := t.inBytes, hostQueue := t.hostQueue, hostReads := t.hostReads, hostFault := t.hostFault })

/-- The invariant of Safety.lean holds after reset. -/
def Obligations.InvariantAtReset : Prop := Inv State.reset

/-- Every step keeps the invariant: the scratchpad's canonical form, a consistent `STATUS` whose LASTOP is the low byte of `CMD`, an
input within `IN_MAX` that has been written, and no digest shown without DV. -/
def Obligations.StepKeepsTheInvariant : Prop := ∀ s t : State, Inv s → step s = .next t → Inv t

/-! The host's register window. -/

/-- Every `HRead` of a readable register returns the value that the map of 10_state.md R17 gives its address and changes nothing of the
engine. -/
def Obligations.HostReadReturnsTheMappedValue : Prop :=
  ∀ (s : State) (a : Nat) (rest : List HostAccess), s.hostFault = none → s.hostQueue = .read a :: rest →
    isReserved a = false → a ≠ 0x074 →
      ∃ v, hread s a = some v ∧ step s = .next { s with hostQueue := rest, hostReads := v :: s.hostReads }

/-- An `HWrite` of an RW register is what the next `HRead` of it returns, and no other register, scratchpad byte or byte of `IN` changes. -/
def Obligations.HostWriteStoresOneRegister : Prop :=
  ∀ (s : State) (a : Nat) (v : Word) (rest : List HostAccess), s.hostFault = none → s.hostQueue = .write a v :: rest →
    isRW a = true →
      ∃ t, step s = .next t ∧ hread t a = some v ∧ (∀ b, b ≠ a → hread t b = hread s b) ∧ t.sp = s.sp ∧
        t.inBytes = s.inBytes ∧ t.hostQueue = rest ∧ t.hostReads = s.hostReads ∧ t.hostFault = none

/-- 60_exceptions.md R125: the faulty accesses are faults of the host agent and write nothing of the engine. -/
def Obligations.FaultyAccessesLeaveTheEngineAlone : Prop :=
  ∀ (s : State) (rest : List HostAccess), s.hostFault = none →
    (∀ a, s.hostQueue = .read a :: rest → isReserved a = true ∨ a = 0x074 →
      ∃ why, step s = .next { s with hostQueue := rest, hostFault := some why }) ∧
    (∀ a v, s.hostQueue = .write a v :: rest → isReserved a = true ∨ isRO a = true →
      ∃ why, step s = .next { s with hostQueue := rest, hostFault := some why })

/-- A recorded host fault is never cleared: no step follows it (the model's reading of 10_state.md R18, log 4). -/
def Obligations.HostFaultEndsTheRun : Prop :=
  ∀ (s : State) (why : HostFault), s.hostFault = some why → step s = .fault (.hostAccess why)

/-- The `IN_BYTE` write of 10_state.md R34, both arms. -/
def Obligations.InByteWriteAppends : Prop :=
  ∀ (s : State) (v : Word) (rest : List HostAccess), s.hostFault = none → s.hostQueue = .write 0x074 v :: rest →
    (s.inLen.toNat < Config.inMax →
      ∃ t, step s = .next t ∧ t = { s with hostQueue := rest, inBytes := t.inBytes, inLen := s.inLen + 1 } ∧
        t.inLen.toNat = s.inLen.toNat + 1 ∧ input t = input s ++ [v.extractLsb' 0 8] ∧
        ∀ k, k ≠ s.inLen.toNat → inByte t k = inByte s k) ∧
    (Config.inMax ≤ s.inLen.toNat →
      step s = .next { s with
        hostQueue := rest, status := { s.status with done := true, err := true, errcode := 0x05 } })

/-- LOADIN (30_encoding.md R68): the accesses it stands for leave exactly its bytes as the input, whatever the input was, and write nothing
else but `CMD` and `STATUS`. -/
def Obligations.LoadInLoadsTheInput : Prop :=
  ∀ (s : State) (data : List Byte) (rest : List HostAccess), s.hostFault = none →
    s.hostQueue = loadInAccesses data ++ rest → data.length ≤ Config.inMax →
      ∃ t, Steps (data.length + 1) s t ∧ input t = data ∧
        t = { s with
          hostQueue := rest, cmd := 0x01, inBytes := t.inBytes, inLen := BitVec.ofNat 64 data.length
          status := ok { s with cmd := 0x01 } }

/-- No command reads a byte of `IN` at or beyond `IN_LEN` (10_state.md R34, an inference of the spec): other bytes there change nothing in
what the command does. -/
def Obligations.UnwrittenInputIsNotRead : Prop :=
  ∀ (i : Instr) (s : State) (bytes : List Byte),
    (∀ k, k < s.inLen.toNat → inByte { s with inBytes := bytes } k = inByte s k) →
      exec i { s with inBytes := bytes } = onNext (fun t => { t with inBytes := bytes }) (exec i s)

/-- Each step takes exactly the host's first pending access and adds at most one value to what the host has read (log 1). -/
def Obligations.EachStepTakesOneAccess : Prop :=
  ∀ s t : State, step s = .next t → t.hostQueue = s.hostQueue.tail ∧
    (t.hostReads = s.hostReads ∨ ∃ v, t.hostReads = v :: s.hostReads)

/-- The host reaches the scratchpad through commands only (10_state.md R20): a step that changes it is the reset event or the
write to `CMD` of a command whose rule writes cells. -/
def Obligations.OnlyCommandsChangeTheScratchpad : Prop :=
  ∀ s t : State, step s = .next t → t.sp ≠ s.sp → ∃ rest, s.hostQueue = .reset :: rest ∨
    ∃ w i, s.hostQueue = .write 0x070 w :: rest ∧ decode w = .legal i ∧
      i.opcode ∈ ([0x30, 0x41, 0x42, 0x43, 0x60, 0x71, 0x02, 0x80] : List (BitVec 8))

/-! STATUS and errors. -/

/-- 60_exceptions.md R117: how every command ends. -/
def Obligations.CommandsEndWithTheStatusWrite : Prop :=
  ∀ (i : Instr) (s : State), ∃ t, exec i s = .next t ∧ t.status.done = true ∧ t.status.lastop = s.cmd.extractLsb' 0 8 ∧
    (t.status.err = true ∨ (t.status.err = false ∧ t.status.errcode = 0x00)) ∧
    (t.status.err = true →
      if i = .sum then
        t = { s with digest := Vector.replicate 4 0, status := { failed t.status.errcode s with dv := false } }
      else t = { s with status := failed t.status.errcode s }) ∧
    (t.status.dv = if i = .finalMux then true else if i = .cacheZero then false
      else if i = .sum then !t.status.err else s.status.dv)

/-- 60_exceptions.md R116 and R122: the error codes, what raises each, which is reported when several apply, and that what raises one leaves
`CMD` and every other register as it was. -/
def Obligations.ErrorCodesAndTheirCauses : Prop :=
  (∀ (i : Instr) (s : State), ∃ t, exec i s = .next t ∧
    t.status.errcode =
      (if i = .aesKeyexp 3 then 0x01
      else if i ∈ [Instr.mhlInit, .mhlStep, .mhlRun, .sum] ∧ s.variant ≠ 0 ∧ s.variant ≠ 1 ∧ s.variant ≠ 2 then 0x02
      else if i ∈ [Instr.mhlInit, .mhlRun, .sum] ∧ s.variant = 1 ∧ s.inLen.toNat < 43 then 0x03
      else if i ∈ [Instr.cellRead, .cellWrite, .mhlShuffle] ∧ 131072 ≤ s.cellIdx.toNat then 0x04
      else 0x00) ∧
    (t.status.errcode ≠ 0x00 → t = { s with status := t.status, digest := t.digest } ∧ (i ≠ .sum → t.digest = s.digest))) ∧
  (∀ (s : State) (w : Word) (rest : List HostAccess), s.hostFault = none → s.hostQueue = .write 0x070 w :: rest →
    illegalWord w → ∃ t, step s = .next t ∧ t.status.errcode = 0x01 ∧
      t = { s with hostQueue := rest, cmd := w, status := t.status }) ∧
  (∀ (s : State) (v : Word) (rest : List HostAccess), s.hostFault = none → s.hostQueue = .write 0x074 v :: rest →
    Config.inMax ≤ s.inLen.toNat → ∃ t, step s = .next t ∧ t.status.errcode = 0x05 ∧
      t = { s with hostQueue := rest, status := t.status }) ∧
  (∀ s t : State, step s = .next t → t.status.errcode = s.status.errcode ∨ t.status.errcode.toNat ≤ 5)

/-- 60_exceptions.md R119: the four commands that read `VARIANT` raise ERR_VARIANT on any value but 0, 1 and 2, and no other command
reads it. -/
def Obligations.OnlyFourCommandsReadVariant : Prop :=
  (∀ (i : Instr) (s : State), i ∈ [Instr.mhlInit, .mhlStep, .mhlRun, .sum] →
    s.variant ≠ 0 → s.variant ≠ 1 → s.variant ≠ 2 →
      ∃ t, exec i s = .next t ∧ t.status.err = true ∧ t.status.errcode = 0x02) ∧
  (∀ (i : Instr) (s : State) (v : Word), i ∉ [Instr.mhlInit, .mhlStep, .mhlRun, .sum] →
    exec i { s with variant := v } = onNext (fun t => { t with variant := v }) (exec i s))

/-- 10_state.md R40: no command reads `STATUS`: whatever it holds, the command does the same to everything else and reports the
same. -/
def Obligations.NoCommandReadsStatus : Prop :=
  ∀ (i : Instr) (s : State) (u : Status), ∃ t t', exec i s = .next t ∧ exec i { s with status := u } = .next t' ∧
    { t' with status := t.status } = t ∧ t'.status.done = t.status.done ∧ t'.status.err = t.status.err ∧
    t'.status.errcode = t.status.errcode ∧ t'.status.lastop = t.status.lastop

/-- What each command may write: every register, and the scratchpad, that 10_state.md's map and the commands' rules do not name
for it is as before. The commands are given by their opcode. -/
def Obligations.CommandsWriteOnlyTheirRegisters : Prop :=
  ∀ (i : Instr) (s t : State), exec i s = .next t →
    (i.opcode ∉ ([0x10, 0x11, 0x60, 0x02, 0x80] : List (BitVec 8)) → t.st = s.st) ∧
    (i.opcode ∉ ([0x30, 0x41, 0x42, 0x43, 0x60, 0x71, 0x02, 0x80] : List (BitVec 8)) → t.sp = s.sp) ∧
    (i.opcode ∉ ([0x20, 0x30, 0x60, 0x80, 0x02] : List (BitVec 8)) → t.rk = s.rk) ∧
    (i.opcode ∉ ([0x30, 0x60, 0x80, 0x02] : List (BitVec 8)) → t.blk = s.blk) ∧
    (i.opcode ∉ ([0x40, 0x41, 0x42, 0x80, 0x02] : List (BitVec 8)) → t.a = s.a ∧ t.b = s.b ∧ t.iter = s.iter) ∧
    (i.opcode ∉ ([0x41, 0x42, 0x80, 0x02] : List (BitVec 8)) →
      t.c = s.c ∧ t.p = s.p ∧ t.addr = s.addr ∧ t.addr2 = s.addr2) ∧
    (i.opcode ∉ ([0x41, 0x42, 0x50, 0x80, 0x02] : List (BitVec 8)) → t.c2 = s.c2) ∧
    (i.opcode ∉ ([0x40, 0x42, 0x80, 0x02] : List (BitVec 8)) → t.tweak = s.tweak) ∧
    (i.opcode ∉ ([0x40, 0x41, 0x42, 0x50, 0x80, 0x02] : List (BitVec 8)) → t.divr = s.divr ∧ t.sqrtr = s.sqrtr) ∧
    (i.opcode = 0x41 → s.variant ≠ 2 → t.divr = s.divr ∧ t.sqrtr = s.sqrtr) ∧
    (i.opcode = 0x50 → t.c2.lo = s.c2.lo) ∧
    (i.opcode ∉ ([0x21, 0x22, 0x70, 0x02] : List (BitVec 8)) → t.y = s.y) ∧
    (i.opcode ∉ ([0x61, 0x80, 0x02] : List (BitVec 8)) → t.sel = s.sel ∧ t.digest = s.digest ∧ t.status.dv = s.status.dv) ∧
    (i.opcode ≠ 0x01 → t.inLen = s.inLen) ∧
    t.inBytes = s.inBytes ∧ t.key = s.key ∧ t.x = s.x ∧ t.k = s.k ∧ t.cmd = s.cmd ∧ t.variant = s.variant ∧
    t.cellIdx = s.cellIdx ∧ t.status.busy = s.status.busy ∧ t.hostQueue = s.hostQueue ∧ t.hostReads = s.hostReads ∧
    t.hostFault = s.hostFault

/-- From reset, every command with an encoding succeeds: a zero-initialized Cache is immediately usable (20_memory.md R54). -/
def Obligations.EveryCommandIsUsableAfterReset : Prop :=
  ∀ i : Instr, i.wellFormed = true → ∃ t, exec i State.reset = .next t ∧ t.status.err = false ∧ t.status.errcode = 0x00

/-! Control commands (46_control.md). -/

/-- R108 and R109. -/
def Obligations.NopAndInClearResults : Prop :=
  ∀ s : State, exec .nop s = .next { s with status := ok s } ∧
    (ok { s with cmd := encode .nop }).lastop = 0x00 ∧
    exec .inClear s = .next { s with inLen := 0, status := ok s }

/-- R110: CACHE_ZERO. -/
def Obligations.CacheZeroResult : Prop :=
  ∀ s : State, ∃ t, exec .cacheZero s = .next t ∧ Memory.wf t.sp = true ∧
    (∀ n, cellRead t.sp n = { lo := 0, hi := 0 }) ∧ (∀ a, readByte t.sp a = 0) ∧ (∀ i : Fin 25, t.st[i.val] = 0) ∧
    (∀ i : Fin 40, t.rk[i.val] = 0) ∧ (∀ j : Fin 16, t.blk[j.val] = 0) ∧ (∀ i : Fin 4, t.digest[i.val] = 0) ∧
    t = { s with
      st := t.st, sp := t.sp, rk := t.rk, blk := t.blk, digest := t.digest
      a := { lo := 0, hi := 0 }, b := { lo := 0, hi := 0 }, c := { lo := 0, hi := 0 }, c2 := { lo := 0, hi := 0 }
      y := { lo := 0, hi := 0 }, p := { lo := 0, hi := 0 }, addr := 0, addr2 := 0, tweak := 0, divr := 0, sqrtr := 0
      iter := 0, sel := 0, status := { ok s with dv := false } }

/-- R111: CELL_READ, byte by byte, and its error. -/
def Obligations.CellReadResult : Prop :=
  ∀ s : State,
    (s.cellIdx.toNat < 131072 →
      ∃ y : Pair, exec .cellRead s = .next { s with y := y, status := ok s } ∧
        ∀ k, k < 16 → byteOf y k = readByte s.sp (16 * s.cellIdx.toNat + k)) ∧
    (131072 ≤ s.cellIdx.toNat → exec .cellRead s = .next { s with status := failed 0x04 s })

/-- R112: CELL_WRITE, byte by byte, its error, and that CELL_READ of the same cell then gives `Y = X`. -/
def Obligations.CellWriteResult : Prop :=
  ∀ s : State,
    (Memory.wf s.sp = true → s.cellIdx.toNat < 131072 →
      ∃ t, exec .cellWrite s = .next t ∧ t = { s with sp := t.sp, status := ok s } ∧ Memory.wf t.sp = true ∧
        (∀ a, readByte t.sp a =
          if 16 * s.cellIdx.toNat ≤ a ∧ a < 16 * s.cellIdx.toNat + 16 then byteOf s.x (a - 16 * s.cellIdx.toNat)
          else readByte s.sp a) ∧
        ∃ u, exec .cellRead t = .next u ∧ u.y = s.x) ∧
    (131072 ≤ s.cellIdx.toNat → exec .cellWrite s = .next { s with status := failed 0x04 s })

/-! Keccak (40_keccak.md). -/

/-- R70 and R71: the round constants are the LFSR's, and the rotation offsets are the walk's. -/
def Obligations.KeccakTablesMatchTheirDefinitions : Prop :=
  (∀ round, round < 24 → rcLane round = roundConstant round ∧ roundConstant round = roundConstantByLfsr round) ∧
  (∀ x y : Fin 5, rotationOffsets.getD (x.val + 5 * y.val) 0 = rotation x y) ∧ rotation 0 0 = 0 ∧
  (∀ t, t < 24 → rotation (walk t).1 (walk t).2 = (t + 1) * (t + 2) / 2 % 64)

/-- R73, with R69: KECCAK_PERMUTE. -/
def Obligations.KeccakPermuteResult : Prop :=
  ∀ s : State, ∃ v, KeccakF s.st v ∧ exec .keccakPermute s = .next { s with st := v, status := ok s }

/-- R72: KECCAK_ABSORB, the padded input absorbed block by block from the zero state. -/
def Obligations.KeccakAbsorbResult : Prop :=
  ∀ s : State, ∃ z : Nat → Vector Word 25,
    (∀ i : Fin 25, (z 0)[i.val] = 0) ∧
    (∀ blk, blk ≤ s.inLen.toNat / 136 → AbsorbBlock s blk (z blk) (z (blk + 1))) ∧
    exec .keccakAbsorb s = .next { s with st := z (s.inLen.toNat / 136 + 1), status := ok s }

/-! CryptoNight-AES (41_aes.md). -/

/-- R77: the S-box is the affine image of the inverse, and SubBytes applies it to each byte. -/
def Obligations.SboxIsTheAffineInverse : Prop :=
  (∀ b : Byte, ∃ q : Byte, (b = 0 → q = 0) ∧ (b ≠ 0 → gfMul b q = 1) ∧ sbox b = affine q) ∧
  (∀ (s : Block) (i : Fin 16), (subBytes s)[i.val] = sbox s[i.val])

/-- R84, with R83, R82 and R63: AES_KEYEXP from each key source, and KSRC 3. -/
def Obligations.AesKeyexpResult : Prop :=
  ∀ s : State,
    (∃ rk, KeySchedule (keyRegister s) rk ∧ exec (.aesKeyexp 0) s = .next { s with rk := rk, status := ok s }) ∧
    (∃ rk, KeySchedule (keyStLo s) rk ∧ exec (.aesKeyexp 1) s = .next { s with rk := rk, status := ok s }) ∧
    (∃ rk, KeySchedule (keyStHi s) rk ∧ exec (.aesKeyexp 2) s = .next { s with rk := rk, status := ok s }) ∧
    exec (.aesKeyexp 3) s = .next { s with status := failed 0x01 s }

/-- R85, with R75 to R80: AES_ROUND. -/
def Obligations.AesRoundResult : Prop :=
  ∀ s : State, ∃ y, AesRound s.x s.k y ∧ exec .aesRound s = .next { s with y := y, status := ok s }

/-- R81: AES_ROUNDS applies the round ten times, with the ten round keys in order. -/
def Obligations.AesRoundsResult : Prop :=
  ∀ s : State, ∃ y, AesRounds s.rk s.x y ∧ exec .aesRounds s = .next { s with y := y, status := ok s }

/-- AES_ROUNDS equals ten AES_ROUND commands with `K` set to round keys 0 to 9 in turn and `X` to the previous `Y` (R86 corner case
2, an inference of the spec). -/
def Obligations.AesRoundsEqualsTenAesRounds : Prop :=
  ∀ s : State, ∃ u : Nat → State,
    exec .aesRound { s with k := roundKeyOf s.rk 0 } = .next (u 0) ∧
    (∀ r : Fin 9, exec .aesRound { u r.val with x := (u r.val).y, k := roundKeyOf s.rk ⟨r.val + 1, by omega⟩ }
      = .next (u (r.val + 1))) ∧
    exec .aesRounds s = .next { s with y := (u 9).y, status := ok s }

/-! Scratchpad initialisation and finalisation. -/

/-- 42_scratchpad_init.md R88: SP_INIT. `b ch j` is sub-block `j` of the blocks buffer before pass `ch`. -/
def Obligations.SpInitResult : Prop :=
  ∀ s : State, Memory.wf s.sp = true → ∃ (t : State) (b : Nat → Fin 8 → Pair),
    exec .spInit s = .next t ∧ t = { s with rk := t.rk, blk := t.blk, sp := t.sp, status := ok s } ∧ Memory.wf t.sp = true ∧
    KeySchedule (keyStLo s) t.rk ∧
    (∀ j : Fin 8, b 0 j = { lo := s.st[8 + 2 * j.val], hi := s.st[8 + 2 * j.val + 1] }) ∧
    (∀ ch, ch < 16384 → ∀ j, AesRounds t.rk (b ch j) (b (ch + 1) j) ∧ cellRead t.sp (chunkCellOf ch j) = b (ch + 1) j) ∧
    (∀ j : Fin 8, t.blk[2 * j.val] = (b 16384 j).lo ∧ t.blk[2 * j.val + 1] = (b 16384 j).hi)

/-- SP_INIT's scratchpad, round keys and blocks buffer are a function of `ST` alone (42_scratchpad_init.md R88 corner case 4, an inference
of the spec). -/
def Obligations.SpInitDependsOnStAlone : Prop :=
  ∀ s s' : State, Memory.wf s.sp = true → Memory.wf s'.sp = true → s.st = s'.st →
    ∃ t t', exec .spInit s = .next t ∧ exec .spInit s' = .next t' ∧ t.sp = t'.sp ∧ t.rk = t'.rk ∧ t.blk = t'.blk

/-- 45_finalize_mux.md R104: FINALIZE. `b ch j` is sub-block `j` of the blocks buffer before pass `ch`. -/
def Obligations.FinalizeResult : Prop :=
  ∀ s : State, Memory.wf s.sp = true → ∃ (t : State) (b : Nat → Fin 8 → Pair) (v : Vector Word 25),
    exec .finalize s = .next t ∧ t = { s with st := t.st, rk := t.rk, blk := t.blk, sp := t.sp, status := ok s } ∧
    Memory.wf t.sp = true ∧ KeySchedule (keyStHi s) t.rk ∧
    (∀ j : Fin 8, b 0 j = { lo := s.st[8 + 2 * j.val], hi := s.st[8 + 2 * j.val + 1] }) ∧
    (∀ ch, ch < 16384 → ∀ j,
      AesRounds t.rk ((cellRead s.sp (chunkCellOf ch j)).xor (b ch j)) (b (ch + 1) j) ∧
      cellRead t.sp (chunkCellOf ch j) = b (ch + 1) j) ∧
    (∀ j : Fin 8, t.blk[2 * j.val] = (b 16384 j).lo ∧ t.blk[2 * j.val + 1] = (b 16384 j).hi) ∧
    (∀ i : Fin 25, v[i.val] = if h : 8 ≤ i.val ∧ i.val < 24 then t.blk[i.val - 8] else s.st[i.val]) ∧ KeccakF v t.st

/-- 45_finalize_mux.md R106: FINAL_MUX, for the 200 bytes of `ST` and the 32 bytes of the digest. -/
def Obligations.FinalMuxResult : Prop :=
  ∀ (s : State) (m : Vector Byte 200), (∀ i : Fin 200, m[i.val] = stByte s i) →
    ∃ digest : Vector Word 4,
      exec .finalMux s = .next { s with
        sel := BitVec.ofNat 2 (s.st[0].toNat % 4), digest := digest, status := { ok s with dv := true } } ∧
      ∀ i : Fin 32, digest[i.val / 8].extractLsb' (8 * (i.val % 8)) 8 =
        (Config.finalist ⟨s.st[0].toNat % 4, Nat.mod_lt _ (by decide)⟩ m)[i.val]

/-! The memory-hard loop (43_memory_hard_loop.md). -/

/-- R90: MHL_INIT, its checks in their order. -/
def Obligations.MhlInitResult : Prop :=
  ∀ s : State, exec .mhlInit s = .next
    (if s.variant ≠ 0 ∧ s.variant ≠ 1 ∧ s.variant ≠ 2 then { s with status := failed 0x02 s }
    else if s.variant = 1 ∧ s.inLen.toNat < 43 then { s with status := failed 0x03 s }
    else { s with
      a := { lo := s.st[0] ^^^ s.st[4], hi := s.st[1] ^^^ s.st[5] }
      b := { lo := s.st[2] ^^^ s.st[6], hi := s.st[3] ^^^ s.st[7] }
      tweak := if s.variant = 1 then s.st[24] ^^^ word (fun k => inByte s (35 + k)) else 0
      divr := 0, sqrtr := 0, iter := 0, status := ok s })

/-- R96, with R92, R95, R100: MHL_STEP in each variant, on the scratchpad's cells, and its error. -/
def Obligations.MhlStepResult : Prop :=
  ∀ s : State,
    (Memory.wf s.sp = true → s.variant = 0 ∨ s.variant = 1 ∨ s.variant = 2 →
      ∃ t, exec .mhlStep s = .next t ∧ Memory.wf t.sp = true ∧ Iteration s t (cellRead s.sp) (cellRead t.sp)) ∧
    (s.variant ≠ 0 → s.variant ≠ 1 → s.variant ≠ 2 → exec .mhlStep s = .next { s with status := failed 0x02 s })

/-- Which bytes of the scratchpad MHL_STEP may change: those of the cells `ADDR` and `ADDR2` that it leaves, and in variant 2 those of
the four-cell group of each. -/
def Obligations.MhlStepMemoryFrame : Prop :=
  ∀ s t : State, Memory.wf s.sp = true → s.variant = 0 ∨ s.variant = 1 ∨ s.variant = 2 → exec .mhlStep s = .next t →
    t.addr = toAddr s.a ∧ t.addr2 = toAddr t.b ∧
    ∀ a, (if s.variant = 2 then a / 64 ≠ t.addr.toNat / 4 ∧ a / 64 ≠ t.addr2.toNat / 4
        else a / 16 ≠ t.addr.toNat ∧ a / 16 ≠ t.addr2.toNat) →
      readByte t.sp a = readByte s.sp a

/-- MHL_RUN is MHL_INIT and then 524,288 MHL_STEPs (R97 corner case 2, an inference of the spec); `ITER` ends at 524,288; where
MHL_INIT raises an error MHL_RUN raises the same. -/
def Obligations.MhlRunIsInitAndSteps : Prop :=
  ∀ s : State,
    (hashable s → ∃ u : Nat → State, exec .mhlInit s = .next (u 0) ∧
      (∀ k, k < 524288 → exec .mhlStep (u k) = .next (u (k + 1))) ∧
      exec .mhlRun s = .next (u 524288) ∧ (u 524288).iter = 524288) ∧
    (¬ hashable s → exec .mhlRun s = exec .mhlInit s)

/-- R98, with R95: MHL_SHUFFLE on the cells, and its error. -/
def Obligations.MhlShuffleResult : Prop :=
  ∀ s : State,
    (Memory.wf s.sp = true → s.cellIdx.toNat < 131072 →
      ∃ t, exec .mhlShuffle s = .next t ∧ t = { s with sp := t.sp, status := ok s } ∧ Memory.wf t.sp = true ∧
        Shuffle v2ShufflePerm (BitVec.ofNat 17 s.cellIdx.toNat) (cellRead s.sp) (cellRead t.sp)) ∧
    (131072 ≤ s.cellIdx.toNat → exec .mhlShuffle s = .next { s with status := failed 0x04 s })

/-- The shuffle table is a permutation that keeps R94's constraint, every table that does so is one the parameter can be, and
the default table is one of them. -/
def Obligations.ShuffleTablesAreTheLegalOnes : Prop :=
  let legal := fun perm : Fin 24 → Fin 24 => Function.Bijective perm ∧
    ∀ d : Fin 24, (d.val < 8 → 16 ≤ (perm d).val) ∧ (8 ≤ d.val ∧ d.val < 16 → (perm d).val < 8) ∧
      (16 ≤ d.val → 8 ≤ (perm d).val ∧ (perm d).val < 16)
  legal v2ShufflePerm ∧ (∀ perm, legal perm ↔ ∃ lanes, perm = shuffleTable lanes) ∧ legal defaultShufflePerm

/-- Under the default table three shuffles at one index restore the scratchpad (R98 corner case 2, an inference of the spec). -/
def Obligations.ThreeDefaultShufflesRestore : Prop :=
  ∀ (n : CellIndex) (m : Memory), Memory.wf m = true →
    shuffle defaultShufflePerm n (shuffle defaultShufflePerm n (shuffle defaultShufflePerm n m)) = m

/-- R91's table of `tprime` (an inference of the spec): by bits 5, 4 and 0 of `t`. -/
def Obligations.TprimeTable : Prop :=
  ∀ t : Word, tprime t =
    match t.getLsbD 5, t.getLsbD 4, t.getLsbD 0 with
    | false, false, false => 0x10
    | false, false, true => 0x00
    | false, true, false => 0x30
    | false, true, true => 0x00
    | true, false, false => 0x10
    | true, false, true => 0x10
    | true, true, false => 0x30
    | true, true, true => 0x10

/-- After an iteration `B` is `C`, the AES output; the cell at `ADDR2` holds the sum stored at step 11, carrying `TWEAK` in variant 1;
and `A` is that sum, without the tweak, XORed with `C2`, so another `TWEAK` changes nothing of `A`, `B`, `C2` and `P` (R93 (1) and (5),
inferences of the spec). -/
def Obligations.StoredTweakDoesNotReachA : Prop :=
  ∀ s : State, Memory.wf s.sp = true → s.variant = 0 ∨ s.variant = 1 ∨ s.variant = 2 →
    ∃ t, exec .mhlStep s = .next t ∧ t.b = t.c ∧
      (cellRead t.sp t.addr2).lo = t.a.lo ^^^ t.c2.lo ∧
      (cellRead t.sp t.addr2).hi = t.a.hi ^^^ t.c2.hi ^^^ (if s.variant = 1 then s.tweak else 0) ∧
      t.a.lo = (s.a.lo + t.p.hi) ^^^ t.c2.lo ∧ t.a.hi = (s.a.hi + t.p.lo) ^^^ t.c2.hi ∧
      ∀ w : Word, ∃ u, exec .mhlStep { s with tweak := w } = .next u ∧ u.a = t.a ∧ u.b = t.b ∧ u.c2 = t.c2 ∧ u.p = t.p

/-- What the commands do not read of the registers that key another unit's rounds (41_aes.md R87, an inference of the spec): the loop reads
neither `RK`, `BLK` nor `K`; AES_ROUND neither `RK`, `BLK` nor `A`; AES_KEYEXP, AES_ROUNDS, SP_INIT and FINALIZE neither `K` nor `A`; and
a SUM whose checks pass none of the four as it finds them. From what each unit does take its keys is said by its result (AesKeyexpResult, AesRoundResult,
AesRoundsResult, SpInitResult, FinalizeResult, MhlStepResult). -/
def Obligations.OtherKeyRegistersAreNotRead : Prop :=
  (∀ (s : State) (rk : Vector RkWord 40) (blk : Vector Word 16) (k : Pair), ∀ i ∈ [Instr.mhlInit, .mhlStep, .mhlRun],
    exec i { s with rk := rk, blk := blk, k := k } = onNext (fun t => { t with rk := rk, blk := blk, k := k }) (exec i s)) ∧
  (∀ (s : State) (rk : Vector RkWord 40) (blk : Vector Word 16) (a : Pair),
    exec .aesRound { s with rk := rk, blk := blk, a := a }
      = onNext (fun t => { t with rk := rk, blk := blk, a := a }) (exec .aesRound s)) ∧
  (∀ (s : State) (k a : Pair), ∀ i ∈ [Instr.aesKeyexp 0, .aesKeyexp 1, .aesKeyexp 2, .aesRounds, .spInit, .finalize],
    exec i { s with k := k, a := a } = onNext (fun t => { t with k := k, a := a }) (exec i s)) ∧
  (∀ (s : State) (rk : Vector RkWord 40) (blk : Vector Word 16) (k a : Pair), hashable s →
    exec .sum { s with rk := rk, blk := blk, k := k, a := a } = onNext (fun t => { t with k := k }) (exec .sum s))

/-! The division and square root (44_isqrt_divmod.md). -/

/-- R103, with R100: V2_DIVSQRT. -/
def Obligations.V2DivsqrtResult : Prop :=
  ∀ s : State, exec .v2Divsqrt s = .next { s with
    c2 := { lo := s.c2.lo, hi := s.c2.hi ^^^ s.divr ^^^ s.sqrtr }
    divr := divOf s.b.lo s.b.hi
    sqrtr := rootOf s.b.lo s.b.hi
    status := ok s }

/-- `SQRTR'` is the integer square root of `m`, and is below 2^24 (R102, an inference of the spec). -/
def Obligations.RootIsTheIntegerSquareRoot : Prop :=
  ∀ s : State, ∃ t, exec .v2Divsqrt s = .next t ∧
    let m := rootArgOf s.b.lo s.b.hi
    m < 2 ^ 48 ∧ t.sqrtr.toNat * t.sqrtr.toNat ≤ m ∧ m < (t.sqrtr.toNat + 1) * (t.sqrtr.toNat + 1) ∧ t.sqrtr.toNat < 2 ^ 24

/-- 44_isqrt_divmod.md R99: the three binary64 primitives. -/
def Obligations.Binary64PrimitivesRoundToNearest : Prop :=
  (∀ n : Nat, n < 2 ^ 64 → f64Nearest (n : ℝ) (f64OfNat n)) ∧
  (∀ n : Nat, n < 2 ^ 53 → f64Value (f64OfNat n) = n) ∧
  (∀ x : Binary64, f64Canonical x → f64Nearest (Real.sqrt (f64Value x)) (f64Sqrt x)) ∧
  (∀ x : Binary64, f64Canonical x → f64Value x < 2 ^ 64 → (f64Trunc x).toNat = ⌊f64Value x⌋₊)

/-- The division cannot fail, and what of its results is kept (R101, an inference of the spec). -/
def Obligations.DivisionCornerCases : Prop :=
  ∀ blo bhi : Word,
    0x80000001 ≤ divisorOf blo ∧ divisorOf blo ≤ 0xFFFFFFFF ∧ (v2Divisor blo).toNat = divisorOf blo ∧
    bhi.toNat / divisorOf blo ≤ 0x1FFFFFFFC ∧
    (v2Division blo bhi).toNat % 2 ^ 32 = bhi.toNat / divisorOf blo % 2 ^ 32 ∧
    (v2Division blo bhi).toNat / 2 ^ 32 = bhi.toNat % divisorOf blo ∧
    (bhi.toNat < divisorOf blo → (v2Division blo bhi).toNat = 2 ^ 32 * bhi.toNat)

/-! The scratchpad's views (20_memory.md). -/

/-- `to_addr` (R46): bits 20:4 of the low lane, and nothing else; twice it is the word-index form. -/
def Obligations.CellAddressing : Prop :=
  ∀ v : Pair, (toAddr v).toNat = v.lo.toNat / 16 % 131072 ∧ ((v.lo &&& 0x1FFFF0) >>> 3).toNat = 2 * (toAddr v).toNat

/-- Every view of a cell is a view of its sixteen bytes (R43 to R45, R50). -/
def Obligations.CellViewsAreOneStorage : Prop :=
  ∀ (m : Memory) (n : CellIndex),
    (∀ k, k < 16 → byteOf (cellRead m n) k = readByte m (16 * n.toNat + k)) ∧
    (∀ h, h < 8 → (halfOf (cellRead m n) h).toNat = memRead m (16 * n.toNat + 2 * h) 2) ∧
    (cellRead m n).lo.toNat = memRead m (8 * (2 * n.toNat)) 8 ∧
    (cellRead m n).hi.toNat = memRead m (8 * (2 * n.toNat + 1)) 8

/-! SUM (46_control.md). -/

/-- R113: SUM is the five commands in order, its checks first; a SUM that fails clears `DIGEST` and DV. -/
def Obligations.SumResult : Prop :=
  ∀ s : State,
    (hashable s → ∃ s1 s2 s3 s4 t, exec .keccakAbsorb s = .next s1 ∧ exec .spInit s1 = .next s2 ∧ exec .mhlRun s2 = .next s3 ∧
      exec .finalize s3 = .next s4 ∧ exec .finalMux s4 = .next t ∧ exec .sum s = .next t) ∧
    (s.variant ≠ 0 ∧ s.variant ≠ 1 ∧ s.variant ≠ 2 → exec .sum s = .next { s with
      digest := Vector.replicate 4 0, status := { failed 0x02 s with dv := false } }) ∧
    (s.variant = 1 → s.inLen.toNat < 43 → exec .sum s = .next { s with
      digest := Vector.replicate 4 0, status := { failed 0x03 s with dv := false } })

/-- The result of SUM depends on nothing but `IN[0 .. IN_LEN-1]`, `VARIANT` and the parameters (R114 (1), an inference of the spec): two
engines that agree on these show the same digest, selector and Cache afterwards, whatever ran on them before. -/
def Obligations.SumDependsOnInputAndVariantAlone : Prop :=
  ∀ s s' : State, Memory.wf s.sp = true → Memory.wf s'.sp = true → hashable s → s.variant = s'.variant → s.inLen = s'.inLen →
    (∀ k, k < s.inLen.toNat → inByte s k = inByte s' k) →
      ∃ t t', exec .sum s = .next t ∧ exec .sum s' = .next t' ∧ t.digest = t'.digest ∧ t.sel = t'.sel ∧ t.st = t'.st ∧
        t.sp = t'.sp ∧ t.rk = t'.rk ∧ t.blk = t'.blk ∧ t.a = t'.a ∧ t.b = t'.b ∧ t.c = t'.c ∧ t.c2 = t'.c2 ∧ t.p = t'.p ∧
        t.addr = t'.addr ∧ t.addr2 = t'.addr2 ∧ t.tweak = t'.tweak ∧ t.divr = t'.divr ∧ t.sqrtr = t'.sqrtr ∧ t.iter = t'.iter

/-! After CACHE_ZERO (20_memory.md R54). -/

/-- After CACHE_ZERO, from any state, every command with an encoding succeeds, where the host's operands, which CACHE_ZERO keeps, meet the
checks of that command (R54, an inference of the spec; 60_exceptions.md R119 to R121). -/
def Obligations.EveryCommandIsUsableAfterCacheZero : Prop :=
  ∀ (i : Instr) (s : State), i.wellFormed = true →
    (i ∈ [Instr.mhlInit, .mhlStep, .mhlRun, .sum] → s.variant = 0 ∨ s.variant = 1 ∨ s.variant = 2) →
    (i ∈ [Instr.mhlInit, .mhlRun, .sum] → s.variant = 1 → 43 ≤ s.inLen.toNat) →
    (i ∈ [Instr.cellRead, .cellWrite, .mhlShuffle] → s.cellIdx.toNat < 131072) →
      ∃ t u, exec .cacheZero s = .next t ∧ exec i t = .next u ∧ u.status.err = false ∧ u.status.errcode = 0x00
end

