-- ==== Sys2Proof/Laws/Memory.lean ====
section
/-! SUPPORT. The laws of the scratchpad: the canonical form is kept, a read after a write, and equal contents are equal lists. -/

namespace Sys2Proof.Machine

/-! Loops. -/

@[simp] theorem loopUp_zero {α : Type} (f : Nat → α → α) (s : α) : loopUp f 0 s = s := by rw [loopUp]

theorem loopUp_succ {α : Type} (f : Nat → α → α) (n : Nat) (s : α) : loopUp f (n + 1) s = f n (loopUp f n s) := by
  rw [loopUp]

/-- What holds at the start and is kept by every pass holds at the end. -/
theorem loopUp_induct {α : Type} (P : Nat → α → Prop) (f : Nat → α → α) (n : Nat) (s : α)
    (start : P 0 s) (pass : ∀ k t, k < n → P k t → P (k + 1) (f k t)) : P n (loopUp f n s) := by
  induction n with
  | zero => rwa [loopUp_zero]
  | succ n ih =>
    rw [loopUp_succ]
    exact pass n _ (Nat.lt_succ_self n) (ih fun k t hk => pass k t (Nat.lt_succ_of_lt hk))

/-- A view that no pass changes is unchanged by the loop. -/
theorem loopUp_keeps {α β : Type} (g : α → β) (f : Nat → α → α) (n : Nat) (s : α)
    (pass : ∀ k t, g (f k t) = g t) : g (loopUp f n s) = g s :=
  loopUp_induct (fun _ t => g t = g s) f n s rfl fun k t _ h => (pass k t).trans h

/-! Bytes. -/

theorem wfFrom_mono {lo lo' : Nat} {m : Memory} (h : lo' ≤ lo) (hm : Memory.wfFrom lo m = true) :
    Memory.wfFrom lo' m = true := by
  cases m with
  | nil => rfl
  | cons e rest =>
    obtain ⟨a, v⟩ := e
    simp only [Memory.wfFrom, Bool.and_eq_true, decide_eq_true_eq] at hm ⊢
    exact ⟨⟨⟨h.trans hm.1.1.1, hm.1.1.2⟩, hm.1.2⟩, hm.2⟩

/-- Below its first address a canonical memory reads as unlisted. -/
theorem readByte_below {lo a : Nat} {m : Memory} (hm : Memory.wfFrom lo m = true) (ha : a < lo) :
    readByte m a = unlistedByte := by
  cases m with
  | nil => rfl
  | cons e rest =>
    obtain ⟨k, v⟩ := e
    simp only [Memory.wfFrom, Bool.and_eq_true, decide_eq_true_eq] at hm
    have : a < k := by omega
    simp [readByte, this]

/-- Writing a byte of the scratchpad keeps the canonical form. -/
theorem writeByte_wfFrom {lo a : Nat} {m : Memory} (v : Byte) (hm : Memory.wfFrom lo m = true) (hlo : lo ≤ a)
    (ha : a < scratchpadBytes) : Memory.wfFrom lo (writeByte m a v) = true := by
  induction m generalizing lo with
  | nil =>
    by_cases hv : v = unlistedByte <;> simp [writeByte, Memory.wfFrom, hv, hlo, ha]
  | cons e rest ih =>
    obtain ⟨k, w⟩ := e
    have hm' := hm
    simp only [Memory.wfFrom, Bool.and_eq_true, decide_eq_true_eq] at hm'
    obtain ⟨⟨⟨hk, hks⟩, hw⟩, hr⟩ := hm'
    by_cases h1 : a < k
    · by_cases hv : v = unlistedByte
      · simp [writeByte, h1, hv, hm]
      · have : a + 1 ≤ k := h1
        simp [writeByte, h1, hv, Memory.wfFrom, hlo, ha, hks, hr, this]
        simpa using hw
    · by_cases h2 : a = k
      · subst h2
        by_cases hv : v = unlistedByte
        · simpa [writeByte, hv] using wfFrom_mono (by omega) hr
        · simp [writeByte, hv, Memory.wfFrom, hlo, ha, hr]
      · have : k + 1 ≤ a := by omega
        simp only [writeByte, h1, h2, if_false, Memory.wfFrom, Bool.and_eq_true, decide_eq_true_eq]
        exact ⟨⟨⟨hk, hks⟩, hw⟩, ih hr this⟩

/-- A byte just written reads back. -/
theorem readByte_writeByte_same {lo a : Nat} {m : Memory} (v : Byte) (hm : Memory.wfFrom lo m = true) :
    readByte (writeByte m a v) a = v := by
  induction m generalizing lo with
  | nil => by_cases hv : v = unlistedByte <;> simp [writeByte, readByte, hv]
  | cons e rest ih =>
    obtain ⟨k, w⟩ := e
    simp only [Memory.wfFrom, Bool.and_eq_true, decide_eq_true_eq] at hm
    by_cases h1 : a < k
    · by_cases hv : v = unlistedByte <;> simp [writeByte, readByte, h1, hv]
    · by_cases h2 : a = k
      · subst h2
        by_cases hv : v = unlistedByte
        · simp [writeByte, hv, readByte_below hm.2 (Nat.lt_succ_self a)]
        · simp [writeByte, readByte, hv]
      · simp [writeByte, readByte, h1, h2, ih hm.2]

/-- Writing a byte leaves every other byte. -/
theorem readByte_writeByte_other {lo a b : Nat} {m : Memory} (v : Byte) (hm : Memory.wfFrom lo m = true) (hne : b ≠ a) :
    readByte (writeByte m a v) b = readByte m b := by
  induction m generalizing lo with
  | nil =>
    by_cases hv : v = unlistedByte
    · simp [writeByte, readByte, hv]
    · simp [writeByte, readByte, hv, hne]
  | cons e rest ih =>
    obtain ⟨k, w⟩ := e
    simp only [Memory.wfFrom, Bool.and_eq_true, decide_eq_true_eq] at hm
    by_cases h1 : a < k
    · by_cases hv : v = unlistedByte
      · simp [writeByte, readByte, h1, hv]
      · by_cases h3 : b < a
        · have : b < k := by omega
          simp [writeByte, readByte, h1, hv, h3, this]
        · simp [writeByte, readByte, h1, hv, h3, hne]
    · by_cases h2 : a = k
      · subst h2
        by_cases hv : v = unlistedByte
        · by_cases h3 : b < a
          · have := readByte_below hm.2 (show b < a + 1 by omega)
            simp [writeByte, readByte, hv, h3, this]
          · simp [writeByte, readByte, hv, h3, hne]
        · simp [writeByte, readByte, hv, hne]
      · by_cases h3 : b < k
        · simp [writeByte, readByte, h1, h2, h3]
        · by_cases h4 : b = k
          · simp [writeByte, readByte, h1, h2, h4]
          · simp [writeByte, readByte, h1, h2, h3, h4, ih hm.2]

/-- Two canonical memories with the same bytes are the same list. -/
theorem memory_ext {lo : Nat} {m m' : Memory} (hm : Memory.wfFrom lo m = true) (hm' : Memory.wfFrom lo m' = true)
    (h : ∀ a, readByte m a = readByte m' a) : m = m' := by
  induction m generalizing lo m' with
  | nil =>
    cases m' with
    | nil => rfl
    | cons e rest =>
      obtain ⟨k, w⟩ := e
      simp only [Memory.wfFrom, Bool.and_eq_true, decide_eq_true_eq, bne_iff_ne] at hm'
      exact absurd (by simpa [readByte] using (h k).symm) hm'.1.2
  | cons e rest ih =>
    obtain ⟨k, w⟩ := e
    simp only [Memory.wfFrom, Bool.and_eq_true, decide_eq_true_eq, bne_iff_ne] at hm
    cases m' with
    | nil => exact absurd (by simpa [readByte] using h k) hm.1.2
    | cons e' rest' =>
      obtain ⟨k', w'⟩ := e'
      simp only [Memory.wfFrom, Bool.and_eq_true, decide_eq_true_eq, bne_iff_ne] at hm'
      have hk := h k
      have hk' := h k'
      simp only [readByte, lt_irrefl, if_false, if_true] at hk hk'
      have heq : k = k' := by
        rcases Nat.lt_trichotomy k k' with hlt | heq | hgt
        · simp only [hlt, if_true] at hk
          exact absurd hk hm.1.2
        · exact heq
        · simp only [hgt, if_true] at hk'
          exact absurd hk'.symm hm'.1.2
      subst heq
      simp only [lt_irrefl, if_false, if_true] at hk
      subst hk
      congr 1
      refine ih hm.2 hm'.2 fun a => ?_
      by_cases ha : a < k + 1
      · rw [readByte_below hm.2 ha, readByte_below hm'.2 ha]
      · have h1 : ¬a < k := by omega
        have h2 : a ≠ k := by omega
        simpa [readByte, h1, h2] using h a

/-! `MemRead` and `MemWrite`. -/

theorem memWrite_succ (m : Memory) (addr n v : Nat) :
    memWrite m addr (n + 1) v = writeByte (memWrite m addr n v) (addr + n) (BitVec.ofNat 8 (v / 256 ^ n)) := by
  rw [memWrite, loopUp_succ, memWrite]

@[simp] theorem memWrite_zero (m : Memory) (addr v : Nat) : memWrite m addr 0 v = m := by rw [memWrite, loopUp_zero]

/-- `MemWrite` inside the scratchpad keeps the canonical form. -/
theorem memWrite_wf {m : Memory} {addr n : Nat} (v : Nat) (hm : Memory.wf m = true) (ha : addr + n ≤ scratchpadBytes) :
    Memory.wf (memWrite m addr n v) = true := by
  induction n with
  | zero => rwa [memWrite_zero]
  | succ n ih =>
    rw [memWrite_succ]
    exact writeByte_wfFrom _ (ih (by omega)) (Nat.zero_le _) (by omega)

/-- Everything `MemWrite` does to a byte (20_memory.md R43). -/
theorem readByte_memWrite {m : Memory} {addr n : Nat} (v b : Nat) (hm : Memory.wf m = true)
    (ha : addr + n ≤ scratchpadBytes) :
    readByte (memWrite m addr n v) b =
      if addr ≤ b ∧ b < addr + n then BitVec.ofNat 8 (v / 256 ^ (b - addr)) else readByte m b := by
  induction n with
  | zero => simp [show ¬(addr ≤ b ∧ b < addr) by omega]
  | succ n ih =>
    have hw := memWrite_wf v hm (show addr + n ≤ scratchpadBytes by omega)
    rw [memWrite_succ]
    by_cases hb : b = addr + n
    · subst hb
      rw [readByte_writeByte_same _ hw]
      simp
    · rw [readByte_writeByte_other _ hw hb, ih (by omega)]
      by_cases h1 : addr ≤ b ∧ b < addr + n
      · rw [if_pos h1, if_pos (by omega)]
      · rw [if_neg h1, if_neg (by omega)]

/-- `MemRead` depends on nothing but the bytes it names. -/
theorem memRead_congr {m m' : Memory} {addr n : Nat} (h : ∀ k, k < n → readByte m (addr + k) = readByte m' (addr + k)) :
    memRead m addr n = memRead m' addr n := by
  induction n with
  | zero => rfl
  | succ n ih =>
    simp only [memRead]
    rw [ih fun k hk => h k (by omega), h n (by omega)]

theorem memRead_lt (m : Memory) (addr n : Nat) : memRead m addr n < 256 ^ n := by
  induction n with
  | zero => simp [memRead]
  | succ n ih =>
    have hb : (readByte m (addr + n)).toNat < 256 := (readByte m (addr + n)).isLt
    have h1 : 256 ^ n * (readByte m (addr + n)).toNat ≤ 256 ^ n * 255 := Nat.mul_le_mul_left _ (by omega)
    simp only [memRead, Nat.pow_succ]
    omega

/-- `MemRead` of bytes that hold the little-endian bytes of `v` gives `v` modulo 256^n. -/
theorem memRead_of_bytes {m : Memory} {addr n : Nat} (v : Nat)
    (h : ∀ k, k < n → readByte m (addr + k) = BitVec.ofNat 8 (v / 256 ^ k)) : memRead m addr n = v % 256 ^ n := by
  induction n with
  | zero => simp [memRead, Nat.mod_one]
  | succ n ih =>
    simp only [memRead]
    rw [ih fun k hk => h k (by omega), h n (by omega), Nat.mod_pow_succ, BitVec.toNat_ofNat]

theorem memRead_memWrite_same {m : Memory} {addr n : Nat} (v : Nat) (hm : Memory.wf m = true)
    (ha : addr + n ≤ scratchpadBytes) : memRead (memWrite m addr n v) addr n = v % 256 ^ n := by
  refine memRead_of_bytes v fun k hk => ?_
  rw [readByte_memWrite _ _ hm ha, if_pos (by omega)]
  simp

theorem memRead_memWrite_other {m : Memory} {addr n addr' n' : Nat} (v : Nat) (hm : Memory.wf m = true)
    (ha : addr + n ≤ scratchpadBytes) (hd : addr' + n' ≤ addr ∨ addr + n ≤ addr') :
    memRead (memWrite m addr n v) addr' n' = memRead m addr' n' := by
  refine memRead_congr fun k hk => ?_
  rw [readByte_memWrite _ _ hm ha, if_neg (by omega)]

/-! Cells. -/

theorem cellIndex_bound (n : CellIndex) : 16 * n.toNat + 16 ≤ scratchpadBytes := by
  have := n.isLt
  simp only [scratchpadBytes]
  omega

/-- `CellWrite` keeps the canonical form. -/
theorem cellWrite_wf {m : Memory} (n : CellIndex) (v : Pair) (hm : Memory.wf m = true) :
    Memory.wf (cellWrite m n v) = true := by
  have := cellIndex_bound n
  rw [cellWrite]
  exact memWrite_wf _ (memWrite_wf _ hm (by omega)) (by omega)

/-- A lane is its own value modulo 256^8. -/
theorem ofNat_mod_lane (w : Word) : BitVec.ofNat 64 (w.toNat % 256 ^ 8) = w := by
  have h : w.toNat % 256 ^ 8 = w.toNat := Nat.mod_eq_of_lt (lt_of_lt_of_eq w.isLt (by norm_num))
  rw [h, BitVec.ofNat_toNat, BitVec.setWidth_eq]

/-- A cell just written reads back (20_memory.md R45). -/
theorem cellRead_cellWrite_same {m : Memory} (n : CellIndex) (v : Pair) (hm : Memory.wf m = true) :
    cellRead (cellWrite m n v) n = v := by
  have hb := cellIndex_bound n
  have hm1 : Memory.wf (memWrite m (16 * n.toNat) 8 v.lo.toNat) = true := memWrite_wf _ hm (by omega)
  have hlo : BitVec.ofNat 64 (memRead (cellWrite m n v) (16 * n.toNat) 8) = v.lo := by
    rw [cellWrite, memRead_memWrite_other _ hm1 (by omega) (by omega), memRead_memWrite_same _ hm (by omega)]
    exact ofNat_mod_lane v.lo
  have hhi : BitVec.ofNat 64 (memRead (cellWrite m n v) (16 * n.toNat + 8) 8) = v.hi := by
    rw [cellWrite, memRead_memWrite_same _ hm1 (by omega)]
    exact ofNat_mod_lane v.hi
  rw [cellRead, hlo, hhi]

/-- Writing a cell leaves every byte outside its sixteen. -/
theorem readByte_cellWrite_other {m : Memory} {n : CellIndex} {a : Nat} (v : Pair) (hm : Memory.wf m = true)
    (ha : a < 16 * n.toNat ∨ 16 * n.toNat + 16 ≤ a) : readByte (cellWrite m n v) a = readByte m a := by
  have hb := cellIndex_bound n
  have hm1 : Memory.wf (memWrite m (16 * n.toNat) 8 v.lo.toNat) = true := memWrite_wf _ hm (by omega)
  simp only [cellWrite]
  rw [readByte_memWrite _ _ hm1 (by omega), if_neg (by omega), readByte_memWrite _ _ hm (by omega), if_neg (by omega)]

/-- Writing a cell leaves every other cell. -/
theorem cellRead_cellWrite_other {m : Memory} {n n' : CellIndex} (v : Pair) (hm : Memory.wf m = true) (hne : n' ≠ n) :
    cellRead (cellWrite m n v) n' = cellRead m n' := by
  have hne' : n'.toNat ≠ n.toNat := fun h => hne (BitVec.eq_of_toNat_eq h)
  simp only [cellRead, Pair.mk.injEq]
  constructor <;>
    · congr 1
      refine memRead_congr fun k hk => ?_
      exact readByte_cellWrite_other v hm (by omega)

/-- The two cell laws as one: what every cell reads as after a write. -/
theorem cellRead_cellWrite {m : Memory} (n n' : CellIndex) (v : Pair) (hm : Memory.wf m = true) :
    cellRead (cellWrite m n v) n' = if n' = n then v else cellRead m n' := by
  by_cases h : n' = n
  · rw [if_pos h, h, cellRead_cellWrite_same n v hm]
  · rw [if_neg h, cellRead_cellWrite_other v hm h]

/-- The scratchpad of the reset state, which lists nothing, has the canonical form (70_reset_and_hazards.md R132). -/
theorem reset_sp_wf : Memory.wf State.reset.sp = true := rfl

end Sys2Proof.Machine
end

