-- ==== Sys2Proof/Laws/Operands.lean ====
section
/-! SUPPORT. The laws of the operand forms: each view of a value and its inverse, and what each place of a view holds. -/

namespace Sys2Proof.Machine

/-! Bytes of a lane. -/

theorem getLsbD_laneByte (x : Word) (k i : Nat) : (laneByte x k).getLsbD i = (decide (i < 8) && x.getLsbD (8 * k + i)) := by
  simp [laneByte, BitVec.getLsbD_extractLsb']

/-- `U64LE` undoes `LE64` (00_scope.md R10). -/
theorem u64le_laneBytes (x : Word) :
    u64le (laneByte x 0) (laneByte x 1) (laneByte x 2) (laneByte x 3) (laneByte x 4) (laneByte x 5) (laneByte x 6)
      (laneByte x 7) = x := by
  apply BitVec.eq_of_getLsbD_eq
  intro i hi
  simp only [u64le, BitVec.getLsbD_append, getLsbD_laneByte]
  interval_cases i <;> simp

/-- `LE64` undoes `U64LE` (00_scope.md R10). -/
theorem laneByte_u64le (b : Fin 8 → Byte) (k : Fin 8) :
    laneByte (u64le (b 0) (b 1) (b 2) (b 3) (b 4) (b 5) (b 6) (b 7)) k.val = b k := by
  apply BitVec.eq_of_getLsbD_eq
  intro i hi
  fin_cases k <;> simp only [u64le, getLsbD_laneByte, BitVec.getLsbD_append] <;> interval_cases i <;> simp

/-! 128-bit values and blocks. -/

theorem bytes16_get (v : Pair) (i : Nat) (h : i < 16) :
    (bytes16 v)[i] = if i < 8 then laneByte v.lo i else laneByte v.hi (i - 8) := by
  simp [bytes16]

/-- `cell16` undoes `bytes16` (00_scope.md R9). -/
@[simp] theorem cell16_bytes16 (v : Pair) : cell16 (bytes16 v) = v := by
  simp [cell16, bytes16_get, u64le_laneBytes]

theorem cell16_lo_byte (s : Block) (k : Fin 8) : laneByte (cell16 s).lo k.val = s[k.val] := by
  have h := laneByte_u64le (fun k : Fin 8 => s[k.val]) k
  simpa [cell16] using h

theorem cell16_hi_byte (s : Block) (k : Fin 8) : laneByte (cell16 s).hi k.val = s[k.val + 8] := by
  have h := laneByte_u64le (fun k : Fin 8 => s[k.val + 8]) k
  simpa [cell16] using h

/-- `bytes16` undoes `cell16` (00_scope.md R9). -/
@[simp] theorem bytes16_cell16 (s : Block) : bytes16 (cell16 s) = s := by
  apply Vector.ext
  intro i hi
  rw [bytes16_get]
  by_cases h : i < 8
  · rw [if_pos h]
    exact cell16_lo_byte s ⟨i, h⟩
  · rw [if_neg h]
    have := cell16_hi_byte s ⟨i - 8, by omega⟩
    simpa [show i - 8 + 8 = i by omega] using this

/-! The Keccak state, the blocks buffer and the digest. -/

theorem bytes200_get (st : Vector Word 25) (i : Nat) (h : i < 200) :
    (bytes200 st)[i] = laneByte (st[i / 8]'(Nat.div_lt_of_lt_mul h)) (i % 8) := by
  unfold bytes200
  rw [Vector.getElem_ofFn]

/-- The sub-blocks of the buffer that `blocksOf f` builds are `f` (10_state.md R22). -/
@[simp] theorem subBlock_blocksOf (f : Fin 8 → Pair) (j : Fin 8) : subBlock (blocksOf f) j = f j := by
  have h2 : (2 * j.val + 1) % 2 ≠ 0 := by omega
  have h3 : (2 * j.val + 1) / 2 = j.val := by omega
  simp [subBlock, blocksOf, h3]

/-- A blocks buffer is known by its sub-blocks (10_state.md R22). -/
theorem blocks_ext {u v : Vector Word 16} (h : ∀ j : Fin 8, subBlock u j = subBlock v j) : u = v := by
  apply Vector.ext
  intro i hi
  have hj := h ⟨i / 2, by omega⟩
  simp only [subBlock, Pair.mk.injEq] at hj
  rcases Nat.mod_two_eq_zero_or_one i with h0 | h1
  · have : 2 * (i / 2) = i := by omega
    simpa only [this] using hj.1
  · have : 2 * (i / 2) + 1 = i := by omega
    simpa only [this] using hj.2

@[simp] theorem blocksFromSt_get (st : Vector Word 25) (j : Nat) (h : j < 16) :
    (blocksFromSt st)[j] = st[8 + j]'(by omega) := by
  simp [blocksFromSt]

theorem stWithBlocks_get (st : Vector Word 25) (blk : Vector Word 16) (i : Nat) (h : i < 25) :
    (stWithBlocks st blk)[i] = if h' : 8 ≤ i ∧ i < 24 then blk[i - 8]'(by omega) else st[i] := by
  simp [stWithBlocks]

/-- Byte `8i + k` of the digest is byte `k` of `DIGEST[i]` (10_state.md R37). -/
theorem digestLanes_byte (d : Vector Byte 32) (i : Fin 4) (k : Fin 8) :
    laneByte (digestLanes d)[i.val] k.val = d[8 * i.val + k.val] := by
  have hd : ∀ n, (h : n < 32) → d.toList.getD n 0 = d[n] := fun n h => by
    simp [List.getD_eq_getElem?_getD, h]
  have h := laneByte_u64le (fun k : Fin 8 => d[8 * i.val + k.val]) k
  have hi := i.isLt
  simp only [digestLanes, Vector.getElem_ofFn, u64leAt]
  rw [hd _ (by omega), hd _ (by omega), hd _ (by omega), hd _ (by omega), hd _ (by omega), hd _ (by omega),
    hd _ (by omega), hd _ (by omega)]
  simpa using h

/-! The input buffer. -/

/-- What `IN[i] <- b` does to every byte of `IN` (10_state.md R34). -/
theorem setInByte_getD (base : Nat) (l : List Byte) (i j : Nat) (b : Byte) :
    (setInByte base l i b).getD j (Config.freeIn (base + j)) =
      if j = i then b else l.getD j (Config.freeIn (base + j)) := by
  induction l generalizing base i j with
  | nil =>
    induction i generalizing base j with
    | zero => cases j <;> simp [setInByte]
    | succ i ih =>
      cases j with
      | zero => simp [setInByte]
      | succ j =>
        have h := ih (base + 1) j
        simp only [setInByte, List.getD_cons_succ, show base + (j + 1) = base + 1 + j by omega, h]
        simp
  | cons v rest ih =>
    cases i with
    | zero => cases j <;> simp [setInByte]
    | succ i =>
      cases j with
      | zero => simp [setInByte]
      | succ j =>
        have h := ih (base + 1) i j
        simp only [setInByte, List.getD_cons_succ, show base + (j + 1) = base + 1 + j by omega, h]
        simp

theorem setInByte_length (base : Nat) (l : List Byte) (i : Nat) (b : Byte) :
    (setInByte base l i b).length = max l.length (i + 1) := by
  induction l generalizing base i with
  | nil =>
    induction i generalizing base with
    | zero => rfl
    | succ i ih => simp [setInByte, ih]
  | cons v rest ih =>
    cases i with
    | zero => simp [setInByte]
    | succ i => simp [setInByte, ih]

@[simp] theorem input_length (s : State) : (input s).length = s.inLen.toNat := by simp [input]

/-- The bytes of the input are those of `IN` (10_state.md R34). -/
theorem input_getD (s : State) (i : Nat) (d : Byte) (h : i < s.inLen.toNat) : (input s).getD i d = inByte s i := by
  simp [input, List.getD_eq_getElem?_getD, h]

/-! Half-words. -/

/-- Half-word `8i + l` of three chunks is lane `l` of chunk `i` (43_memory_hard_loop.md R94). -/
theorem halfWords_get (c : Fin 3 → Pair) (h : Fin 24) :
    (halfWords (c 0) (c 1) (c 2))[h.val] = cellHalf (c ⟨h.val / 8, by omega⟩) ⟨h.val % 8, by omega⟩ := by
  fin_cases h <;> simp [halfWords, cellHalf]

/-- Each 16-bit field of four half-words in a row. -/
theorem extract_append4 (h0 h1 h2 h3 : BitVec 16) :
    (h3 ++ h2 ++ h1 ++ h0).extractLsb' 0 16 = h0 ∧ (h3 ++ h2 ++ h1 ++ h0).extractLsb' 16 16 = h1 ∧
      (h3 ++ h2 ++ h1 ++ h0).extractLsb' 32 16 = h2 ∧ (h3 ++ h2 ++ h1 ++ h0).extractLsb' 48 16 = h3 := by
  refine ⟨?_, ?_, ?_, ?_⟩ <;>
    · apply BitVec.eq_of_getLsbD_eq
      intro k hk
      simp only [BitVec.getLsbD_extractLsb', BitVec.getLsbD_append, hk, decide_true, Bool.true_and]
      interval_cases k <;> rfl

/-- The lanes of the chunks built from 24 half-words are those half-words. -/
theorem cellHalf_chunkOfHalfWords (g : Vector (BitVec 16) 24) (i : Fin 3) (l : Fin 8) :
    cellHalf (chunkOfHalfWords g i) l = g[8 * i.val + l.val] := by
  have lo := extract_append4 g[8 * i.val] g[8 * i.val + 1] g[8 * i.val + 2] g[8 * i.val + 3]
  have hi := extract_append4 g[8 * i.val + 4] g[8 * i.val + 5] g[8 * i.val + 6] g[8 * i.val + 7]
  fin_cases l
  · exact lo.1
  · exact lo.2.1
  · exact lo.2.2.1
  · exact lo.2.2.2
  · exact hi.1
  · exact hi.2.1
  · exact hi.2.2.1
  · exact hi.2.2.2

/-- A 128-bit value is known by its half-words (20_memory.md R44). -/
theorem pair_ext_half {u v : Pair} (h : ∀ l : Fin 8, cellHalf u l = cellHalf v l) : u = v := by
  have bit : ∀ (l : Fin 8) (k : Nat), (cellHalf u l).getLsbD k = (cellHalf v l).getLsbD k := fun l k => by rw [h l]
  cases u with
  | mk ulo uhi =>
    cases v with
    | mk vlo vhi =>
      congr 1
      · apply BitVec.eq_of_getLsbD_eq
        intro i hi
        have := bit ⟨i / 16, by omega⟩ (i % 16)
        have h4 : i / 16 < 4 := by omega
        have h16 : i % 16 < 16 := by omega
        simpa [cellHalf, h4, h16, BitVec.getLsbD_extractLsb', show 16 * (i / 16) + i % 16 = i by omega] using this
      · apply BitVec.eq_of_getLsbD_eq
        intro i hi
        have := bit ⟨i / 16 + 4, by omega⟩ (i % 16)
        have h16 : i % 16 < 16 := by omega
        simpa [cellHalf, h16, BitVec.getLsbD_extractLsb', show 16 * (i / 16) + i % 16 = i by omega] using this

end Sys2Proof.Machine
end

