-- ==== Sys2Proof/Laws/State.lean ====
section
/-! SUPPORT. One lemma per field for each record update that several commands share: what it writes and what it leaves. -/

namespace Sys2Proof.Machine

@[simp] theorem complete_st (s : State) : (complete s).st = s.st := rfl

@[simp] theorem complete_sp (s : State) : (complete s).sp = s.sp := rfl

@[simp] theorem complete_rk (s : State) : (complete s).rk = s.rk := rfl

@[simp] theorem complete_blk (s : State) : (complete s).blk = s.blk := rfl

@[simp] theorem complete_a (s : State) : (complete s).a = s.a := rfl

@[simp] theorem complete_b (s : State) : (complete s).b = s.b := rfl

@[simp] theorem complete_c (s : State) : (complete s).c = s.c := rfl

@[simp] theorem complete_c2 (s : State) : (complete s).c2 = s.c2 := rfl

@[simp] theorem complete_p (s : State) : (complete s).p = s.p := rfl

@[simp] theorem complete_addr (s : State) : (complete s).addr = s.addr := rfl

@[simp] theorem complete_addr2 (s : State) : (complete s).addr2 = s.addr2 := rfl

@[simp] theorem complete_tweak (s : State) : (complete s).tweak = s.tweak := rfl

@[simp] theorem complete_divr (s : State) : (complete s).divr = s.divr := rfl

@[simp] theorem complete_sqrtr (s : State) : (complete s).sqrtr = s.sqrtr := rfl

@[simp] theorem complete_iter (s : State) : (complete s).iter = s.iter := rfl

@[simp] theorem complete_key (s : State) : (complete s).key = s.key := rfl

@[simp] theorem complete_x (s : State) : (complete s).x = s.x := rfl

@[simp] theorem complete_k (s : State) : (complete s).k = s.k := rfl

@[simp] theorem complete_y (s : State) : (complete s).y = s.y := rfl

@[simp] theorem complete_cmd (s : State) : (complete s).cmd = s.cmd := rfl

@[simp] theorem complete_status (s : State) : (complete s).status = statusSuccess s.cmd s.status := rfl

@[simp] theorem complete_variant (s : State) : (complete s).variant = s.variant := rfl

@[simp] theorem complete_inBytes (s : State) : (complete s).inBytes = s.inBytes := rfl

@[simp] theorem complete_inLen (s : State) : (complete s).inLen = s.inLen := rfl

@[simp] theorem complete_cellIdx (s : State) : (complete s).cellIdx = s.cellIdx := rfl

@[simp] theorem complete_sel (s : State) : (complete s).sel = s.sel := rfl

@[simp] theorem complete_digest (s : State) : (complete s).digest = s.digest := rfl

@[simp] theorem complete_hostQueue (s : State) : (complete s).hostQueue = s.hostQueue := rfl

@[simp] theorem complete_hostReads (s : State) : (complete s).hostReads = s.hostReads := rfl

@[simp] theorem complete_hostFault (s : State) : (complete s).hostFault = s.hostFault := rfl

@[simp] theorem raiseError_st (e : ErrorCode) (s : State) : (raiseError e s).st = s.st := rfl

@[simp] theorem raiseError_sp (e : ErrorCode) (s : State) : (raiseError e s).sp = s.sp := rfl

@[simp] theorem raiseError_rk (e : ErrorCode) (s : State) : (raiseError e s).rk = s.rk := rfl

@[simp] theorem raiseError_blk (e : ErrorCode) (s : State) : (raiseError e s).blk = s.blk := rfl

@[simp] theorem raiseError_a (e : ErrorCode) (s : State) : (raiseError e s).a = s.a := rfl

@[simp] theorem raiseError_b (e : ErrorCode) (s : State) : (raiseError e s).b = s.b := rfl

@[simp] theorem raiseError_c (e : ErrorCode) (s : State) : (raiseError e s).c = s.c := rfl

@[simp] theorem raiseError_c2 (e : ErrorCode) (s : State) : (raiseError e s).c2 = s.c2 := rfl

@[simp] theorem raiseError_p (e : ErrorCode) (s : State) : (raiseError e s).p = s.p := rfl

@[simp] theorem raiseError_addr (e : ErrorCode) (s : State) : (raiseError e s).addr = s.addr := rfl

@[simp] theorem raiseError_addr2 (e : ErrorCode) (s : State) : (raiseError e s).addr2 = s.addr2 := rfl

@[simp] theorem raiseError_tweak (e : ErrorCode) (s : State) : (raiseError e s).tweak = s.tweak := rfl

@[simp] theorem raiseError_divr (e : ErrorCode) (s : State) : (raiseError e s).divr = s.divr := rfl

@[simp] theorem raiseError_sqrtr (e : ErrorCode) (s : State) : (raiseError e s).sqrtr = s.sqrtr := rfl

@[simp] theorem raiseError_iter (e : ErrorCode) (s : State) : (raiseError e s).iter = s.iter := rfl

@[simp] theorem raiseError_key (e : ErrorCode) (s : State) : (raiseError e s).key = s.key := rfl

@[simp] theorem raiseError_x (e : ErrorCode) (s : State) : (raiseError e s).x = s.x := rfl

@[simp] theorem raiseError_k (e : ErrorCode) (s : State) : (raiseError e s).k = s.k := rfl

@[simp] theorem raiseError_y (e : ErrorCode) (s : State) : (raiseError e s).y = s.y := rfl

@[simp] theorem raiseError_cmd (e : ErrorCode) (s : State) : (raiseError e s).cmd = s.cmd := rfl

@[simp] theorem raiseError_status (e : ErrorCode) (s : State) : (raiseError e s).status = statusError e s.cmd s.status := rfl

@[simp] theorem raiseError_variant (e : ErrorCode) (s : State) : (raiseError e s).variant = s.variant := rfl

@[simp] theorem raiseError_inBytes (e : ErrorCode) (s : State) : (raiseError e s).inBytes = s.inBytes := rfl

@[simp] theorem raiseError_inLen (e : ErrorCode) (s : State) : (raiseError e s).inLen = s.inLen := rfl

@[simp] theorem raiseError_cellIdx (e : ErrorCode) (s : State) : (raiseError e s).cellIdx = s.cellIdx := rfl

@[simp] theorem raiseError_sel (e : ErrorCode) (s : State) : (raiseError e s).sel = s.sel := rfl

@[simp] theorem raiseError_digest (e : ErrorCode) (s : State) : (raiseError e s).digest = s.digest := rfl

@[simp] theorem raiseError_hostQueue (e : ErrorCode) (s : State) : (raiseError e s).hostQueue = s.hostQueue := rfl

@[simp] theorem raiseError_hostReads (e : ErrorCode) (s : State) : (raiseError e s).hostReads = s.hostReads := rfl

@[simp] theorem raiseError_hostFault (e : ErrorCode) (s : State) : (raiseError e s).hostFault = s.hostFault := rfl

@[simp] theorem countIteration_st (s : State) : (countIteration s).st = s.st := rfl

@[simp] theorem countIteration_sp (s : State) : (countIteration s).sp = s.sp := rfl

@[simp] theorem countIteration_rk (s : State) : (countIteration s).rk = s.rk := rfl

@[simp] theorem countIteration_blk (s : State) : (countIteration s).blk = s.blk := rfl

@[simp] theorem countIteration_a (s : State) : (countIteration s).a = s.a := rfl

@[simp] theorem countIteration_b (s : State) : (countIteration s).b = s.b := rfl

@[simp] theorem countIteration_c (s : State) : (countIteration s).c = s.c := rfl

@[simp] theorem countIteration_c2 (s : State) : (countIteration s).c2 = s.c2 := rfl

@[simp] theorem countIteration_p (s : State) : (countIteration s).p = s.p := rfl

@[simp] theorem countIteration_addr (s : State) : (countIteration s).addr = s.addr := rfl

@[simp] theorem countIteration_addr2 (s : State) : (countIteration s).addr2 = s.addr2 := rfl

@[simp] theorem countIteration_tweak (s : State) : (countIteration s).tweak = s.tweak := rfl

@[simp] theorem countIteration_divr (s : State) : (countIteration s).divr = s.divr := rfl

@[simp] theorem countIteration_sqrtr (s : State) : (countIteration s).sqrtr = s.sqrtr := rfl

@[simp] theorem countIteration_iter (s : State) : (countIteration s).iter = s.iter + 1 := rfl

@[simp] theorem countIteration_key (s : State) : (countIteration s).key = s.key := rfl

@[simp] theorem countIteration_x (s : State) : (countIteration s).x = s.x := rfl

@[simp] theorem countIteration_k (s : State) : (countIteration s).k = s.k := rfl

@[simp] theorem countIteration_y (s : State) : (countIteration s).y = s.y := rfl

@[simp] theorem countIteration_cmd (s : State) : (countIteration s).cmd = s.cmd := rfl

@[simp] theorem countIteration_status (s : State) : (countIteration s).status = s.status := rfl

@[simp] theorem countIteration_variant (s : State) : (countIteration s).variant = s.variant := rfl

@[simp] theorem countIteration_inBytes (s : State) : (countIteration s).inBytes = s.inBytes := rfl

@[simp] theorem countIteration_inLen (s : State) : (countIteration s).inLen = s.inLen := rfl

@[simp] theorem countIteration_cellIdx (s : State) : (countIteration s).cellIdx = s.cellIdx := rfl

@[simp] theorem countIteration_sel (s : State) : (countIteration s).sel = s.sel := rfl

@[simp] theorem countIteration_digest (s : State) : (countIteration s).digest = s.digest := rfl

@[simp] theorem countIteration_hostQueue (s : State) : (countIteration s).hostQueue = s.hostQueue := rfl

@[simp] theorem countIteration_hostReads (s : State) : (countIteration s).hostReads = s.hostReads := rfl

@[simp] theorem countIteration_hostFault (s : State) : (countIteration s).hostFault = s.hostFault := rfl

@[simp] theorem clearDv_st (s : State) : (clearDv s).st = s.st := rfl

@[simp] theorem clearDv_sp (s : State) : (clearDv s).sp = s.sp := rfl

@[simp] theorem clearDv_rk (s : State) : (clearDv s).rk = s.rk := rfl

@[simp] theorem clearDv_blk (s : State) : (clearDv s).blk = s.blk := rfl

@[simp] theorem clearDv_a (s : State) : (clearDv s).a = s.a := rfl

@[simp] theorem clearDv_b (s : State) : (clearDv s).b = s.b := rfl

@[simp] theorem clearDv_c (s : State) : (clearDv s).c = s.c := rfl

@[simp] theorem clearDv_c2 (s : State) : (clearDv s).c2 = s.c2 := rfl

@[simp] theorem clearDv_p (s : State) : (clearDv s).p = s.p := rfl

@[simp] theorem clearDv_addr (s : State) : (clearDv s).addr = s.addr := rfl

@[simp] theorem clearDv_addr2 (s : State) : (clearDv s).addr2 = s.addr2 := rfl

@[simp] theorem clearDv_tweak (s : State) : (clearDv s).tweak = s.tweak := rfl

@[simp] theorem clearDv_divr (s : State) : (clearDv s).divr = s.divr := rfl

@[simp] theorem clearDv_sqrtr (s : State) : (clearDv s).sqrtr = s.sqrtr := rfl

@[simp] theorem clearDv_iter (s : State) : (clearDv s).iter = s.iter := rfl

@[simp] theorem clearDv_key (s : State) : (clearDv s).key = s.key := rfl

@[simp] theorem clearDv_x (s : State) : (clearDv s).x = s.x := rfl

@[simp] theorem clearDv_k (s : State) : (clearDv s).k = s.k := rfl

@[simp] theorem clearDv_y (s : State) : (clearDv s).y = s.y := rfl

@[simp] theorem clearDv_cmd (s : State) : (clearDv s).cmd = s.cmd := rfl

@[simp] theorem clearDv_status (s : State) : (clearDv s).status = statusDv false s.status := rfl

@[simp] theorem clearDv_variant (s : State) : (clearDv s).variant = s.variant := rfl

@[simp] theorem clearDv_inBytes (s : State) : (clearDv s).inBytes = s.inBytes := rfl

@[simp] theorem clearDv_inLen (s : State) : (clearDv s).inLen = s.inLen := rfl

@[simp] theorem clearDv_cellIdx (s : State) : (clearDv s).cellIdx = s.cellIdx := rfl

@[simp] theorem clearDv_sel (s : State) : (clearDv s).sel = s.sel := rfl

@[simp] theorem clearDv_digest (s : State) : (clearDv s).digest = s.digest := rfl

@[simp] theorem clearDv_hostQueue (s : State) : (clearDv s).hostQueue = s.hostQueue := rfl

@[simp] theorem clearDv_hostReads (s : State) : (clearDv s).hostReads = s.hostReads := rfl

@[simp] theorem clearDv_hostFault (s : State) : (clearDv s).hostFault = s.hostFault := rfl

@[simp] theorem clearDigest_st (s : State) : (clearDigest s).st = s.st := rfl

@[simp] theorem clearDigest_sp (s : State) : (clearDigest s).sp = s.sp := rfl

@[simp] theorem clearDigest_rk (s : State) : (clearDigest s).rk = s.rk := rfl

@[simp] theorem clearDigest_blk (s : State) : (clearDigest s).blk = s.blk := rfl

@[simp] theorem clearDigest_a (s : State) : (clearDigest s).a = s.a := rfl

@[simp] theorem clearDigest_b (s : State) : (clearDigest s).b = s.b := rfl

@[simp] theorem clearDigest_c (s : State) : (clearDigest s).c = s.c := rfl

@[simp] theorem clearDigest_c2 (s : State) : (clearDigest s).c2 = s.c2 := rfl

@[simp] theorem clearDigest_p (s : State) : (clearDigest s).p = s.p := rfl

@[simp] theorem clearDigest_addr (s : State) : (clearDigest s).addr = s.addr := rfl

@[simp] theorem clearDigest_addr2 (s : State) : (clearDigest s).addr2 = s.addr2 := rfl

@[simp] theorem clearDigest_tweak (s : State) : (clearDigest s).tweak = s.tweak := rfl

@[simp] theorem clearDigest_divr (s : State) : (clearDigest s).divr = s.divr := rfl

@[simp] theorem clearDigest_sqrtr (s : State) : (clearDigest s).sqrtr = s.sqrtr := rfl

@[simp] theorem clearDigest_iter (s : State) : (clearDigest s).iter = s.iter := rfl

@[simp] theorem clearDigest_key (s : State) : (clearDigest s).key = s.key := rfl

@[simp] theorem clearDigest_x (s : State) : (clearDigest s).x = s.x := rfl

@[simp] theorem clearDigest_k (s : State) : (clearDigest s).k = s.k := rfl

@[simp] theorem clearDigest_y (s : State) : (clearDigest s).y = s.y := rfl

@[simp] theorem clearDigest_cmd (s : State) : (clearDigest s).cmd = s.cmd := rfl

@[simp] theorem clearDigest_status (s : State) : (clearDigest s).status = statusDv false s.status := rfl

@[simp] theorem clearDigest_variant (s : State) : (clearDigest s).variant = s.variant := rfl

@[simp] theorem clearDigest_inBytes (s : State) : (clearDigest s).inBytes = s.inBytes := rfl

@[simp] theorem clearDigest_inLen (s : State) : (clearDigest s).inLen = s.inLen := rfl

@[simp] theorem clearDigest_cellIdx (s : State) : (clearDigest s).cellIdx = s.cellIdx := rfl

@[simp] theorem clearDigest_sel (s : State) : (clearDigest s).sel = s.sel := rfl

@[simp] theorem clearDigest_digest (s : State) : (clearDigest s).digest = Vector.replicate 4 0 := rfl

@[simp] theorem clearDigest_hostQueue (s : State) : (clearDigest s).hostQueue = s.hostQueue := rfl

@[simp] theorem clearDigest_hostReads (s : State) : (clearDigest s).hostReads = s.hostReads := rfl

@[simp] theorem clearDigest_hostFault (s : State) : (clearDigest s).hostFault = s.hostFault := rfl

@[simp] theorem expandInto_st (key : KeyBytes) (s : State) : (expandInto key s).st = s.st := rfl

@[simp] theorem expandInto_sp (key : KeyBytes) (s : State) : (expandInto key s).sp = s.sp := rfl

@[simp] theorem expandInto_rk (key : KeyBytes) (s : State) : (expandInto key s).rk = expandKey key := rfl

@[simp] theorem expandInto_blk (key : KeyBytes) (s : State) : (expandInto key s).blk = s.blk := rfl

@[simp] theorem expandInto_a (key : KeyBytes) (s : State) : (expandInto key s).a = s.a := rfl

@[simp] theorem expandInto_b (key : KeyBytes) (s : State) : (expandInto key s).b = s.b := rfl

@[simp] theorem expandInto_c (key : KeyBytes) (s : State) : (expandInto key s).c = s.c := rfl

@[simp] theorem expandInto_c2 (key : KeyBytes) (s : State) : (expandInto key s).c2 = s.c2 := rfl

@[simp] theorem expandInto_p (key : KeyBytes) (s : State) : (expandInto key s).p = s.p := rfl

@[simp] theorem expandInto_addr (key : KeyBytes) (s : State) : (expandInto key s).addr = s.addr := rfl

@[simp] theorem expandInto_addr2 (key : KeyBytes) (s : State) : (expandInto key s).addr2 = s.addr2 := rfl

@[simp] theorem expandInto_tweak (key : KeyBytes) (s : State) : (expandInto key s).tweak = s.tweak := rfl

@[simp] theorem expandInto_divr (key : KeyBytes) (s : State) : (expandInto key s).divr = s.divr := rfl

@[simp] theorem expandInto_sqrtr (key : KeyBytes) (s : State) : (expandInto key s).sqrtr = s.sqrtr := rfl

@[simp] theorem expandInto_iter (key : KeyBytes) (s : State) : (expandInto key s).iter = s.iter := rfl

@[simp] theorem expandInto_key (key : KeyBytes) (s : State) : (expandInto key s).key = s.key := rfl

@[simp] theorem expandInto_x (key : KeyBytes) (s : State) : (expandInto key s).x = s.x := rfl

@[simp] theorem expandInto_k (key : KeyBytes) (s : State) : (expandInto key s).k = s.k := rfl

@[simp] theorem expandInto_y (key : KeyBytes) (s : State) : (expandInto key s).y = s.y := rfl

@[simp] theorem expandInto_cmd (key : KeyBytes) (s : State) : (expandInto key s).cmd = s.cmd := rfl

@[simp] theorem expandInto_status (key : KeyBytes) (s : State) : (expandInto key s).status = s.status := rfl

@[simp] theorem expandInto_variant (key : KeyBytes) (s : State) : (expandInto key s).variant = s.variant := rfl

@[simp] theorem expandInto_inBytes (key : KeyBytes) (s : State) : (expandInto key s).inBytes = s.inBytes := rfl

@[simp] theorem expandInto_inLen (key : KeyBytes) (s : State) : (expandInto key s).inLen = s.inLen := rfl

@[simp] theorem expandInto_cellIdx (key : KeyBytes) (s : State) : (expandInto key s).cellIdx = s.cellIdx := rfl

@[simp] theorem expandInto_sel (key : KeyBytes) (s : State) : (expandInto key s).sel = s.sel := rfl

@[simp] theorem expandInto_digest (key : KeyBytes) (s : State) : (expandInto key s).digest = s.digest := rfl

@[simp] theorem expandInto_hostQueue (key : KeyBytes) (s : State) : (expandInto key s).hostQueue = s.hostQueue := rfl

@[simp] theorem expandInto_hostReads (key : KeyBytes) (s : State) : (expandInto key s).hostReads = s.hostReads := rfl

@[simp] theorem expandInto_hostFault (key : KeyBytes) (s : State) : (expandInto key s).hostFault = s.hostFault := rfl

@[simp] theorem absorbEffect_st (s : State) : (absorbEffect s).st = keccakAbsorb (input s) := rfl

@[simp] theorem absorbEffect_sp (s : State) : (absorbEffect s).sp = s.sp := rfl

@[simp] theorem absorbEffect_rk (s : State) : (absorbEffect s).rk = s.rk := rfl

@[simp] theorem absorbEffect_blk (s : State) : (absorbEffect s).blk = s.blk := rfl

@[simp] theorem absorbEffect_a (s : State) : (absorbEffect s).a = s.a := rfl

@[simp] theorem absorbEffect_b (s : State) : (absorbEffect s).b = s.b := rfl

@[simp] theorem absorbEffect_c (s : State) : (absorbEffect s).c = s.c := rfl

@[simp] theorem absorbEffect_c2 (s : State) : (absorbEffect s).c2 = s.c2 := rfl

@[simp] theorem absorbEffect_p (s : State) : (absorbEffect s).p = s.p := rfl

@[simp] theorem absorbEffect_addr (s : State) : (absorbEffect s).addr = s.addr := rfl

@[simp] theorem absorbEffect_addr2 (s : State) : (absorbEffect s).addr2 = s.addr2 := rfl

@[simp] theorem absorbEffect_tweak (s : State) : (absorbEffect s).tweak = s.tweak := rfl

@[simp] theorem absorbEffect_divr (s : State) : (absorbEffect s).divr = s.divr := rfl

@[simp] theorem absorbEffect_sqrtr (s : State) : (absorbEffect s).sqrtr = s.sqrtr := rfl

@[simp] theorem absorbEffect_iter (s : State) : (absorbEffect s).iter = s.iter := rfl

@[simp] theorem absorbEffect_key (s : State) : (absorbEffect s).key = s.key := rfl

@[simp] theorem absorbEffect_x (s : State) : (absorbEffect s).x = s.x := rfl

@[simp] theorem absorbEffect_k (s : State) : (absorbEffect s).k = s.k := rfl

@[simp] theorem absorbEffect_y (s : State) : (absorbEffect s).y = s.y := rfl

@[simp] theorem absorbEffect_cmd (s : State) : (absorbEffect s).cmd = s.cmd := rfl

@[simp] theorem absorbEffect_status (s : State) : (absorbEffect s).status = s.status := rfl

@[simp] theorem absorbEffect_variant (s : State) : (absorbEffect s).variant = s.variant := rfl

@[simp] theorem absorbEffect_inBytes (s : State) : (absorbEffect s).inBytes = s.inBytes := rfl

@[simp] theorem absorbEffect_inLen (s : State) : (absorbEffect s).inLen = s.inLen := rfl

@[simp] theorem absorbEffect_cellIdx (s : State) : (absorbEffect s).cellIdx = s.cellIdx := rfl

@[simp] theorem absorbEffect_sel (s : State) : (absorbEffect s).sel = s.sel := rfl

@[simp] theorem absorbEffect_digest (s : State) : (absorbEffect s).digest = s.digest := rfl

@[simp] theorem absorbEffect_hostQueue (s : State) : (absorbEffect s).hostQueue = s.hostQueue := rfl

@[simp] theorem absorbEffect_hostReads (s : State) : (absorbEffect s).hostReads = s.hostReads := rfl

@[simp] theorem absorbEffect_hostFault (s : State) : (absorbEffect s).hostFault = s.hostFault := rfl

@[simp] theorem permuteEffect_st (s : State) : (permuteEffect s).st = keccakF s.st := rfl

@[simp] theorem permuteEffect_sp (s : State) : (permuteEffect s).sp = s.sp := rfl

@[simp] theorem permuteEffect_rk (s : State) : (permuteEffect s).rk = s.rk := rfl

@[simp] theorem permuteEffect_blk (s : State) : (permuteEffect s).blk = s.blk := rfl

@[simp] theorem permuteEffect_a (s : State) : (permuteEffect s).a = s.a := rfl

@[simp] theorem permuteEffect_b (s : State) : (permuteEffect s).b = s.b := rfl

@[simp] theorem permuteEffect_c (s : State) : (permuteEffect s).c = s.c := rfl

@[simp] theorem permuteEffect_c2 (s : State) : (permuteEffect s).c2 = s.c2 := rfl

@[simp] theorem permuteEffect_p (s : State) : (permuteEffect s).p = s.p := rfl

@[simp] theorem permuteEffect_addr (s : State) : (permuteEffect s).addr = s.addr := rfl

@[simp] theorem permuteEffect_addr2 (s : State) : (permuteEffect s).addr2 = s.addr2 := rfl

@[simp] theorem permuteEffect_tweak (s : State) : (permuteEffect s).tweak = s.tweak := rfl

@[simp] theorem permuteEffect_divr (s : State) : (permuteEffect s).divr = s.divr := rfl

@[simp] theorem permuteEffect_sqrtr (s : State) : (permuteEffect s).sqrtr = s.sqrtr := rfl

@[simp] theorem permuteEffect_iter (s : State) : (permuteEffect s).iter = s.iter := rfl

@[simp] theorem permuteEffect_key (s : State) : (permuteEffect s).key = s.key := rfl

@[simp] theorem permuteEffect_x (s : State) : (permuteEffect s).x = s.x := rfl

@[simp] theorem permuteEffect_k (s : State) : (permuteEffect s).k = s.k := rfl

@[simp] theorem permuteEffect_y (s : State) : (permuteEffect s).y = s.y := rfl

@[simp] theorem permuteEffect_cmd (s : State) : (permuteEffect s).cmd = s.cmd := rfl

@[simp] theorem permuteEffect_status (s : State) : (permuteEffect s).status = s.status := rfl

@[simp] theorem permuteEffect_variant (s : State) : (permuteEffect s).variant = s.variant := rfl

@[simp] theorem permuteEffect_inBytes (s : State) : (permuteEffect s).inBytes = s.inBytes := rfl

@[simp] theorem permuteEffect_inLen (s : State) : (permuteEffect s).inLen = s.inLen := rfl

@[simp] theorem permuteEffect_cellIdx (s : State) : (permuteEffect s).cellIdx = s.cellIdx := rfl

@[simp] theorem permuteEffect_sel (s : State) : (permuteEffect s).sel = s.sel := rfl

@[simp] theorem permuteEffect_digest (s : State) : (permuteEffect s).digest = s.digest := rfl

@[simp] theorem permuteEffect_hostQueue (s : State) : (permuteEffect s).hostQueue = s.hostQueue := rfl

@[simp] theorem permuteEffect_hostReads (s : State) : (permuteEffect s).hostReads = s.hostReads := rfl

@[simp] theorem permuteEffect_hostFault (s : State) : (permuteEffect s).hostFault = s.hostFault := rfl

/-! The fields of STATUS after each way it is written. -/

@[simp] theorem statusSuccess_done (w : Word) (t : Status) : (statusSuccess w t).done = true := rfl

@[simp] theorem statusSuccess_err (w : Word) (t : Status) : (statusSuccess w t).err = false := rfl

@[simp] theorem statusSuccess_busy (w : Word) (t : Status) : (statusSuccess w t).busy = t.busy := rfl

@[simp] theorem statusSuccess_dv (w : Word) (t : Status) : (statusSuccess w t).dv = t.dv := rfl

@[simp] theorem statusSuccess_errcode (w : Word) (t : Status) : (statusSuccess w t).errcode = 0 := rfl

@[simp] theorem statusSuccess_lastop (w : Word) (t : Status) : (statusSuccess w t).lastop = w.extractLsb' 0 8 := rfl

@[simp] theorem statusError_done (e : ErrorCode) (w : Word) (t : Status) : (statusError e w t).done = true := rfl

@[simp] theorem statusError_err (e : ErrorCode) (w : Word) (t : Status) : (statusError e w t).err = true := rfl

@[simp] theorem statusError_busy (e : ErrorCode) (w : Word) (t : Status) : (statusError e w t).busy = t.busy := rfl

@[simp] theorem statusError_dv (e : ErrorCode) (w : Word) (t : Status) : (statusError e w t).dv = t.dv := rfl

@[simp] theorem statusError_errcode (e : ErrorCode) (w : Word) (t : Status) :
    (statusError e w t).errcode = errorNumber e := rfl

@[simp] theorem statusError_lastop (e : ErrorCode) (w : Word) (t : Status) :
    (statusError e w t).lastop = w.extractLsb' 0 8 := rfl

@[simp] theorem statusDv_dv (v : Bool) (t : Status) : (statusDv v t).dv = v := rfl

@[simp] theorem statusDv_done (v : Bool) (t : Status) : (statusDv v t).done = t.done := rfl

@[simp] theorem statusDv_err (v : Bool) (t : Status) : (statusDv v t).err = t.err := rfl

@[simp] theorem statusDv_busy (v : Bool) (t : Status) : (statusDv v t).busy = t.busy := rfl

@[simp] theorem statusDv_errcode (v : Bool) (t : Status) : (statusDv v t).errcode = t.errcode := rfl

@[simp] theorem statusDv_lastop (v : Bool) (t : Status) : (statusDv v t).lastop = t.lastop := rfl

/-- Completing twice under one command word writes the same STATUS. -/
@[simp] theorem statusSuccess_twice (w : Word) (t : Status) :
    statusSuccess w (statusSuccess w t) = statusSuccess w t := rfl

end Sys2Proof.Machine
end

