-- ==== Sys2Proof/Laws/Commands.lean ====
section
/-! SUPPORT. What each shared operation of the commands can do: how a command ends, which fields each effect writes, and that the scratchpad keeps its form. -/

namespace Sys2Proof.Machine

/-! How a command ends. -/

@[simp] theorem runCommand_error (e : ErrorCode) (f : State → State) (s : State) :
    runCommand (some e) f s = .next (raiseError e s) := rfl

@[simp] theorem runCommand_success (f : State → State) (s : State) : runCommand none f s = .next (complete (f s)) := rfl

/-- All that a command can do: raise the error its check found, or have its effect and complete. -/
theorem runCommand_cases {check : Option ErrorCode} {f : State → State} {s t : State}
    (h : runCommand check f s = .next t) :
    (∃ e, check = some e ∧ t = raiseError e s) ∨ (check = none ∧ t = complete (f s)) := by
  cases check with
  | some e => exact .inl ⟨e, rfl, by injection h with h; exact h.symm⟩
  | none => exact .inr ⟨rfl, by injection h with h; exact h.symm⟩

/-! The checks (60_exceptions.md R119 to R121). -/

/-- The variant that a value of `VARIANT` names (10_state.md R33). -/
theorem variantOf_eq_some {w : Word} {v : Variant} :
    variantOf w = some v ↔ (w = 0 ∧ v = .v0) ∨ (w = 1 ∧ v = .v1) ∨ (w = 2 ∧ v = .v2) := by
  unfold variantOf
  by_cases h0 : w = 0
  · subst h0; cases v <;> decide
  · by_cases h1 : w = 1
    · subst h1; cases v <;> decide
    · by_cases h2 : w = 2
      · subst h2; cases v <;> decide
      · rw [if_neg h0, if_neg h1, if_neg h2]
        simp only [h0, h1, h2, false_and, or_false, reduceCtorEq]

/-- `check_variant` passes exactly on 0, 1 and 2 (60_exceptions.md R119). -/
theorem checkVariant_none {s : State} : checkVariant s = none ↔ s.variant = 0 ∨ s.variant = 1 ∨ s.variant = 2 := by
  unfold checkVariant
  constructor
  · intro h
    cases hv : variantOf s.variant with
    | none => rw [hv] at h; cases h
    | some v =>
      rcases variantOf_eq_some.1 hv with ⟨h, -⟩ | ⟨h, -⟩ | ⟨h, -⟩
      · exact .inl h
      · exact .inr (.inl h)
      · exact .inr (.inr h)
  · rintro (h | h | h) <;> rw [h] <;> rfl

theorem checkVariant_some {s : State} {e : ErrorCode} (h : checkVariant s = some e) : e = .variant := by
  unfold checkVariant at h
  split at h
  · cases h
  · injection h with h; exact h.symm

theorem checkShortInput_some {s : State} {e : ErrorCode} (h : checkShortInput s = some e) : e = .shortInput := by
  unfold checkShortInput at h
  split at h
  · injection h with h; exact h.symm
  · cases h

/-- ERR_VARIANT comes before ERR_SHORT_INPUT (60_exceptions.md R122). -/
theorem checkVariantThenInput_none {s : State} :
    checkVariantThenInput s = none ↔ checkVariant s = none ∧ checkShortInput s = none := by
  unfold checkVariantThenInput
  split <;> simp [*]

theorem checkedVariant_of {s : State} {v : Variant} (h : variantOf s.variant = some v) : checkedVariant s = v := by
  simp [checkedVariant, h]

/-- A checked cell index is the register's own value (60_exceptions.md R121). -/
theorem selectedCell_toNat {s : State} (h : checkCellIdx s = none) : (selectedCell s).toNat = s.cellIdx.toNat := by
  unfold checkCellIdx at h
  split at h
  · cases h
  · rename_i hn
    simp only [selectedCell, BitVec.toNat_setWidth]
    omega

/-! Which fields each effect writes. A mask forgets the fields that an effect may write: an effect that keeps the mask leaves every
other field as it was. -/

/-- The state with every field forgotten that a chunk pass of SP_INIT or FINALIZE may write. -/
def chunkMask (s : State) : State :=
    { s with sp := [], blk := Vector.replicate 16 0 }

/-- A state with the same mask differs in the forgotten fields only. -/
theorem eq_of_chunkMask {s t : State} (h : chunkMask t = chunkMask s) :
    t =
    { s with sp := t.sp, blk := t.blk } := by
  cases s
  cases t
  simp only [chunkMask, State.mk.injEq] at h
  simp only [h]

/-- The state with every field forgotten that an iteration of the memory-hard loop and its count may write. -/
def loopMask (s : State) : State :=
    { s with sp := [], a := Pair.zero, b := Pair.zero, c := Pair.zero, c2 := Pair.zero, p := Pair.zero, addr := 0,
             addr2 := 0, divr := 0, sqrtr := 0, iter := 0 }

/-- A state with the same mask differs in the forgotten fields only. -/
theorem eq_of_loopMask {s t : State} (h : loopMask t = loopMask s) :
    t =
    { s with sp := t.sp, a := t.a, b := t.b, c := t.c, c2 := t.c2, p := t.p, addr := t.addr, addr2 := t.addr2,
             divr := t.divr, sqrtr := t.sqrtr, iter := t.iter } := by
  cases s
  cases t
  simp only [loopMask, State.mk.injEq] at h
  simp only [h]

/-- The state with every field forgotten that MHL_RUN may write. -/
def runMask (s : State) : State :=
    { s with sp := [], a := Pair.zero, b := Pair.zero, c := Pair.zero, c2 := Pair.zero, p := Pair.zero, addr := 0,
             addr2 := 0, tweak := 0, divr := 0, sqrtr := 0, iter := 0 }

/-- A state with the same mask differs in the forgotten fields only. -/
theorem eq_of_runMask {s t : State} (h : runMask t = runMask s) :
    t =
    { s with sp := t.sp, a := t.a, b := t.b, c := t.c, c2 := t.c2, p := t.p, addr := t.addr, addr2 := t.addr2,
             tweak := t.tweak, divr := t.divr, sqrtr := t.sqrtr, iter := t.iter } := by
  cases s
  cases t
  simp only [runMask, State.mk.injEq] at h
  simp only [h]

/-- The state with every field forgotten that SUM may write. -/
def sumMask (s : State) : State :=
    { s with st := Vector.replicate 25 0, sp := [], rk := Vector.replicate 40 0, blk := Vector.replicate 16 0,
             a := Pair.zero, b := Pair.zero, c := Pair.zero, c2 := Pair.zero, p := Pair.zero, addr := 0,
             addr2 := 0, tweak := 0, divr := 0, sqrtr := 0, iter := 0, sel := 0, digest := Vector.replicate 4 0,
             status := Status.reset }

/-- A state with the same mask differs in the forgotten fields only. -/
theorem eq_of_sumMask {s t : State} (h : sumMask t = sumMask s) :
    t =
    { s with st := t.st, sp := t.sp, rk := t.rk, blk := t.blk, a := t.a, b := t.b, c := t.c, c2 := t.c2, p := t.p,
             addr := t.addr, addr2 := t.addr2, tweak := t.tweak, divr := t.divr, sqrtr := t.sqrtr, iter := t.iter,
             sel := t.sel, digest := t.digest, status := t.status } := by
  cases s
  cases t
  simp only [sumMask, State.mk.injEq] at h
  simp only [h]

theorem initChunk_mask (ch : Nat) (s : State) : chunkMask (initChunk ch s) = chunkMask s := by
  simp only [chunkMask, initChunk, copyBlocks, encryptBlocks]

theorem finalizeChunk_mask (ch : Nat) (s : State) : chunkMask (finalizeChunk ch s) = chunkMask s := by
  simp only [chunkMask, finalizeChunk, reloadBlocks, encryptChunk]

/-- SP_INIT writes RK, SP and BLK, and no chunk pass writes RK (42_scratchpad_init.md R88). -/
theorem spInitEffect_mask (s : State) : chunkMask (spInitEffect s) = chunkMask (spInitLoad s) := by
  rw [spInitEffect]
  exact loopUp_keeps chunkMask initChunk chunkCount (spInitLoad s) initChunk_mask

/-- The chunk passes of FINALIZE write SP and BLK (45_finalize_mux.md R104). -/
theorem finalizeLoop_mask (s : State) :
    chunkMask (loopUp finalizeChunk chunkCount (finalizeLoad s)) = chunkMask (finalizeLoad s) :=
  loopUp_keeps chunkMask finalizeChunk chunkCount (finalizeLoad s) finalizeChunk_mask

theorem loopStep3_mask (perm : Fin 24 → Fin 24) (v : Variant) (s : State) : loopMask (loopStep3 perm v s) = loopMask s := by
  cases v <;> simp only [loopMask, loopStep3]

theorem loopStep5_mask (v : Variant) (s : State) : loopMask (loopStep5 v s) = loopMask s := by
  cases v <;> simp only [loopMask, loopStep5]

theorem loopStep7_mask (v : Variant) (s : State) : loopMask (loopStep7 v s) = loopMask s := by
  cases v <;> simp only [loopMask, loopStep7, divSqrtEffect]

theorem loopStep9_mask (perm : Fin 24 → Fin 24) (v : Variant) (s : State) : loopMask (loopStep9 perm v s) = loopMask s := by
  cases v <;> simp only [loopMask, loopStep9]

theorem loopStep13_mask (v : Variant) (s : State) : loopMask (loopStep13 v s) = loopMask s := by
  cases v <;> simp only [loopMask, loopStep13]

theorem loopStep1_mask (s : State) : loopMask (loopStep1 s) = loopMask s := by
  simp only [loopMask, loopStep1]

theorem loopStep2_mask (s : State) : loopMask (loopStep2 s) = loopMask s := by
  simp only [loopMask, loopStep2]

theorem loopStep4_mask (s : State) : loopMask (loopStep4 s) = loopMask s := by
  simp only [loopMask, loopStep4]

theorem loopStep6_mask (s : State) : loopMask (loopStep6 s) = loopMask s := by
  simp only [loopMask, loopStep6]

theorem loopStep8_mask (s : State) : loopMask (loopStep8 s) = loopMask s := by
  simp only [loopMask, loopStep8]

theorem loopStep10_mask (s : State) : loopMask (loopStep10 s) = loopMask s := by
  simp only [loopMask, loopStep10]

theorem loopStep11_mask (s : State) : loopMask (loopStep11 s) = loopMask s := by
  simp only [loopMask, loopStep11]

theorem loopStep12_mask (s : State) : loopMask (loopStep12 s) = loopMask s := by
  simp only [loopMask, loopStep12]

/-- What an iteration writes (43_memory_hard_loop.md R96). -/
theorem iterate_mask (perm : Fin 24 → Fin 24) (v : Variant) (s : State) : loopMask (iterate perm v s) = loopMask s := by
  rw [iterate, loopStep13_mask, loopStep12_mask, loopStep11_mask, loopStep10_mask, loopStep9_mask, loopStep8_mask,
    loopStep7_mask, loopStep6_mask, loopStep5_mask, loopStep4_mask, loopStep3_mask, loopStep2_mask, loopStep1_mask]

theorem iterateCounted_mask (perm : Fin 24 → Fin 24) (v : Variant) (s : State) :
    loopMask (iterateCounted perm v s) = loopMask s :=
  iterate_mask perm v s

/-- The iterations of MHL_RUN write what one iteration writes (43_memory_hard_loop.md R97). -/
theorem mhlRunEffect_loopMask (s : State) : loopMask (mhlRunEffect s) = loopMask (mhlInitEffect s) := by
  rw [mhlRunEffect]
  exact loopUp_keeps loopMask _ loopIterations (mhlInitEffect s) fun _ t => iterateCounted_mask _ _ t

/-- A mask that forgets more is kept where a mask that forgets less is. -/
theorem sumMask_of_chunkMask {s t : State} (h : chunkMask t = chunkMask s) : sumMask t = sumMask s :=
  (congrArg sumMask (eq_of_chunkMask h)).trans rfl

theorem runMask_of_loopMask {s t : State} (h : loopMask t = loopMask s) : runMask t = runMask s :=
  (congrArg runMask (eq_of_loopMask h)).trans rfl

theorem sumMask_of_runMask {s t : State} (h : runMask t = runMask s) : sumMask t = sumMask s :=
  (congrArg sumMask (eq_of_runMask h)).trans rfl

/-- What MHL_RUN writes (43_memory_hard_loop.md R97). -/
theorem mhlRunEffect_mask (s : State) : runMask (mhlRunEffect s) = runMask s :=
  (runMask_of_loopMask (mhlRunEffect_loopMask s)).trans (by simp only [runMask, mhlInitEffect])

/-- What FINALIZE writes (45_finalize_mux.md R104). -/
theorem finalizeEffect_mask (s : State) : sumMask (finalizeEffect s) = sumMask s := by
  have store : ∀ u, sumMask (finalizeStore u) = sumMask u := fun u => by simp only [sumMask, finalizeStore]
  have load : sumMask (finalizeLoad s) = sumMask s := by simp only [sumMask, finalizeLoad]
  rw [finalizeEffect, store, sumMask_of_chunkMask (finalizeLoop_mask s), load]

/-- What SUM writes (46_control.md R113). -/
theorem sumEffect_mask (s : State) : sumMask (sumEffect s) = sumMask s := by
  have absorb : sumMask (absorbEffect (clearDv s)) = sumMask s := by simp only [sumMask, absorbEffect, clearDv]
  have init : ∀ u, sumMask (spInitEffect u) = sumMask u := fun u =>
    (sumMask_of_chunkMask (spInitEffect_mask u)).trans (by simp only [sumMask, spInitLoad])
  have mux : ∀ u, sumMask (finalMuxEffect u) = sumMask u := fun u => by simp only [sumMask, finalMuxEffect]
  rw [sumEffect, mux, finalizeEffect_mask, sumMask_of_runMask (mhlRunEffect_mask _), init, absorb]

/-! The scratchpad keeps its form. -/

theorem shuffle_wf (perm : Fin 24 → Fin 24) (n : CellIndex) {m : Memory} (hm : Memory.wf m = true) :
    Memory.wf (shuffle perm n m) = true := by
  rw [shuffle]
  exact cellWrite_wf _ _ (cellWrite_wf _ _ (cellWrite_wf _ _ hm))

/-- A fold of cell writes keeps the canonical form. -/
theorem foldl_wf {α : Type} (f : Memory → α → Memory) (step : ∀ m a, Memory.wf m = true → Memory.wf (f m a) = true)
    (l : List α) {m : Memory} (hm : Memory.wf m = true) : Memory.wf (l.foldl f m) = true := by
  induction l generalizing m with
  | nil => exact hm
  | cons a rest ih => exact ih (step m a hm)

theorem initChunk_wf (ch : Nat) {s : State} (hm : Memory.wf s.sp = true) : Memory.wf (initChunk ch s).sp = true :=
  foldl_wf _ (fun _ _ h => cellWrite_wf _ _ h) _ hm

theorem spInitEffect_wf {s : State} (hm : Memory.wf s.sp = true) : Memory.wf (spInitEffect s).sp = true := by
  rw [spInitEffect]
  exact loopUp_induct (fun _ t => Memory.wf t.sp = true) initChunk chunkCount (spInitLoad s) hm
    fun k _ _ h => initChunk_wf k h

theorem finalizeChunk_wf (ch : Nat) {s : State} (hm : Memory.wf s.sp = true) :
    Memory.wf (finalizeChunk ch s).sp = true :=
  foldl_wf _ (fun _ _ h => cellWrite_wf _ _ h) _ hm

theorem finalizeEffect_wf {s : State} (hm : Memory.wf s.sp = true) : Memory.wf (finalizeEffect s).sp = true := by
  have h : Memory.wf (loopUp finalizeChunk chunkCount (finalizeLoad s)).sp = true :=
    loopUp_induct (fun _ t => Memory.wf t.sp = true) finalizeChunk chunkCount (finalizeLoad s) hm
      fun k _ _ h => finalizeChunk_wf k h
  rw [finalizeEffect]
  exact h

theorem iterate_wf (perm : Fin 24 → Fin 24) (v : Variant) {s : State} (hm : Memory.wf s.sp = true) :
    Memory.wf (iterate perm v s).sp = true := by
  have step3 : ∀ u : State, Memory.wf u.sp = true → Memory.wf (loopStep3 perm v u).sp = true := fun u h => by
    cases v
    exacts [h, h, shuffle_wf _ _ h]
  have step5 : ∀ u : State, Memory.wf u.sp = true → Memory.wf (loopStep5 v u).sp = true := fun u h => by
    cases v
    exacts [h, cellWrite_wf _ _ h, h]
  have step7 : ∀ u : State, Memory.wf u.sp = true → Memory.wf (loopStep7 v u).sp = true := fun u h => by
    cases v <;> exact h
  have step9 : ∀ u : State, Memory.wf u.sp = true → Memory.wf (loopStep9 perm v u).sp = true := fun u h => by
    cases v
    exacts [h, h, shuffle_wf _ _ h]
  have step13 : ∀ u : State, Memory.wf u.sp = true → Memory.wf (loopStep13 v u).sp = true := fun u h => by
    cases v
    exacts [h, cellWrite_wf _ _ h, h]
  have step4 : ∀ u : State, Memory.wf u.sp = true → Memory.wf (loopStep4 u).sp = true := fun u h => cellWrite_wf _ _ h
  have step11 : ∀ u : State, Memory.wf u.sp = true → Memory.wf (loopStep11 u).sp = true := fun u h => cellWrite_wf _ _ h
  have stores := step5 _ (step4 _ (step3 (loopStep2 (loopStep1 s)) hm))
  have shuffled := step9 (loopStep8 (loopStep7 v (loopStep6 _))) (step7 (loopStep6 _) stores)
  exact step13 (loopStep12 (loopStep11 _)) (step11 (loopStep10 _) shuffled)

theorem mhlRunEffect_wf {s : State} (hm : Memory.wf s.sp = true) : Memory.wf (mhlRunEffect s).sp = true := by
  rw [mhlRunEffect]
  exact loopUp_induct (fun _ t => Memory.wf t.sp = true) _ loopIterations (mhlInitEffect s) hm fun _ u _ h =>
    show Memory.wf (countIteration (iterate v2ShufflePerm (checkedVariant s) u)).sp = true from iterate_wf _ _ h

theorem sumEffect_wf {s : State} (hm : Memory.wf s.sp = true) : Memory.wf (sumEffect s).sp = true := by
  have absorbed : Memory.wf (absorbEffect (clearDv s)).sp = true := hm
  rw [sumEffect]
  exact finalizeEffect_wf (mhlRunEffect_wf (spInitEffect_wf absorbed))

/-! What every cell reads as after a shuffle and after the chunk loops' passes. -/

theorem neighbour_ne (n : CellIndex) :
    n ^^^ 1 ≠ n ∧ n ^^^ 2 ≠ n ∧ n ^^^ 3 ≠ n ∧ n ^^^ 1 ≠ n ^^^ 2 ∧ n ^^^ 1 ≠ n ^^^ 3 ∧ n ^^^ 2 ≠ n ^^^ 3 := by
  have key : ∀ u v : CellIndex, u ≠ v → n ^^^ u ≠ n ^^^ v := fun u v h e => h (by simpa using e)
  have zero : n ^^^ 0 = n := by simp
  refine ⟨?_, ?_, ?_, key _ _ (by decide), key _ _ (by decide), key _ _ (by decide)⟩
  · intro e; exact key 1 0 (by decide) (e.trans zero.symm)
  · intro e; exact key 2 0 (by decide) (e.trans zero.symm)
  · intro e; exact key 3 0 (by decide) (e.trans zero.symm)

/-- Every cell after `Shuffle(n)` (43_memory_hard_loop.md R95). -/
theorem cellRead_shuffle (perm : Fin 24 → Fin 24) (n n' : CellIndex) {m : Memory} (hm : Memory.wf m = true) :
    cellRead (shuffle perm n m) n' =
      let h := halfWords (cellRead m (n ^^^ 1)) (cellRead m (n ^^^ 2)) (cellRead m (n ^^^ 3))
      let g : Vector (BitVec 16) 24 := Vector.ofFn fun d => h[(perm d).val]
      if n' = n ^^^ 3 then chunkOfHalfWords g 2
      else if n' = n ^^^ 2 then chunkOfHalfWords g 1
      else if n' = n ^^^ 1 then chunkOfHalfWords g 0
      else cellRead m n' := by
  have h1 := cellWrite_wf (n ^^^ 1) (chunkOfHalfWords (Vector.ofFn fun d =>
    (halfWords (cellRead m (n ^^^ 1)) (cellRead m (n ^^^ 2)) (cellRead m (n ^^^ 3)))[(perm d).val]) 0) hm
  have h2 := cellWrite_wf (n ^^^ 2) (chunkOfHalfWords (Vector.ofFn fun d =>
    (halfWords (cellRead m (n ^^^ 1)) (cellRead m (n ^^^ 2)) (cellRead m (n ^^^ 3)))[(perm d).val]) 1) h1
  rw [shuffle]
  simp only []
  rw [cellRead_cellWrite _ _ _ h2, cellRead_cellWrite _ _ _ h1, cellRead_cellWrite _ _ _ hm]

end Sys2Proof.Machine
end

