-- ==== Sys2Proof/Laws/Cells.lean ====
section
/-! SUPPORT. The scratchpad as cells: a cell's bytes, equality by cells, and what a pass over a chunk leaves in every cell. -/

namespace Sys2Proof.Machine

/-- The bytes of a little-endian number that `MemRead` assembles (20_memory.md R43). -/
theorem memRead_byte (m : Memory) (addr n k : Nat) (hk : k < n) :
    memRead m addr n / 256 ^ k % 256 = (readByte m (addr + k)).toNat := by
  induction n with
  | zero => omega
  | succ n ih =>
    have hb : (readByte m (addr + n)).toNat < 256 := (readByte m (addr + n)).isLt
    rw [memRead]
    by_cases h : k = n
    · subst h
      rw [Nat.add_mul_div_left _ _ (by positivity), Nat.div_eq_of_lt (memRead_lt m addr k), Nat.zero_add, Nat.mod_eq_of_lt hb]
    · have hkn : k < n := by omega
      obtain ⟨d, rfl⟩ : ∃ d, n = k + (d + 1) := ⟨n - k - 1, by omega⟩
      rw [← ih hkn, Nat.pow_add, Nat.mul_assoc, Nat.add_mul_div_left _ _ (by positivity), Nat.pow_succ, Nat.mul_comm (256 ^ d),
        Nat.mul_assoc, Nat.add_mul_mod_self_left]

theorem laneByte_ofNat (v k : Nat) (hv : v < 256 ^ 8) :
    (laneByte (BitVec.ofNat 64 v) k).toNat = v / 256 ^ k % 256 := by
  have h64 : v < 2 ^ 64 := by simpa using hv
  simp only [laneByte, BitVec.extractLsb'_toNat, BitVec.toNat_ofNat, Nat.mod_eq_of_lt h64, Nat.shiftRight_eq_div_pow]
  rw [Nat.pow_mul]

/-- The low lane of a cell holds its bytes 0 to 7 (20_memory.md R44, R45). -/
theorem cellRead_lo_byte (m : Memory) (n : CellIndex) (k : Nat) (hk : k < 8) :
    laneByte (cellRead m n).lo k = readByte m (16 * n.toNat + k) := by
  apply BitVec.eq_of_toNat_eq
  rw [cellRead, laneByte_ofNat _ _ (memRead_lt _ _ _), memRead_byte _ _ _ _ hk]

/-- The high lane of a cell holds its bytes 8 to 15. -/
theorem cellRead_hi_byte (m : Memory) (n : CellIndex) (k : Nat) (hk : k < 8) :
    laneByte (cellRead m n).hi k = readByte m (16 * n.toNat + 8 + k) := by
  apply BitVec.eq_of_toNat_eq
  rw [cellRead, laneByte_ofNat _ _ (memRead_lt _ _ _), memRead_byte _ _ _ _ hk]

/-- No address at or beyond the scratchpad's end is listed. -/
theorem readByte_beyond {lo a : Nat} {m : Memory} (hm : Memory.wfFrom lo m = true) (ha : scratchpadBytes ≤ a) :
    readByte m a = unlistedByte := by
  induction m generalizing lo with
  | nil => rfl
  | cons e rest ih =>
    obtain ⟨k, v⟩ := e
    simp only [Memory.wfFrom, Bool.and_eq_true, decide_eq_true_eq] at hm
    rw [readByte, if_neg (by omega), if_neg (by omega)]
    exact ih hm.2

/-- Scratchpads in canonical form whose cells read alike are equal. -/
theorem memory_ext_cells {m m' : Memory} (hm : Memory.wf m = true) (hm' : Memory.wf m' = true)
    (h : ∀ n, cellRead m n = cellRead m' n) : m = m' := by
  refine memory_ext hm hm' fun a => ?_
  by_cases ha : scratchpadBytes ≤ a
  · rw [readByte_beyond hm ha, readByte_beyond hm' ha]
  · have hlt : a / 16 < 2 ^ 17 := by unfold scratchpadBytes at ha; omega
    have hn : (BitVec.ofNat 17 (a / 16)).toNat = a / 16 := by rw [BitVec.toNat_ofNat, Nat.mod_eq_of_lt hlt]
    have hc := h (BitVec.ofNat 17 (a / 16))
    by_cases hk : a % 16 < 8
    · have e := congrArg (fun p : Pair => laneByte p.lo (a % 16)) hc
      simp only [cellRead_lo_byte _ _ _ hk, hn] at e
      rwa [show 16 * (a / 16) + a % 16 = a by omega] at e
    · have hk' : a % 16 - 8 < 8 := by omega
      have e := congrArg (fun p : Pair => laneByte p.hi (a % 16 - 8)) hc
      simp only [cellRead_hi_byte _ _ _ hk', hn] at e
      rwa [show 16 * (a / 16) + 8 + (a % 16 - 8) = a by omega] at e

/-! A pass over a chunk (20_memory.md R44). -/

theorem chunkCell_toNat {ch : Nat} (hch : ch < 16384) (j : Fin 8) : (chunkCell ch j.val).toNat = 8 * ch + j.val := by
  have := j.isLt
  simp only [chunkCell, BitVec.toNat_ofNat]
  omega

/-- The cells of the chunks are all different. -/
theorem chunkCell_inj {ch ch' : Nat} (hch : ch < 16384) (hch' : ch' < 16384) {j j' : Fin 8}
    (h : chunkCell ch j.val = chunkCell ch' j'.val) : ch = ch' ∧ j = j' := by
  have e := congrArg BitVec.toNat h
  rw [chunkCell_toNat hch, chunkCell_toNat hch'] at e
  have := j.isLt
  have := j'.isLt
  exact ⟨by omega, Fin.ext (by omega)⟩

/-- Every cell is a sub-block of some chunk. -/
theorem exists_chunkCell (n : CellIndex) : ∃ ch, ch < 16384 ∧ ∃ j : Fin 8, n = chunkCell ch j.val := by
  have := n.isLt
  refine ⟨n.toNat / 8, by omega, ⟨n.toNat % 8, by omega⟩, BitVec.eq_of_toNat_eq ?_⟩
  rw [chunkCell_toNat (by omega)]
  simp only
  omega

/-- A fold that gives each cell named by `l`, all different, a new value made of its old one. -/
theorem cellRead_foldl_cells {α : Type} (c : α → CellIndex) (f : α → Pair → Pair) (l : List α)
    (hc : (l.map c).Nodup) {m : Memory} (hm : Memory.wf m = true) :
    (∀ j ∈ l, cellRead (l.foldl (fun m j => cellWrite m (c j) (f j (cellRead m (c j)))) m) (c j) = f j (cellRead m (c j))) ∧
    (∀ n, n ∉ l.map c → cellRead (l.foldl (fun m j => cellWrite m (c j) (f j (cellRead m (c j)))) m) n = cellRead m n) := by
  induction l generalizing m with
  | nil => exact ⟨fun j hj => absurd hj List.not_mem_nil, fun n _ => rfl⟩
  | cons a rest ih =>
    simp only [List.map_cons, List.nodup_cons] at hc
    obtain ⟨written, kept⟩ := ih hc.2 (cellWrite_wf (c a) (f a (cellRead m (c a))) hm)
    refine ⟨fun j hj => ?_, fun n hn => ?_⟩
    · rw [List.foldl_cons]
      rcases List.mem_cons.1 hj with rfl | hj
      · rw [kept _ hc.1, cellRead_cellWrite_same _ _ hm]
      · have hne : c j ≠ c a := fun e => hc.1 (e ▸ List.mem_map_of_mem hj)
        rw [written j hj, cellRead_cellWrite_other _ hm hne]
    · simp only [List.map_cons, List.mem_cons, not_or] at hn
      rw [List.foldl_cons, kept n hn.2, cellRead_cellWrite_other _ hm hn.1]

theorem chunkCells_nodup {ch : Nat} (hch : ch < 16384) : ((List.finRange 8).map fun j => chunkCell ch j.val).Nodup :=
  (List.nodup_finRange 8).map fun _ _ h => (chunkCell_inj hch hch h).2

/-- One pass of SP_INIT's chunk loop (42_scratchpad_init.md R88): every sub-block of the blocks buffer is encrypted and copied to its
cell of the chunk; no other cell changes. -/
theorem initChunk_cells {ch : Nat} (hch : ch < 16384) {s : State} (hm : Memory.wf s.sp = true) :
    (∀ j, subBlock (initChunk ch s).blk j = cnRoundsPair s.rk (subBlock s.blk j)) ∧
    (∀ j : Fin 8, cellRead (initChunk ch s).sp (chunkCell ch j.val) = cnRoundsPair s.rk (subBlock s.blk j)) ∧
    (∀ ch' j, ch' < 16384 → ch' ≠ ch → cellRead (initChunk ch s).sp (chunkCell ch' (j : Fin 8).val) =
      cellRead s.sp (chunkCell ch' j.val)) := by
  have blk : ∀ j, subBlock (initChunk ch s).blk j = cnRoundsPair s.rk (subBlock s.blk j) := fun j => subBlock_blocksOf _ j
  obtain ⟨written, kept⟩ := cellRead_foldl_cells (fun j : Fin 8 => chunkCell ch j.val)
    (fun j _ => subBlock (encryptBlocks s).blk j) (List.finRange 8) (chunkCells_nodup hch) hm
  refine ⟨blk, fun j => (written j (List.mem_finRange j)).trans (blk j), fun ch' j hch' hne => kept _ fun h => ?_⟩
  obtain ⟨j', -, e⟩ := List.mem_map.1 h
  exact hne (chunkCell_inj hch hch' e).1.symm

/-- One pass of FINALIZE's chunk loop (45_finalize_mux.md R104): every cell of the chunk becomes the encryption of its XOR with its
sub-block, the blocks buffer takes the chunk so made, and no other cell changes. -/
theorem finalizeChunk_cells {ch : Nat} (hch : ch < 16384) {s : State} (hm : Memory.wf s.sp = true) :
    (∀ j : Fin 8, cellRead (finalizeChunk ch s).sp (chunkCell ch j.val) =
      cnRoundsPair s.rk ((cellRead s.sp (chunkCell ch j.val)).xor (subBlock s.blk j))) ∧
    (∀ j : Fin 8, subBlock (finalizeChunk ch s).blk j =
      cnRoundsPair s.rk ((cellRead s.sp (chunkCell ch j.val)).xor (subBlock s.blk j))) ∧
    (∀ ch' j, ch' < 16384 → ch' ≠ ch → cellRead (finalizeChunk ch s).sp (chunkCell ch' (j : Fin 8).val) =
      cellRead s.sp (chunkCell ch' j.val)) := by
  obtain ⟨written, kept⟩ := cellRead_foldl_cells (fun j : Fin 8 => chunkCell ch j.val)
    (fun j old => cnRoundsPair s.rk (old.xor (subBlock s.blk j))) (List.finRange 8) (chunkCells_nodup hch) hm
  have cells : ∀ j : Fin 8, cellRead (finalizeChunk ch s).sp (chunkCell ch j.val) =
      cnRoundsPair s.rk ((cellRead s.sp (chunkCell ch j.val)).xor (subBlock s.blk j)) := fun j => written j (List.mem_finRange j)
  refine ⟨cells, fun j => (subBlock_blocksOf _ j).trans (cells j), fun ch' j hch' hne => kept _ fun h => ?_⟩
  obtain ⟨j', -, e⟩ := List.mem_map.1 h
  exact hne (chunkCell_inj hch hch' e).1.symm

theorem chunkCount_eq : chunkCount = 16384 := by rw [chunkCount]

/-- Sub-block `j` of the blocks buffer before pass `ch` of SP_INIT's loop (42_scratchpad_init.md R88). -/
def spInitBlock (s : State) : Nat → Fin 8 → Pair
  | 0, j => subBlock (blocksFromSt s.st) j
  | ch + 1, j => cnRoundsPair (expandKey (keyFromStLo s)) (spInitBlock s ch j)

/-- All of what SP_INIT leaves in the cells and in the blocks buffer (42_scratchpad_init.md R88). -/
theorem spInitEffect_cells {s : State} (hm : Memory.wf s.sp = true) :
    (spInitEffect s).rk = expandKey (keyFromStLo s) ∧
    (∀ ch, ch < 16384 → ∀ j : Fin 8, cellRead (spInitEffect s).sp (chunkCell ch j.val) = spInitBlock s (ch + 1) j) ∧
    (∀ j, subBlock (spInitEffect s).blk j = spInitBlock s 16384 j) := by
  obtain ⟨-, hrk, hcells, hblk⟩ := loopUp_induct (fun n (t : State) => Memory.wf t.sp = true ∧ t.rk = expandKey (keyFromStLo s) ∧
      (∀ ch, ch < n → ∀ j : Fin 8, cellRead t.sp (chunkCell ch j.val) = spInitBlock s (ch + 1) j) ∧
      (∀ j, subBlock t.blk j = spInitBlock s n j)) initChunk chunkCount (spInitLoad s)
    ⟨hm, rfl, fun _ h => absurd h (Nat.not_lt_zero _), fun _ => rfl⟩ (by
      rintro k t hk ⟨hwf, hrk, hcells, hblk⟩
      rw [chunkCount_eq] at hk
      obtain ⟨blk, written, kept⟩ := initChunk_cells (ch := k) (by omega) hwf
      have hrk' : (initChunk k t).rk = t.rk := rfl
      refine ⟨initChunk_wf k hwf, hrk'.trans hrk, fun ch hch j => ?_, fun j => ?_⟩
      · by_cases e : ch = k
        · rw [e, written j, hrk, hblk j, spInitBlock]
        · rw [kept ch j (by omega) e, hcells ch (by omega) j]
      · rw [blk j, hrk, hblk j, spInitBlock])
  rw [spInitEffect]
  exact ⟨hrk, fun ch hch j => hcells ch (by rw [chunkCount_eq]; exact hch) j, fun j => by rw [hblk j, chunkCount_eq]⟩

/-- Sub-block `j` of the blocks buffer before pass `ch` of FINALIZE's loop (45_finalize_mux.md R104). -/
def finalizeBlock (s : State) : Nat → Fin 8 → Pair
  | 0, j => subBlock (blocksFromSt s.st) j
  | ch + 1, j =>
    cnRoundsPair (expandKey (keyFromStHi s)) ((cellRead s.sp (chunkCell ch j.val)).xor (finalizeBlock s ch j))

/-- All of what FINALIZE's loop leaves in the cells and in the blocks buffer (45_finalize_mux.md R104). -/
theorem finalizeLoop_cells {s : State} (hm : Memory.wf s.sp = true) :
    let t := loopUp finalizeChunk chunkCount (finalizeLoad s)
    (∀ ch, ch < 16384 → ∀ j : Fin 8, cellRead t.sp (chunkCell ch j.val) = finalizeBlock s (ch + 1) j) ∧
    (∀ j, subBlock t.blk j = finalizeBlock s 16384 j) := by
  obtain ⟨-, -, hcells, hblk⟩ := loopUp_induct (fun n (t : State) => Memory.wf t.sp = true ∧ t.rk = expandKey (keyFromStHi s) ∧
      (∀ ch, ch < 16384 → ∀ j : Fin 8, cellRead t.sp (chunkCell ch j.val) =
        if ch < n then finalizeBlock s (ch + 1) j else cellRead s.sp (chunkCell ch j.val)) ∧
      (∀ j, subBlock t.blk j = finalizeBlock s n j)) finalizeChunk chunkCount (finalizeLoad s)
    ⟨hm, rfl, fun _ _ _ => rfl, fun _ => rfl⟩ (by
      rintro k t hk ⟨hwf, hrk, hcells, hblk⟩
      rw [chunkCount_eq] at hk
      obtain ⟨written, blk, kept⟩ := finalizeChunk_cells (ch := k) (by omega) hwf
      have old : ∀ j : Fin 8, cellRead t.sp (chunkCell k j.val) = cellRead s.sp (chunkCell k j.val) := fun j => by
        rw [hcells k (by omega) j, if_neg (by omega)]
      have hrk' : (finalizeChunk k t).rk = t.rk := rfl
      refine ⟨finalizeChunk_wf k hwf, hrk'.trans hrk, fun ch hch j => ?_, fun j => ?_⟩
      · by_cases e : ch = k
        · rw [e, written j, hrk, hblk j, old j, if_pos (Nat.lt_succ_self k), finalizeBlock]
        · rw [kept ch j hch e, hcells ch hch j]
          by_cases hlt : ch < k
          · rw [if_pos hlt, if_pos (by omega)]
          · rw [if_neg hlt, if_neg (by omega)]
      · rw [blk j, hrk, hblk j, old j, finalizeBlock])
  exact ⟨fun ch hch j => by rw [hcells ch hch j, if_pos (by rw [chunkCount_eq]; exact hch)], fun j => by rw [hblk j, chunkCount_eq]⟩

/-! Each effect as an update of the state it starts from. -/

theorem spInitEffect_eq (s : State) : spInitEffect s =
    { s with rk := expandKey (keyFromStLo s), sp := (spInitEffect s).sp, blk := (spInitEffect s).blk } :=
  eq_of_chunkMask (spInitEffect_mask s)

theorem mhlStepEffect_eq (s : State) :
    let t := mhlStepEffect s
    t = { s with sp := t.sp, a := t.a, b := t.b, c := t.c, c2 := t.c2, p := t.p, addr := t.addr, addr2 := t.addr2,
                 divr := t.divr, sqrtr := t.sqrtr, iter := t.iter } :=
  eq_of_loopMask (iterateCounted_mask _ _ s)

theorem mhlRunEffect_eq (s : State) :
    let t := mhlRunEffect s
    t = { s with sp := t.sp, a := t.a, b := t.b, c := t.c, c2 := t.c2, p := t.p, addr := t.addr, addr2 := t.addr2,
                 tweak := t.tweak, divr := t.divr, sqrtr := t.sqrtr, iter := t.iter } :=
  eq_of_runMask (mhlRunEffect_mask s)

theorem finalizeEffect_eq (s : State) :
    let t := finalizeEffect s
    t = { s with st := t.st, rk := expandKey (keyFromStHi s), sp := t.sp, blk := t.blk } := by
  have h := eq_of_chunkMask (finalizeLoop_mask s)
  simp only [finalizeEffect]
  rw [h]
  rfl

theorem sumEffect_eq (s : State) :
    let t := sumEffect s
    t = { s with st := t.st, sp := t.sp, rk := t.rk, blk := t.blk, a := t.a, b := t.b, c := t.c, c2 := t.c2, p := t.p,
                 addr := t.addr, addr2 := t.addr2, tweak := t.tweak, divr := t.divr, sqrtr := t.sqrtr, iter := t.iter,
                 sel := t.sel, digest := t.digest, status := t.status } :=
  eq_of_sumMask (sumEffect_mask s)

/-- SUM's effect on STATUS is to set DV (46_control.md R113). -/
theorem sumEffect_status (s : State) : (sumEffect s).status = statusDv true s.status := by
  have h : ∀ u : State, (finalizeEffect (mhlRunEffect (spInitEffect u))).status = u.status := fun u => by
    rw [finalizeEffect_eq, mhlRunEffect_eq, spInitEffect_eq]
  have e : (sumEffect s).status = statusDv true (finalizeEffect (mhlRunEffect (spInitEffect (absorbEffect (clearDv s))))).status := rfl
  rw [e, h]
  rfl

end Sys2Proof.Machine
end

