-- ==== Sys2Proof/Laws/Iteration.lean ====
section
/-! SUPPORT. One iteration of the memory-hard loop in each variant, and the 128-bit product and the shuffle it uses, each said once. -/

namespace Sys2Proof.Machine

/-- The product register's lanes (43_memory_hard_loop.md R92, step 8). -/
def productPair (u v : Word) : Pair where
  lo := (wideProduct u v).extractLsb' 0 64
  hi := (wideProduct u v).extractLsb' 64 64

/-- An iteration of variant 0 (43_memory_hard_loop.md R92). -/
theorem iterate_v0 (perm : Fin 24 → Fin 24) (s : State) :
    let addr := toAddr s.a
    let c := cnRoundPair (cellRead s.sp addr) s.a
    let m4 := cellWrite s.sp addr (s.b.xor c)
    let addr2 := toAddr c
    let c2 := cellRead m4 addr2
    let p := productPair c.lo c2.lo
    let sum : Pair := { lo := s.a.lo + p.hi, hi := s.a.hi + p.lo }
    iterate perm .v0 s =
      { s with addr := addr, addr2 := addr2, c := c, b := c, c2 := c2, p := p, a := sum.xor c2, sp := cellWrite m4 addr2 sum } := by
  intros
  unfold iterate loopStep1 loopStep2 loopStep3 loopStep4 loopStep5 loopStep6 loopStep7 loopStep8 loopStep9 loopStep10 loopStep11
    loopStep12 loopStep13
  rfl

/-- An iteration of variant 1 (43_memory_hard_loop.md R92). -/
theorem iterate_v1 (perm : Fin 24 → Fin 24) (s : State) :
    let addr := toAddr s.a
    let c := cnRoundPair (cellRead s.sp addr) s.a
    let m4 := cellWrite s.sp addr (s.b.xor c)
    let w := cellRead m4 addr
    let m5 := cellWrite m4 addr { lo := w.lo, hi := w.hi ^^^ (tprime (w.hi >>> 24) <<< 24) }
    let addr2 := toAddr c
    let c2 := cellRead m5 addr2
    let p := productPair c.lo c2.lo
    let sum : Pair := { lo := s.a.lo + p.hi, hi := s.a.hi + p.lo }
    let m11 := cellWrite m5 addr2 sum
    let u := cellRead m11 addr2
    iterate perm .v1 s =
      { s with addr := addr, addr2 := addr2, c := c, b := c, c2 := c2, p := p, a := sum.xor c2,
               sp := cellWrite m11 addr2 { lo := u.lo, hi := u.hi ^^^ s.tweak } } := by
  intros
  unfold iterate loopStep1 loopStep2 loopStep3 loopStep4 loopStep5 loopStep6 loopStep7 loopStep8 loopStep9 loopStep10 loopStep11
    loopStep12 loopStep13
  rfl

/-- An iteration of variant 2 (43_memory_hard_loop.md R92). -/
theorem iterate_v2 (perm : Fin 24 → Fin 24) (s : State) :
    let addr := toAddr s.a
    let c := cnRoundPair (cellRead s.sp addr) s.a
    let m4 := cellWrite (shuffle perm addr s.sp) addr (s.b.xor c)
    let addr2 := toAddr c
    let r := cellRead m4 addr2
    let c2 : Pair := { lo := r.lo, hi := r.hi ^^^ s.divr ^^^ s.sqrtr }
    let p := productPair c.lo c2.lo
    let sum : Pair := { lo := s.a.lo + p.hi, hi := s.a.hi + p.lo }
    iterate perm .v2 s =
      { s with addr := addr, addr2 := addr2, c := c, b := c, c2 := c2, p := p, a := sum.xor c2,
               sp := cellWrite (shuffle perm addr2 m4) addr2 sum, divr := v2Division c.lo c.hi, sqrtr := v2Root c.lo c.hi } := by
  intros
  unfold iterate loopStep1 loopStep2 loopStep3 loopStep4 loopStep5 loopStep6 loopStep7 loopStep8 loopStep9 loopStep10 loopStep11
    loopStep12 loopStep13 divSqrtEffect
  rfl

/-- The product register holds the 128-bit product of its factors (43_memory_hard_loop.md R92). -/
theorem productPair_eq (u v : Word) : productPair u v =
    { lo := BitVec.ofNat 64 (u.toNat * v.toNat), hi := BitVec.ofNat 64 (u.toNat * v.toNat / 2 ^ 64) } := by
  have hlt : u.toNat * v.toNat < 2 ^ 128 :=
    calc u.toNat * v.toNat < 2 ^ 64 * 2 ^ 64 := Nat.mul_lt_mul'' u.isLt v.isLt
      _ = 2 ^ 128 := by norm_num
  have hu := u.isLt
  have hv := v.isLt
  have e : (wideProduct u v).toNat = u.toNat * v.toNat := by
    rw [wideProduct, BitVec.toNat_mul, BitVec.toNat_setWidth, BitVec.toNat_setWidth, Nat.mod_eq_of_lt (a := u.toNat) (by omega),
      Nat.mod_eq_of_lt (a := v.toNat) (by omega), Nat.mod_eq_of_lt hlt]
  rw [productPair, Pair.mk.injEq]
  constructor <;> apply BitVec.eq_of_toNat_eq <;> simp [e, Nat.shiftRight_eq_div_pow]

/-- After `Shuffle(n)` half-word `l` of neighbour `i` is the source half-word the table names, as it was before
(43_memory_hard_loop.md R94, R95). -/
theorem shuffle_half (perm : Fin 24 → Fin 24) (n : CellIndex) {m : Memory} (hm : Memory.wf m = true) (i : Fin 3) (l : Fin 8) :
    cellHalf (cellRead (shuffle perm n m) (n ^^^ BitVec.ofNat 17 (i.val + 1))) l =
      let src := perm ⟨8 * i.val + l.val, by omega⟩
      cellHalf (cellRead m (n ^^^ BitVec.ofNat 17 (src.val / 8 + 1))) ⟨src.val % 8, by omega⟩ := by
  obtain ⟨-, -, -, h12, h13, h23⟩ := neighbour_ne n
  have target : cellRead (shuffle perm n m) (n ^^^ BitVec.ofNat 17 (i.val + 1)) = chunkOfHalfWords (Vector.ofFn fun d =>
      (halfWords (cellRead m (n ^^^ 1)) (cellRead m (n ^^^ 2)) (cellRead m (n ^^^ 3)))[(perm d).val]) i := by
    rw [cellRead_shuffle _ _ _ hm]
    match i with
    | 0 => exact (if_neg h13).trans ((if_neg h12).trans (if_pos rfl))
    | 1 => exact (if_neg h23).trans (if_pos rfl)
    | 2 => exact if_pos rfl
  have source : ∀ d : Fin 24, (halfWords (cellRead m (n ^^^ 1)) (cellRead m (n ^^^ 2)) (cellRead m (n ^^^ 3)))[d.val] =
      cellHalf (cellRead m (n ^^^ BitVec.ofNat 17 (d.val / 8 + 1))) ⟨d.val % 8, by omega⟩ := fun d => by
    rw [halfWords, Vector.getElem_ofFn]
    congr 1
    by_cases h0 : d.val < 8
    · rw [if_pos h0, show d.val / 8 = 0 by omega]; rfl
    · by_cases h1 : d.val < 16
      · rw [if_neg h0, if_pos h1, show d.val / 8 = 1 by omega]; rfl
      · rw [if_neg h0, if_neg h1, show d.val / 8 = 2 by omega]; rfl
  rw [target, cellHalf_chunkOfHalfWords, Vector.getElem_ofFn, source]

/-- A cell that is no neighbour of `n` stays as it was. -/
theorem shuffle_other (perm : Fin 24 → Fin 24) {n k : CellIndex} {m : Memory} (hm : Memory.wf m = true)
    (h : k ≠ n ^^^ 1 ∧ k ≠ n ^^^ 2 ∧ k ≠ n ^^^ 3) : cellRead (shuffle perm n m) k = cellRead m k := by
  rw [cellRead_shuffle _ _ _ hm]
  exact (if_neg h.2.2).trans ((if_neg h.2.1).trans (if_neg h.1))

end Sys2Proof.Machine
end

