-- ==== Sys2Proof/Laws/PerInstr.lean ====
section
/-! SUPPORT. Laws of every command as syntax, one lemma per constructor. -/

namespace Sys2Proof.Laws.EncodedFields

/-- The three fields of a command's word (30_encoding.md R62): OP is the command's opcode, KSRC its key source, RSV is 0. -/
def Statement (i : Instr) : Prop :=
  opField (encode i) = i.opcode ∧ ksrcField (encode i) = i.ksrc ∧ rsvField (encode i) = 0

theorem nop : Statement .nop := by unfold Statement; decide

theorem inClear : Statement .inClear := by unfold Statement; decide

theorem cacheZero : Statement .cacheZero := by unfold Statement; decide

theorem keccakAbsorb : Statement .keccakAbsorb := by unfold Statement; decide

theorem keccakPermute : Statement .keccakPermute := by unfold Statement; decide

theorem aesKeyexp (ksrc : BitVec 2) : Statement (.aesKeyexp ksrc) := by
  revert ksrc
  unfold Statement
  decide

theorem aesRound : Statement .aesRound := by unfold Statement; decide

theorem aesRounds : Statement .aesRounds := by unfold Statement; decide

theorem spInit : Statement .spInit := by unfold Statement; decide

theorem mhlInit : Statement .mhlInit := by unfold Statement; decide

theorem mhlStep : Statement .mhlStep := by unfold Statement; decide

theorem mhlRun : Statement .mhlRun := by unfold Statement; decide

theorem mhlShuffle : Statement .mhlShuffle := by unfold Statement; decide

theorem v2Divsqrt : Statement .v2Divsqrt := by unfold Statement; decide

theorem finalize : Statement .finalize := by unfold Statement; decide

theorem finalMux : Statement .finalMux := by unfold Statement; decide

theorem cellRead : Statement .cellRead := by unfold Statement; decide

theorem cellWrite : Statement .cellWrite := by unfold Statement; decide

theorem sum : Statement .sum := by unfold Statement; decide

end Sys2Proof.Laws.EncodedFields
end

