-- ==== Sys2Proof/Laws/Steps.lean ====
section
/-! SUPPORT. What a step, a host access and a command can do, said once. -/

namespace Sys2Proof.Machine

/-- All that a step which answers a next state can do: nothing, with no access pending, or the host's first pending access. -/
theorem step_cases {s t : State} (h : step s = .next t) : s.hostFault = none ∧
    ((s.hostQueue = [] ∧ t = s) ∨
      ∃ acc rest, s.hostQueue = acc :: rest ∧ hostAccess acc { s with hostQueue := rest } = .next t) := by
  rw [step, hostStep] at h
  cases hf : s.hostFault with
  | some why => rw [hf] at h; cases h
  | none =>
    rw [hf] at h
    cases hq : s.hostQueue with
    | nil => rw [hq] at h; injection h with h; exact ⟨rfl, .inl ⟨rfl, h.symm⟩⟩
    | cons acc rest => rw [hq] at h; exact ⟨rfl, .inr ⟨acc, rest, rfl, h⟩⟩

/-- The step of a host whose first pending access is `acc`. -/
theorem step_of_pending {s : State} {acc : HostAccess} {rest : List HostAccess} (hf : s.hostFault = none)
    (hq : s.hostQueue = acc :: rest) : step s = hostAccess acc { s with hostQueue := rest } := by
  rw [step, hostStep, hf, hq]

/-- A write to `CMD` (10_state.md R31). -/
theorem hostWrite_cmd (w : Word) (s : State) : hostWrite 0x070 w s = commandWrite w s := rfl

/-- A write to `IN_BYTE` (10_state.md R34). -/
theorem hostWrite_inByte (v : Word) (s : State) : hostWrite 0x074 v s = .next (pushInByte v s) := rfl

/-- Every command ends in one of two ways: its error, or its effect and the end of a command that succeeds. SUM clears `DIGEST` and
DV before it raises its error (46_control.md R113). -/
theorem exec_next (i : Instr) (s : State) : ∃ t, exec i s = .next t ∧
    ((∃ e, t = raiseError e s) ∨ (i = .sum ∧ ∃ e, t = raiseError e (clearDigest s)) ∨ ∃ f : State → State, t = complete (f s)) := by
  have run : ∀ check (f : State → State), ∃ t, runCommand check f s = .next t ∧
      ((∃ e, t = raiseError e s) ∨ ∃ f : State → State, t = complete (f s)) := fun check f => by
    cases check with
    | some e => exact ⟨_, rfl, .inl ⟨e, rfl⟩⟩
    | none => exact ⟨_, rfl, .inr ⟨f, rfl⟩⟩
  have weaken : ∀ {r : Result}, (∃ t, r = .next t ∧ ((∃ e, t = raiseError e s) ∨ ∃ f : State → State, t = complete (f s))) →
      ∃ t, r = .next t ∧ ((∃ e, t = raiseError e s) ∨ (i = .sum ∧ ∃ e, t = raiseError e (clearDigest s)) ∨
        ∃ f : State → State, t = complete (f s)) := fun ⟨t, h, c⟩ => ⟨t, h, c.imp_right .inr⟩
  cases i with
  | aesKeyexp ksrc =>
    refine weaken ?_
    show ∃ t, execAesKeyexp ksrc s = .next t ∧ _
    unfold execAesKeyexp
    cases keySource ksrc s with
    | some key => exact run _ _
    | none => exact run _ _
  | sum =>
    show ∃ t, execSum s = .next t ∧ _
    unfold execSum
    cases checkVariantThenInput s with
    | some e => exact ⟨_, rfl, .inr (.inl ⟨rfl, e, rfl⟩)⟩
    | none => exact ⟨_, rfl, .inr (.inr ⟨sumEffect, rfl⟩)⟩
  | nop => exact weaken (run none id)
  | inClear => exact weaken (run none inClearEffect)
  | cacheZero => exact weaken (run none cacheZeroEffect)
  | keccakAbsorb => exact weaken (run none absorbEffect)
  | keccakPermute => exact weaken (run none permuteEffect)
  | aesRound => exact weaken (run none aesRoundEffect)
  | aesRounds => exact weaken (run none aesRoundsEffect)
  | spInit => exact weaken (run none spInitEffect)
  | mhlInit => exact weaken (run (checkVariantThenInput s) mhlInitEffect)
  | mhlStep => exact weaken (run (checkVariant s) mhlStepEffect)
  | mhlRun => exact weaken (run (checkVariantThenInput s) mhlRunEffect)
  | mhlShuffle => exact weaken (run (checkCellIdx s) mhlShuffleEffect)
  | v2Divsqrt => exact weaken (run none divSqrtEffect)
  | finalize => exact weaken (run none finalizeEffect)
  | finalMux => exact weaken (run none finalMuxEffect)
  | cellRead => exact weaken (run (checkCellIdx s) cellReadEffect)
  | cellWrite => exact weaken (run (checkCellIdx s) cellWriteEffect)

end Sys2Proof.Machine
end

