-- ==== Sys2Proof/Laws/Units.lean ====
section
/-! SUPPORT. What the Keccak and AES units compute, one lemma each, so that no proof unfolds them. -/

namespace Sys2Proof.Machine

/-- `rotl64` is the rotation to the left (40_keccak.md R69). -/
theorem rotl64_eq (v : Word) (n : Nat) (h : n < 64) : rotl64 v n = v.rotateLeft n := by
  apply BitVec.eq_of_getLsbD_eq
  intro i hi
  rw [BitVec.getLsbD_rotateLeft_of_le h, rotl64]
  simp only [BitVec.getLsbD_or, BitVec.getLsbD_shiftLeft, BitVec.getLsbD_ushiftRight]
  by_cases hin : i < n
  · simp [hin, hi]
  · have : v.getLsbD (64 - n + i) = false := BitVec.getLsbD_of_ge _ _ (by omega)
    simp [hin, hi, this]

/-- `KeccakF` is the rounds 0 to 23, one after the other (40_keccak.md R69). -/
theorem keccakF_eq (s : Lanes) : keccakF s = loopUp keccakRound 24 s := by rw [keccakF]

/-- The sponge (40_keccak.md R72): the full blocks, then the padded last one. -/
theorem keccakAbsorb_eq (data : List Byte) : keccakAbsorb data =
    keccakF (xorRate (loopUp (absorbBlock data) (data.length / 136) (Vector.replicate 25 0)) (lastBlock data) 0) := by
  rw [keccakAbsorb]

/-- The AES round on 128-bit values is the round on their bytes (41_aes.md R76, R80). -/
theorem bytes16_cnRoundPair (v k : Pair) : bytes16 (cnRoundPair v k) = cnRound (bytes16 v) (bytes16 k) := by
  rw [cnRoundPair, bytes16_cell16]

/-- Ten rounds on 128-bit values are ten rounds on their bytes (41_aes.md R76, R81). -/
theorem bytes16_cnRoundsPair (rk : Vector RkWord 40) (v : Pair) : bytes16 (cnRoundsPair rk v) = cnRounds rk (bytes16 v) := by
  rw [cnRoundsPair, bytes16_cell16]

/-- Byte `r + 4c` of a round's result (41_aes.md R77 to R80): row `r` of the matrix times column `c` of the shifted S-box bytes, and
the key's byte. -/
theorem cnRound_get (s k : Block) (c : Fin 4) :
    let a := fun r : Fin 4 => sbox (s[r.val + 4 * ((c.val + r.val) % 4)]'(by omega))
    (cnRound s k)[4 * c.val] = (gmul2 (a 0) ^^^ gmul3 (a 1) ^^^ a 2 ^^^ a 3) ^^^ k[4 * c.val] ∧
    (cnRound s k)[4 * c.val + 1] = (a 0 ^^^ gmul2 (a 1) ^^^ gmul3 (a 2) ^^^ a 3) ^^^ k[4 * c.val + 1] ∧
    (cnRound s k)[4 * c.val + 2] = (a 0 ^^^ a 1 ^^^ gmul2 (a 2) ^^^ gmul3 (a 3)) ^^^ k[4 * c.val + 2] ∧
    (cnRound s k)[4 * c.val + 3] = (gmul3 (a 0) ^^^ a 1 ^^^ a 2 ^^^ gmul2 (a 3)) ^^^ k[4 * c.val + 3] := by
  have e0 : 4 * c.val / 4 = c.val := by omega
  have e1 : (4 * c.val + 1) / 4 = c.val := by omega
  have e2 : (4 * c.val + 2) / 4 = c.val := by omega
  have e3 : (4 * c.val + 3) / 4 = c.val := by omega
  have m0 : 4 * c.val % 4 = 0 := by omega
  have m1 : (4 * c.val + 1) % 4 = 1 := by omega
  have m2 : (4 * c.val + 2) % 4 = 2 := by omega
  have m3 : (4 * c.val + 3) % 4 = 3 := by omega
  refine ⟨?_, ?_, ?_, ?_⟩ <;>
  · simp only [cnRound, addRoundKey, Vector.getElem_ofFn, mixColumns, shiftRows, subBytes, e0, e1, e2, e3, m0, m1, m2, m3]
    simp

/-- A round key's bytes (10_state.md R21, 20_memory.md R49). -/
theorem roundKey_get (rk : Vector RkWord 40) (r : Fin 10) (i : Fin 16) :
    (roundKey rk r.val)[i.val] = rk[4 * r.val + i.val / 4].extractLsb' (8 * (i.val % 4)) 8 := by
  have hg : ∀ k (h : k < 40), rk.toList.getD k 0 = rk[k] := fun k h => by simp [List.getD_eq_getElem?_getD, h]
  rw [roundKey, Vector.getElem_ofFn, hg]

/-- The key schedule's list grows by one word a pass (41_aes.md R83). -/
theorem scheduleStep_length (k : Nat) (w : List RkWord) : (scheduleStep k w).length = w.length + 1 := by simp [scheduleStep]

/-- After `n` passes the schedule holds the eight key words, and each word `i + 8` made so far is as the recurrence says
(41_aes.md R83). -/
theorem schedule_words (key : KeyBytes) (n : Nat) :
    let w := loopUp scheduleStep n (keyWords key)
    w.length = n + 8 ∧ (∀ i, i < 8 → w.getD i 0 = (keyWords key).getD i 0) ∧
    (∀ i, i < n → w.getD (i + 8) 0 = w.getD i 0 ^^^ scheduleMix (i + 8) (w.getD (i + 7) 0)) := by
  induction n with
  | zero => exact ⟨by simp [keyWords], fun _ _ => rfl, fun i h => absurd h (Nat.not_lt_zero i)⟩
  | succ n ih =>
    obtain ⟨hlen, hkey, hrec⟩ := ih
    have old : ∀ i, i < n + 8 → (loopUp scheduleStep (n + 1) (keyWords key)).getD i 0 =
        (loopUp scheduleStep n (keyWords key)).getD i 0 := fun i hi => by
      rw [loopUp_succ, scheduleStep, List.getD_append _ _ _ _ (by omega)]
    have new : (loopUp scheduleStep (n + 1) (keyWords key)).getD (n + 8) 0 =
        (loopUp scheduleStep n (keyWords key)).getD n 0 ^^^
          scheduleMix (n + 8) ((loopUp scheduleStep n (keyWords key)).getD (n + 7) 0) := by
      rw [loopUp_succ, scheduleStep, List.getD_append_right _ _ _ _ (by omega), hlen, Nat.sub_self]
      rfl
    refine ⟨by rw [loopUp_succ, scheduleStep_length, hlen], fun i hi => (old i (by omega)).trans (hkey i hi), fun i hi => ?_⟩
    by_cases h : i = n
    · subst h
      rw [new, old i (by omega), old (i + 7) (by omega)]
    · rw [old (i + 8) (by omega), old i (by omega), old (i + 7) (by omega), hrec i (by omega)]

/-- `ExpandKey` (41_aes.md R83): the key's own words, then the recurrence. -/
theorem expandKey_words (key : KeyBytes) :
    (∀ i : Fin 8, (expandKey key)[i.val] =
      u32le key[4 * i.val] key[4 * i.val + 1] key[4 * i.val + 2] key[4 * i.val + 3]) ∧
    (∀ i : Fin 32, (expandKey key)[i.val + 8] =
      (expandKey key)[i.val] ^^^ scheduleMix (i.val + 8) (expandKey key)[i.val + 7]) := by
  obtain ⟨-, hkey, hrec⟩ := schedule_words key 32
  have get : ∀ i (h : i < 40), (expandKey key)[i] = (loopUp scheduleStep 32 (keyWords key)).getD i 0 := fun i h => by
    simp only [expandKey, Vector.getElem_ofFn]
  refine ⟨fun i => ?_, fun i => ?_⟩
  · rw [get _ (by omega), hkey i.val i.isLt]
    fin_cases i <;> rfl
  · rw [get _ (by omega), get _ (by omega), get _ (by omega), hrec i.val i.isLt]

end Sys2Proof.Machine
end

