-- ==== Sys2Proof/Tests/Slice0.lean ====
section
/-! SUPPORT. Tests. Every expected value is the spec's: words from 30_encoding.md R62 to R64, results from 95_test_vectors.md
and the rules' own examples. The last part gives, for each statement with hypotheses, a state that meets them. -/

namespace Sys2Proof.Tests

set_option Elab.async false

open Sys2Proof Sys2Proof.Machine

/-! Well-formedness (30_encoding.md R63). -/

theorem test_wellFormed_refuses_key_source_3 : (Instr.aesKeyexp 3).wellFormed = false := by decide

theorem test_wellFormed_key_sources :
    (Instr.aesKeyexp 0).wellFormed = true ∧ (Instr.aesKeyexp 1).wellFormed = true ∧ (Instr.aesKeyexp 2).wellFormed = true := by
  decide

/-! Decoding: each command's word, its 64 bits written out as RSV (54 bits), KSRC (2 bits), OP (8 bits). -/

theorem test_decode_control :
    decode ((0 : BitVec 54) ++ 0b00#2 ++ 0b00000000#8) = .legal .nop ∧
    decode ((0 : BitVec 54) ++ 0b00#2 ++ 0b00000001#8) = .legal .inClear ∧
    decode ((0 : BitVec 54) ++ 0b00#2 ++ 0b00000010#8) = .legal .cacheZero := by decide

theorem test_decode_keccak :
    decode ((0 : BitVec 54) ++ 0b00#2 ++ 0b00010000#8) = .legal .keccakAbsorb ∧
    decode ((0 : BitVec 54) ++ 0b00#2 ++ 0b00010001#8) = .legal .keccakPermute := by decide

theorem test_decode_aes :
    decode ((0 : BitVec 54) ++ 0b00#2 ++ 0b00100000#8) = .legal (.aesKeyexp 0) ∧
    decode ((0 : BitVec 54) ++ 0b01#2 ++ 0b00100000#8) = .legal (.aesKeyexp 1) ∧
    decode ((0 : BitVec 54) ++ 0b10#2 ++ 0b00100000#8) = .legal (.aesKeyexp 2) ∧
    decode ((0 : BitVec 54) ++ 0b00#2 ++ 0b00100001#8) = .legal .aesRound ∧
    decode ((0 : BitVec 54) ++ 0b00#2 ++ 0b00100010#8) = .legal .aesRounds := by decide

theorem test_decode_loop :
    decode ((0 : BitVec 54) ++ 0b00#2 ++ 0b00110000#8) = .legal .spInit ∧
    decode ((0 : BitVec 54) ++ 0b00#2 ++ 0b01000000#8) = .legal .mhlInit ∧
    decode ((0 : BitVec 54) ++ 0b00#2 ++ 0b01000001#8) = .legal .mhlStep ∧
    decode ((0 : BitVec 54) ++ 0b00#2 ++ 0b01000010#8) = .legal .mhlRun ∧
    decode ((0 : BitVec 54) ++ 0b00#2 ++ 0b01000011#8) = .legal .mhlShuffle ∧
    decode ((0 : BitVec 54) ++ 0b00#2 ++ 0b01010000#8) = .legal .v2Divsqrt := by decide

theorem test_decode_final :
    decode ((0 : BitVec 54) ++ 0b00#2 ++ 0b01100000#8) = .legal .finalize ∧
    decode ((0 : BitVec 54) ++ 0b00#2 ++ 0b01100001#8) = .legal .finalMux ∧
    decode ((0 : BitVec 54) ++ 0b00#2 ++ 0b01110000#8) = .legal .cellRead ∧
    decode ((0 : BitVec 54) ++ 0b00#2 ++ 0b01110001#8) = .legal .cellWrite ∧
    decode ((0 : BitVec 54) ++ 0b00#2 ++ 0b10000000#8) = .legal .sum := by decide

/-- 95_test_vectors.md section 6, E1 to E4. -/
theorem test_decode_illegal :
    decode 0x320 = .illegal .keySource3 ∧ decode 0x12 = .illegal .unassignedOpcode ∧ decode 0x400 = .illegal .reservedBits ∧
    decode 0x110 = .illegal .keySourceNotZero ∧ decode 0x8000000000000000 = .illegal .reservedBits := by decide

/-- 30_encoding.md R68: LOADIN "ab". -/
theorem test_loadIn : loadInAccesses [0x61, 0x62] = [.write 0x070 0x01, .write 0x074 0x61, .write 0x074 0x62] := by decide

theorem test_decodeTableWord : decodeTableWord 64 0x120 = some (.aesKeyexp 1) ∧ decodeTableWord 64 0x320 = none := by decide

/-! Steps. -/

/-- What a step or a meaning leaves, or the reset state where it answers no next state. -/
def after : Result → State
  | .next t => t
  | .fault _ => State.reset
  | .refused _ => State.reset

/-- A host with these accesses pending, after reset. -/
def pending (accesses : List HostAccess) : State := { State.reset with hostQueue := accesses }

/-- `STATUS` as the host reads it after one step. -/
def statusAfter (s : State) : Word := statusWord (after (step s)).status

/-- 95_test_vectors.md section 6: E1 to E4. -/
theorem test_illegal_words_status :
    statusAfter (pending [.write 0x070 0x320]) = 0x00200103 ∧ statusAfter (pending [.write 0x070 0x12]) = 0x00120103 ∧
    statusAfter (pending [.write 0x070 0x400]) = 0x00000103 ∧ statusAfter (pending [.write 0x070 0x110]) = 0x00100103 := by
  decide +kernel

/-- E5 and E8: MHL_INIT. -/
theorem test_mhlInit_errors :
    statusAfter { pending [.write 0x070 0x40] with variant := 7 } = 0x00400203 ∧
    statusAfter { pending [.write 0x070 0x40] with variant := 1 } = 0x00400303 := by decide +kernel

/-- E7 and E9: MHL_STEP checks VARIANT and not the input's length. -/
theorem test_mhlStep_checks :
    statusAfter { pending [.write 0x070 0x41] with variant := 3 } = 0x00410203 ∧
    statusAfter { pending [.write 0x070 0x41] with variant := 1 } = 0x00410001 := by decide +kernel

/-- E10 and program P5: SUM with a wrong variant and with a short input. -/
theorem test_sum_errors :
    statusAfter { pending [.write 0x070 0x80] with variant := 5 } = 0x00800203 ∧
    statusAfter { pending [.write 0x070 0x80] with variant := 1, inLen := 42 } = 0x00800303 := by decide +kernel

/-- E11 and E12: CELL_READ at the boundary. -/
theorem test_cellRead_bounds :
    statusAfter { pending [.write 0x070 0x70] with cellIdx := 0x20000 } = 0x00700403 ∧
    statusAfter { pending [.write 0x070 0x70] with cellIdx := 0x1FFFF } = 0x00700001 := by decide +kernel

/-- 46_control.md R108's example: a NOP clears the error. -/
theorem test_nop_clears_the_error :
    statusAfter { pending [.write 0x070 0x00] with
      status := { State.reset.status with done := true, err := true, errcode := 0x02, lastop := 0x40 } } = 0x00000001 := by
  decide +kernel

/-- Program P3, step 3 of E16: CACHE_ZERO clears DV and the Cache. -/
theorem test_cacheZero :
    let s := { pending [.write 0x070 0x02] with
      status := { State.reset.status with done := true, dv := true, lastop := 0x80 }, sp := [(3, 5)], iter := 9, x := ⟨1, 2⟩ }
    statusAfter s = 0x00020001 ∧ (after (step s)).sp = [] ∧ (after (step s)).iter = 0 ∧ (after (step s)).x = ⟨1, 2⟩ := by
  decide +kernel

/-- E14: IN_CLEAR. -/
theorem test_inClear :
    (after (step { pending [.write 0x070 0x01] with inBytes := [0x61, 0x62, 0x63], inLen := 3 })).inLen = 0 := by decide +kernel

/-- E18 and 10_state.md R38: the ID register. -/
theorem test_read_id : (after (step (pending [.read 0x07F]))).hostReads = [0x434E435200070007] := by decide +kernel

/-- 10_state.md R18: a reserved address is a host fault, and no step follows it. -/
theorem test_reserved_write_faults :
    (after (step (pending [.write 0x019 0, .write 0x070 0]))).hostFault = some (.reserved 0x019) := by decide +kernel

/-- Program P1, step 2: an IN_BYTE write appends the low byte. -/
theorem test_inByte_appends :
    (after (step (pending [.write 0x074 0xFF61]))).inBytes = [0x61] ∧ (after (step (pending [.write 0x074 0xFF61]))).inLen = 1 := by
  have h : (pending []).inLen.toNat < Config.inMax := by simp [Config.inMax, pending, State.reset]
  have e : step (pending [.write 0x074 0xFF61]) = .next (pushInByte 0xFF61 (pending [])) := rfl
  rw [e]
  simp only [after, pushInByte]
  rw [if_pos h]
  decide

/-! Keccak (40_keccak.md). -/

/-- 95_test_vectors.md 2.1 (a): the empty input. -/
theorem test_absorb_empty :
    (after (exec .keccakAbsorb State.reset)).st[0] = 0x3C23F7860146D2C5 := by decide +kernel

/-- 40_keccak.md R72, corner cases 1 to 3: the last block of an empty input, of 135 bytes and of a whole block. -/
theorem test_last_block :
    lastBlock [] = [0x01] ++ List.replicate 134 0 ++ [0x80] ∧
    lastBlock (List.replicate 135 0) = List.replicate 135 0 ++ [0x81] ∧
    lastBlock (List.replicate 136 7) = [0x01] ++ List.replicate 134 0 ++ [0x80] := by decide +kernel

/-- One round of the zero state is RC[round] in lane 0 (40_keccak.md R69, R70), by hand. -/
theorem test_round_of_zero :
    keccakRound 23 (Vector.replicate 25 0) = (Vector.replicate 25 0).set 0 0x8000000080008008 := by decide +kernel

/-- 40_keccak.md R71: the walk's first positions, by hand: (1,0), (0,2), (2,1), (1,2). -/
theorem test_rotation_offsets :
    rotationOffsets.getD 1 0 = 1 ∧ rotationOffsets.getD 10 0 = 3 ∧ rotationOffsets.getD 7 0 = 6 ∧
    rotationOffsets.getD 11 0 = 10 := by decide

/-! CryptoNight-AES (41_aes.md). -/

/-- The operands `x` and `k` of 95_test_vectors.md section 3, and its key 00..1f. -/
def aesState : State :=
  { State.reset with
    key := #v[0x0706050403020100, 0x0F0E0D0C0B0A0908, 0x1716151413121110, 0x1F1E1D1C1B1A1918]
    x := { lo := 0x7766554433221100, hi := 0xFFEEDDCCBBAA9988 }
    k := { lo := 0x0706050403020100, hi := 0x0F0E0D0C0B0A0908 } }

/-- 95_test_vectors.md 3.1 (a). -/
theorem test_aesKeyexp :
    let t := after (exec (.aesKeyexp 0) aesState)
    t.rk[8] = 0x9FC273A5 ∧ t.rk[9] = 0x98C476A1 ∧ rkwValue t.rk 12 = 0x1799A7C97F8256C6 ∧ rkwValue t.rk 19 = 0x0A820A64334D0D30 := by
  decide +kernel

/-- E1: KSRC 3. -/
theorem test_aesKeyexp_key_source_3 : (after (exec (.aesKeyexp 3) aesState)).status.errcode = 0x01 := by decide +kernel

/-- 95_test_vectors.md 3.2, third row. -/
theorem test_aesRound :
    (after (exec .aesRound aesState)).y = { lo := 0x71FD62F0DAE47863, hi := 0xAC84E6DEFF360FA5 } := by decide +kernel

/-- 95_test_vectors.md 3.3, first row: the ten rounds after the key expansion of 3.1 (a). -/
theorem test_aesRounds :
    (after (exec .aesRounds { aesState with rk := expandKey (keyFromKey aesState) })).y =
      { lo := 0x059FE812BE2043DE, hi := 0xBAA79AE02BCBE3EB } := by decide +kernel

/-- 95_test_vectors.md 3.3, last row: all round keys zero, as after reset. -/
theorem test_aesRounds_zero_keys :
    (after (exec .aesRounds State.reset)).y = { lo := 0x3636363636363636, hi := 0x3636363636363636 } := by decide +kernel

/-! The halves of one pass of SP_INIT's chunk loop (the loop has 16,384 passes; Laws/Cells.lean says what every pass leaves). -/

/-- 42_scratchpad_init.md R88 with RK zero: ten rounds of 0 give bytes 0x36 (95_test_vectors.md 3.3, last row). -/
theorem test_encryptBlocks :
    subBlock (encryptBlocks State.reset).blk 7 = { lo := 0x3636363636363636, hi := 0x3636363636363636 } := by decide +kernel

/-- Sub-block `j` of chunk `ch` is cell `8*ch + j` (20_memory.md R44): chunk 16,383 ends at cell 131,071. -/
theorem test_copyBlocks :
    let t := copyBlocks 16383 { State.reset with blk := blocksOf fun j => { lo := BitVec.ofNat 64 j.val, hi := 5 } }
    cellRead t.sp 131071 = { lo := 7, hi := 5 } ∧ cellRead t.sp 131065 = { lo := 1, hi := 5 } ∧ cellRead t.sp 131063 = Pair.zero := by
  decide +kernel

/-! The memory-hard loop. The start state S0 of 95_test_vectors.md 4.1. -/

def s0 : State :=
  { State.reset with
    a := { lo := 0x10, hi := 0x1111111111111111 }
    b := { lo := 0x20, hi := 0x2222222222222222 }
    sp :=
      [((0 : CellIndex), (⟨0x0A0A0A0A0A0A0A0A, 0x0B0B0B0B0B0B0B0B⟩ : Pair)), (1, ⟨0x0101010101010101, 0x0202020202020202⟩),
       (2, ⟨0x0303030303030303, 0x0404040404040404⟩), (3, ⟨0x0505050505050505, 0x0606060606060606⟩),
       (0x176A4, ⟨0x0123456789ABCDEF, 0xFEDCBA9876543210⟩), (0x176A5, ⟨0x0123456789ABCDF0, 0xFEDCBA9876543211⟩),
       (0x176A6, ⟨0x0123456789ABCDF1, 0xFEDCBA9876543212⟩), (0x176A7, ⟨0x0123456789ABCDF2, 0xFEDCBA9876543213⟩)].foldl
        (fun m e => cellWrite m e.1 e.2) [] }

/-- 95_test_vectors.md 4.1 (a): variant 0. -/
theorem test_mhlStep_v0 :
    let t := after (exec .mhlStep s0)
    t.a = { lo := 0x01AEC1E4D89CE903, hi := 0xB9F526F7228C8EAF } ∧ t.b = { lo := 0x7C61776A61776A6C, hi := 0x667B6D707B6D7066 } ∧
    t.p = { hi := 0x008D8483513724E2, lo := 0x36188B5E43C7ABAC } ∧ t.addr2 = 0x176A6 ∧ t.iter = 1 ∧
    cellRead t.sp 1 = { lo := 0x7C61776A61776A4C, hi := 0x44594F52594F5244 } ∧
    cellRead t.sp 0x176A6 = { lo := 0x008D8483513724F2, hi := 0x47299C6F54D8BCBD } := by decide +kernel

/-- 95_test_vectors.md 4.1 (b): variant 1, the tweak on the stored value only. -/
theorem test_mhlStep_v1 :
    let t := after (exec .mhlStep { s0 with variant := 1, tweak := 0x0123456789ABCDEF })
    t.a = { lo := 0x01AEC1E4D89CE903, hi := 0xB9F526F7228C8EAF } ∧
    cellRead t.sp 0x176A6 = { lo := 0x008D8483513724F2, hi := 0x460AD908DD737152 } := by decide +kernel

/-- 95_test_vectors.md 4.1 (d): the write-side tweak. -/
theorem test_iterate_v1_write_tweak :
    cellRead (iterate defaultShufflePerm .v1 State.reset).sp 0 = { lo := 0x6363636363636363, hi := 0x6363636373636363 } := by
  decide +kernel

/-- 95_test_vectors.md 4.1 (c): variant 2 with the default table. -/
theorem test_iterate_v2 :
    let t := iterate defaultShufflePerm .v2 { s0 with divr := 0x0000000500000007, sqrtr := 0x3 }
    t.a = { lo := 0x01AEC1E4D89CE903, hi := 0xB9F526F2228C8EAB } ∧ t.c2.hi = 0xFEDCBA9D76543216 ∧
    t.divr = 0xA26B6D3A745C545C ∧ t.sqrtr = 0x58CC03 ∧
    cellRead t.sp 3 = { lo := 0x0A0A0A0A0A0A0A0A, hi := 0x0B0B0B0B0B0B0B0B } ∧
    cellRead t.sp 0x176A7 = { lo := 0x0123456789ABCDF0, hi := 0xFEDCBA9876543211 } := by decide +kernel

/-- 95_test_vectors.md 4.2: the shuffle of cells 5, 6, 7 around cell 4. -/
theorem test_shuffle :
    let m := [((4 : CellIndex), (⟨0x4001, 0x4002⟩ : Pair)), (5, ⟨0x5001, 0x5002⟩), (6, ⟨0x6001, 0x6002⟩), (7, ⟨0x7001, 0x7002⟩)].foldl
      (fun m e => cellWrite m e.1 e.2) []
    let m' := shuffle defaultShufflePerm 4 m
    cellRead m' 4 = ⟨0x4001, 0x4002⟩ ∧ cellRead m' 5 = ⟨0x7001, 0x7002⟩ ∧ cellRead m' 6 = ⟨0x5001, 0x5002⟩ ∧
    cellRead m' 7 = ⟨0x6001, 0x6002⟩ := by decide +kernel

/-- 95_test_vectors.md section 4.2: MHL_SHUFFLE out of range. -/
theorem test_mhlShuffle_range : (after (exec .mhlShuffle { State.reset with cellIdx := 131072 })).status.errcode = 0x04 := by
  decide +kernel

/-- 95_test_vectors.md 4.2: to_addr. -/
theorem test_toAddr :
    toAddr ⟨0xF, 0⟩ = 0 ∧ toAddr ⟨0x1FFFF0, 0⟩ = 0x1FFFF ∧ toAddr ⟨0x200000, 0⟩ = 0 ∧ toAddr ⟨0x123456789ABCDEF0, 0⟩ = 0x1CDEF := by
  decide

/-- 95_test_vectors.md 4.2: tprime. -/
theorem test_tprime :
    tprime 0 = 0x10 ∧ tprime 1 = 0 ∧ tprime 16 = 0x30 ∧ tprime 17 = 0 ∧ tprime 32 = 0x10 ∧ tprime 33 = 0x10 ∧ tprime 48 = 0x30 ∧
    tprime 49 = 0x10 ∧ tprime 0xFFFFFFFFFFFFFFCE = 0x10 := by decide

/-- 43_memory_hard_loop.md R90's example: `A` and `B` from the lanes of 95_test_vectors.md 2.1 (f), and 5.3's tweak. -/
theorem test_mhlInit :
    let s := { State.reset with
      st := ((((((((Vector.replicate 25 (0 : Word)).set 0 0xE9F4AD55AB0FB993).set 1 0x0611E7383AD38787).set 2
        0xC7DF24A1F116C0E8).set 3 0xAFB138D9A4CCF384).set 4 0xF6CB096DB9B7DD67).set 5 0xB23BC6E84F30341A).set 6
        0x97DC2F840289C7EB).set 7 0x18583786A0ADB9E8 }
    let t := after (exec .mhlInit s)
    t.a = { lo := 0x1F3FA43812B864F4, hi := 0xB42A21D075E3B39D } ∧ t.b = { lo := 0x50030B25F39F0703, hi := 0xB7E90F5F04614A6C } := by
  decide +kernel

theorem test_mhlInit_tweak :
    (after (exec .mhlInit { State.reset with
      variant := 1, inLen := 43, st := (Vector.replicate 25 0).set 24 0x20FD74C54EC35838
      inBytes := List.replicate 35 0 ++ [0x65, 0x74, 0x75, 0x72, 0x20, 0x61, 0x64, 0x69] })).tweak = 0x499915E53CB62C5D := by
  decide +kernel

/-! The division and square root: 95_test_vectors.md 4.3, rows 2, 3, 5 and 6. -/

theorem test_v2Divsqrt :
    let t := after (exec .v2Divsqrt { State.reset with b := { lo := 0x123456789ABCDEF0, hi := 0x0FEDCBA987654321 } })
    t.divr = 0x0FAD8B941A5A5A5D ∧ t.sqrtr = 0x5D2239 ∧ t.c2.hi = 0 := by decide +kernel

theorem test_divSqrt_corners :
    v2Division 0 0xFFFFFFFFFFFFFFFF = 0x00000003FFFFFFFC ∧ v2Root 0 0xFFFFFFFFFFFFFFFF = 0x1FF ∧
    v2Division 0xFFFFFFFFFFFFFFFF 0xFFFFFFFFFFFFFFFF = 1 ∧ v2Root 0xFFFFFFFFFFFFFFFF 0xFFFFFFFFFFFFFFFF = 0 ∧
    v2Division 0x7FFFFFFE 0x80000001 = 0x8000000100000000 ∧ v2Root 0x7FFFFFFE 0x80000001 = 0xB504F3 := by decide +kernel

/-! Cells. -/

/-- 46_control.md R112's example, and 20_memory.md R50's byte order. -/
theorem test_cellWrite :
    let t := after (exec .cellWrite { State.reset with cellIdx := 1, x := { lo := 0x0807060504030201, hi := 0x0202020202020202 } })
    readByte t.sp 16 = 0x01 ∧ readByte t.sp 23 = 0x08 ∧ readByte t.sp 24 = 0x02 ∧ readByte t.sp 15 = 0 ∧ readByte t.sp 32 = 0 := by
  decide +kernel

/-- 45_finalize_mux.md R106: the selector is bits 1:0 of lane 0, and DV is set. -/
theorem test_finalMux :
    let t := after (exec .finalMux { State.reset with st := (Vector.replicate 25 0).set 0 0x428CD50A69559361 })
    t.sel = 1 ∧ t.status.dv = true := by decide +kernel

/-- 46_control.md R113's SUM clears DIGEST and DV where it fails. -/
theorem test_sum_failure_clears_the_digest :
    let t := after (exec .sum { State.reset with
      variant := 3, digest := Vector.replicate 4 7, status := { State.reset.status with dv := true } })
    t.digest = Vector.replicate 4 0 ∧ t.status.dv = false := by decide +kernel

/-- `withFetchWord` places a word that the next step takes. -/
theorem test_withFetchWord :
    step (State.reset.withFetchWord 64 0x71) = exec .cellWrite { State.reset with cmd := 0x71 } := rfl

/-! Witnesses: states and operands that meet the hypotheses of the statements, one for each clause, at the boundaries. -/

open Sys2Proof.Rule

/-- DecodeEncodeAgree. -/
theorem witness_decode : decode 0x220 = .legal (.aesKeyexp 2) := by decide

/-- IllegalWordsRaiseErrOpcode, each of the four ways to be illegal. -/
theorem witness_illegal : illegalWord 0x81 ∧ illegalWord 0x400 ∧ illegalWord 0x310 ∧ illegalWord 0x320 ∧ ¬ illegalWord 0x220 ∧
    (pending [.write 0x070 0x320]).hostFault = none ∧ (pending [.write 0x070 0x320]).hostQueue = [.write 0x070 0x320] := by
  refine ⟨?_, ?_, ?_, ?_, ?_, rfl, rfl⟩ <;> unfold illegalWord <;> decide +kernel

/-- StepRunsTheDecodedCommand: a write of a legal word, and a read of CMD. -/
theorem witness_step :
    ((pending [.write 0x070 0x80]).hostFault = none ∧ (pending [.write 0x070 0x80]).hostQueue = [.write 0x070 0x80] ∧
      decode 0x80 = .legal .sum) ∧
    ((pending [.read 0x070]).hostFault = none ∧ (pending [.read 0x070]).hostQueue = [.read 0x070]) := by decide +kernel

/-- IdleEngineKeepsItsState. -/
theorem witness_idle : State.reset.hostFault = none ∧ State.reset.hostQueue = [] := by decide

/-- ResetState: a pending reset. -/
theorem witness_reset : (pending [.reset]).hostFault = none ∧ (pending [.reset]).hostQueue = [.reset] := by decide

/-- StepKeepsTheInvariant: a state that meets the invariant, and the step it takes. -/
theorem witness_invariant : Inv (pending [.write 0x070 0]) ∧ ∃ t, step (pending [.write 0x070 0]) = .next t := by
  refine ⟨⟨rfl, ⟨rfl, by decide, by decide, by decide, by decide⟩, ⟨Nat.zero_le _, Nat.zero_le _⟩, fun _ => rfl⟩, ?_⟩
  exact ⟨complete { State.reset with cmd := 0 }, rfl⟩

/-- HostReadReturnsTheMappedValue: the first and the last address of the map. -/
theorem witness_host_read :
    (isReserved 0x000 = false ∧ isReserved 0x018 = false ∧ isReserved 0x07F = false ∧ isReserved 0x053 = false) ∧
    (pending [.read 0x07F]).hostFault = none ∧ (pending [.read 0x07F]).hostQueue = [.read 0x07F] := by decide +kernel

/-- HostWriteStoresOneRegister: the ends of the RW ranges. -/
theorem witness_host_write :
    (isRW 0x000 = true ∧ isRW 0x018 = true ∧ isRW 0x020 = true ∧ isRW 0x027 = true ∧ isRW 0x02A = true ∧ isRW 0x02D = true ∧
      isRW 0x030 = true ∧ isRW 0x031 = true ∧ isRW 0x036 = true ∧ isRW 0x038 = true ∧ isRW 0x072 = true ∧ isRW 0x075 = true) ∧
    (pending [.write 0x075 7]).hostFault = none ∧ (pending [.write 0x075 7]).hostQueue = [.write 0x075 7] := by decide +kernel

/-- FaultyAccessesLeaveTheEngineAlone: the ends of the reserved and RO ranges, IN_BYTE, and that the four kinds of address exclude
each other. -/
theorem witness_faulty_access :
    (isReserved 0x019 = true ∧ isReserved 0x01F = true ∧ isReserved 0x07E = true ∧ isReserved 0x080 = true ∧ isRO 0x028 = true ∧
      isRO 0x053 = true ∧ isRO 0x07B = true ∧ isRO 0x07F = true) ∧
    ((List.range 0x100).all fun a => (isRW a).toNat + (isRO a).toNat + (isReserved a).toNat +
      (decide (a = 0x070)).toNat + (decide (a = 0x074)).toNat == 1) = true ∧
    (pending [.read 0x074]).hostFault = none ∧ (pending [.read 0x074]).hostQueue = [.read 0x074] ∧
    (pending [.write 0x07F 1]).hostQueue = [.write 0x07F 1] := by decide +kernel

/-- HostFaultEndsTheRun. -/
theorem witness_host_fault :
    ({ State.reset with hostFault := some (.reserved 0x019) } : State).hostFault = some (.reserved 0x019) := rfl

/-- InByteWriteAppends, ErrorCodesAndTheirCauses: a buffer with room and a full one. -/
theorem witness_inByte : (pending [.write 0x074 5]).inLen.toNat < Config.inMax ∧
    ∃ n : Word, Config.inMax ≤ ({ pending [.write 0x074 5] with inLen := n } : State).inLen.toNat := by
  have hlt := Config.inMaxExtra.isLt
  refine ⟨by simp [Config.inMax, pending, State.reset], BitVec.ofNat 64 Config.inMax, ?_⟩
  show Config.inMax ≤ (BitVec.ofNat 64 Config.inMax).toNat
  rw [BitVec.toNat_ofNat, Nat.mod_eq_of_lt (by simp only [Config.inMax]; omega)]

/-- LoadInLoadsTheInput: two bytes, and no byte. -/
theorem witness_loadIn :
    (pending (loadInAccesses [0x61, 0x62] ++ [.read 0x073])).hostFault = none ∧
    (pending (loadInAccesses [0x61, 0x62] ++ [.read 0x073])).hostQueue = loadInAccesses [0x61, 0x62] ++ [.read 0x073] ∧
    (2 : Nat) ≤ Config.inMax ∧ ([] : List Byte).length ≤ Config.inMax := by
  refine ⟨rfl, rfl, ?_, Nat.zero_le _⟩
  show 2 ≤ Config.inMaxExtra.val + 43
  omega

/-- UnwrittenInputIsNotRead: other bytes beyond the input. -/
theorem witness_unwritten_input :
    ∀ k, k < ({ State.reset with inBytes := [1, 2], inLen := 1 } : State).inLen.toNat →
      inByte { ({ State.reset with inBytes := [1, 2], inLen := 1 } : State) with inBytes := [1, 9, 8] } k =
        inByte ({ State.reset with inBytes := [1, 2], inLen := 1 } : State) k := by
  intro k hk
  have h : k = 0 := by
    have e : ({ State.reset with inBytes := [1, 2], inLen := 1 } : State).inLen.toNat = 1 := rfl
    omega
  subst h
  rfl

/-- EachStepTakesOneAccess. -/
theorem witness_one_access : ∃ t, step (pending [.read 0x07F, .read 0x071]) = .next t := ⟨_, rfl⟩

/-- OnlyCommandsChangeTheScratchpad: a CELL_WRITE, and a reset of a scratchpad that holds a byte. -/
theorem witness_scratchpad_change :
    (after (step { pending [.write 0x070 0x71] with x := { lo := 1, hi := 0 } })).sp ≠ [] ∧
    (after (step { pending [.reset] with sp := [(3, 5)] })).sp ≠ [(3, 5)] := by decide +kernel

/-- OnlyFourCommandsReadVariant: a value that is no variant, next to the last that is; a command that reads it and one that does not. -/
theorem witness_variant :
    (Instr.mhlStep ∈ [Instr.mhlInit, .mhlStep, .mhlRun, .sum] ∧ (3 : Word) ≠ 0 ∧ (3 : Word) ≠ 1 ∧ (3 : Word) ≠ 2) ∧
    Instr.mhlShuffle ∉ [Instr.mhlInit, .mhlStep, .mhlRun, .sum] := by decide

/-- CommandsWriteOnlyTheirRegisters. -/
theorem witness_frame : ∃ t, exec .spInit State.reset = .next t := ⟨_, rfl⟩

/-- EveryCommandIsUsableAfterReset. -/
theorem witness_usable : (Instr.aesKeyexp 2).wellFormed = true := by decide

/-- CellReadResult, CellWriteResult, MhlShuffleResult: the last cell, and the first index that is none. -/
theorem witness_cells :
    (Memory.wf ({ State.reset with cellIdx := 131071 } : State).sp = true ∧
      ({ State.reset with cellIdx := 131071 } : State).cellIdx.toNat < 131072) ∧
    131072 ≤ ({ State.reset with cellIdx := 131072 } : State).cellIdx.toNat := by decide +kernel

/-- SpInitResult, FinalizeResult, ThreeDefaultShufflesRestore: a scratchpad in canonical form that is not empty. -/
theorem witness_canonical : Memory.wf s0.sp = true ∧ s0.sp ≠ [] := by decide +kernel

/-- SpInitDependsOnStAlone, SumDependsOnInputAndVariantAlone: two states that agree on the operands and differ in the Cache. -/
theorem witness_same_operands :
    Memory.wf State.reset.sp = true ∧ Memory.wf s0.sp = true ∧ State.reset.st = s0.st ∧ State.reset.variant = s0.variant ∧
    State.reset.inLen = s0.inLen ∧ State.reset.sp ≠ s0.sp ∧
    (∀ k, k < State.reset.inLen.toNat → inByte State.reset k = inByte s0 k) :=
  ⟨rfl, by decide +kernel, rfl, rfl, rfl, by decide +kernel, fun _ _ => rfl⟩

/-- SumResult, MhlRunIsInitAndSteps, SumDependsOnInputAndVariantAlone: the shortest variant 1 input, and one that is too short. -/
theorem witness_hashable :
    hashable State.reset ∧ hashable { State.reset with variant := 1, inLen := 43 } ∧
    ¬ hashable { State.reset with variant := 1, inLen := 42 } ∧ ¬ hashable { State.reset with variant := 3 } := by
  refine ⟨?_, ?_, ?_, ?_⟩ <;> unfold hashable <;> decide

/-- FinalMuxResult: the 200 bytes of a state. -/
theorem witness_st_bytes : ∀ i : Fin 200, (bytes200 s0.st)[i.val] = stByte s0 i := fun i => bytes200_get s0.st i.val i.isLt

/-- MhlStepResult, MhlStepMemoryFrame, StoredTweakDoesNotReachA: each variant, and the step each takes. -/
theorem witness_mhlStep : Memory.wf s0.sp = true ∧ s0.variant = 0 ∧ (∃ t, exec .mhlStep s0 = .next t) ∧
    (∃ t, exec .mhlStep { s0 with variant := 1 } = .next t) ∧ (∃ t, exec .mhlStep { s0 with variant := 2 } = .next t) :=
  ⟨by decide +kernel, rfl, ⟨_, rfl⟩, ⟨_, rfl⟩, ⟨_, rfl⟩⟩

/-- OtherKeyRegistersAreNotRead (its clause on SUM: `witness_hashable`). -/
theorem witness_round_keys : Instr.mhlStep ∈ [Instr.mhlInit, .mhlStep, .mhlRun] ∧
    Instr.finalize ∈ [Instr.aesKeyexp 0, .aesKeyexp 1, .aesKeyexp 2, .aesRounds, .spInit, .finalize] := by decide

/-- EveryCommandIsUsableAfterCacheZero: SUM on the shortest variant 1 input, and CELL_READ of the last cell. -/
theorem witness_usable_after_cache_zero :
    let s : State := { State.reset with variant := 1, inLen := 43, cellIdx := 131071 }
    Instr.sum.wellFormed = true ∧ Instr.cellRead.wellFormed = true ∧ (s.variant = 0 ∨ s.variant = 1 ∨ s.variant = 2) ∧
      (s.variant = 1 → 43 ≤ s.inLen.toNat) ∧ s.cellIdx.toNat < 131072 := by decide +kernel

/-- DivisionCornerCases: a dividend below its divisor. -/
theorem witness_division : (0x80000000 : Word).toNat < divisorOf 0 := by decide

/-- Binary64PrimitivesRoundToNearest: the ends of its ranges. -/
theorem witness_binary64 :
    f64Canonical { mant := 0, exp := 0 } ∧ f64Canonical { mant := 2 ^ 52, exp := -52 } ∧
    f64Canonical { mant := 2 ^ 53 - 1, exp := 11 } ∧ f64Value { mant := 2 ^ 53 - 1, exp := 11 } < 2 ^ 64 := by
  refine ⟨.inl rfl, .inr (by decide), .inr (by decide), ?_⟩
  norm_num [f64Value]

end Sys2Proof.Tests
end

section
/-! A command is one check and one effect, and ends in one of two STATUS writes (60_exceptions.md R117). The proofs
about all commands go through `exec_of_pass` and `exec_of_error`, and so split on the command only where its own effect counts. -/

namespace Sys2Proof.Machine

/-- The check of a command (60_exceptions.md R119 to R121); for AES_KEYEXP, that KSRC names a key source (30_encoding.md R63). -/
def commandCheck : Instr → State → Option ErrorCode
  | .aesKeyexp ksrc, s => if (keySource ksrc s).isSome then none else some .opcode
  | .mhlInit, s => checkVariantThenInput s
  | .mhlStep, s => checkVariant s
  | .mhlRun, s => checkVariantThenInput s
  | .sum, s => checkVariantThenInput s
  | .mhlShuffle, s => checkCellIdx s
  | .cellRead, s => checkCellIdx s
  | .cellWrite, s => checkCellIdx s
  | _, _ => none

/-- AES_KEYEXP's assignment (41_aes.md R84), where KSRC names a key source. -/
def keyexpEffect (ksrc : BitVec 2) (s : State) : State := (keySource ksrc s).elim s fun key => expandInto key s

/-- The assignments of a command whose check has passed. -/
def commandEffect : Instr → State → State
  | .nop => id
  | .inClear => inClearEffect
  | .cacheZero => cacheZeroEffect
  | .keccakAbsorb => absorbEffect
  | .keccakPermute => permuteEffect
  | .aesKeyexp ksrc => keyexpEffect ksrc
  | .aesRound => aesRoundEffect
  | .aesRounds => aesRoundsEffect
  | .spInit => spInitEffect
  | .mhlInit => mhlInitEffect
  | .mhlStep => mhlStepEffect
  | .mhlRun => mhlRunEffect
  | .mhlShuffle => mhlShuffleEffect
  | .v2Divsqrt => divSqrtEffect
  | .finalize => finalizeEffect
  | .finalMux => finalMuxEffect
  | .cellRead => cellReadEffect
  | .cellWrite => cellWriteEffect
  | .sum => sumEffect

/-- What a command assigns before it raises its error: SUM clears `DIGEST` and DV (46_control.md R113), the others nothing. -/
def beforeError : Instr → State → State
  | .sum => clearDigest
  | _ => id

/-- Every command but SUM has its check before its first assignment. -/
theorem exec_eq_runCommand {i : Instr} (hi : i ≠ .sum) (s : State) :
    exec i s = runCommand (commandCheck i s) (commandEffect i) s := by
  cases i with
  | sum => exact absurd rfl hi
  | aesKeyexp ksrc =>
    rw [exec, execAesKeyexp, commandCheck]
    cases h : keySource ksrc s <;> simp [commandEffect, keyexpEffect, h]
  | _ => rfl

/-- A command whose check finds no error has its effect and completes. -/
theorem exec_of_pass {i : Instr} {s : State} (h : commandCheck i s = none) :
    exec i s = .next (complete (commandEffect i s)) := by
  by_cases hi : i = .sum
  · subst hi
    rw [commandCheck] at h
    rw [exec, execSum, h]
    rfl
  · rw [exec_eq_runCommand hi, h, runCommand_success]

/-- A command whose check finds an error raises it. -/
theorem exec_of_error {i : Instr} {s : State} {e : ErrorCode} (h : commandCheck i s = some e) :
    exec i s = .next (raiseError e (beforeError i s)) := by
  by_cases hi : i = .sum
  · subst hi
    rw [commandCheck] at h
    rw [exec, execSum, h]
    rfl
  · rw [exec_eq_runCommand hi, h, runCommand_error]
    cases i with
    | sum => exact absurd rfl hi
    | _ => rfl

/-! What no command writes. -/

/-- The state with every field forgotten that some command's assignments write: what SUM writes, `Y` and `IN_LEN`. -/
def commandMask (s : State) : State := { sumMask s with y := Pair.zero, inLen := 0 }

theorem commandMask_of_sumMask {s t : State} (h : sumMask t = sumMask s) : commandMask t = commandMask s := by
  rw [commandMask, commandMask, h]

/-- No command's assignments write `KEY`, `X`, `K`, `CMD`, `VARIANT`, the bytes of `IN`, `CELLIDX` or the host agent. -/
theorem commandEffect_mask (i : Instr) (s : State) : commandMask (commandEffect i s) = commandMask s := by
  cases i with
  | aesKeyexp ksrc =>
    rw [commandEffect, keyexpEffect]
    cases keySource ksrc s <;> rfl
  | spInit => exact commandMask_of_sumMask ((sumMask_of_chunkMask (spInitEffect_mask s)).trans rfl)
  | mhlStep =>
    exact commandMask_of_sumMask (sumMask_of_runMask (runMask_of_loopMask (iterateCounted_mask _ _ s)))
  | mhlRun => exact commandMask_of_sumMask (sumMask_of_runMask (mhlRunEffect_mask s))
  | finalize => exact commandMask_of_sumMask (finalizeEffect_mask s)
  | sum => exact commandMask_of_sumMask (sumEffect_mask s)
  | _ => rfl

theorem beforeError_mask (i : Instr) (s : State) : commandMask (beforeError i s) = commandMask s := by
  cases i <;> rfl

@[simp] theorem commandEffect_cmd (i : Instr) (s : State) : (commandEffect i s).cmd = s.cmd :=
  congrArg (·.cmd) (commandEffect_mask i s)

@[simp] theorem beforeError_cmd (i : Instr) (s : State) : (beforeError i s).cmd = s.cmd :=
  congrArg (·.cmd) (beforeError_mask i s)

/-- A command answers a next state; it leaves `CMD` and the host's pending accesses, sets DONE, and LASTOP shows the word in `CMD`
(10_state.md R31, 60_exceptions.md R117). -/
theorem exec_reports (i : Instr) (s : State) : ∃ t, exec i s = .next t ∧ commandMask t = commandMask s ∧
    t.status.done = true ∧ t.status.lastop = s.cmd.extractLsb' 0 8 := by
  cases h : commandCheck i s with
  | none => exact ⟨_, exec_of_pass h, commandEffect_mask i s, rfl, by simp⟩
  | some e => exact ⟨_, exec_of_error h, beforeError_mask i s, rfl, by simp⟩

end Sys2Proof.Machine
end

section
/-! Blindness of an effect to the fields that a mask forgets, closed under sequence and counted loops; and the effects of
all commands are blind to `STATUS` (10_state.md R40). -/

namespace Sys2Proof.Machine

/-- `f` reads none of the fields that `m` forgets to decide what it does to the others: two states that `m` does not tell
apart stay so. -/
def BlindTo (m f : State → State) : Prop := ∀ ⦃s t⦄, m s = m t → m (f s) = m (f t)

/-- It is enough to compare each run with the run from the masked state. -/
theorem BlindTo.of_masked {m f : State → State} (h : ∀ s, m (f s) = m (f (m s))) : BlindTo m f := fun s t hst => by
  rw [h s, hst, ← h t]

theorem BlindTo.comp {m f g : State → State} (hf : BlindTo m f) (hg : BlindTo m g) : BlindTo m (f ∘ g) :=
  fun _ _ h => hf (hg h)

theorem BlindTo.loopUp {m : State → State} {f : Nat → State → State} (hf : ∀ k, BlindTo m (f k)) (n : Nat) :
    BlindTo m (loopUp f n) := fun s t h => by
  induction n with
  | zero => simpa only [loopUp_zero] using h
  | succ n ih => simpa only [loopUp_succ] using hf n ih

/-- The state with `STATUS` forgotten. -/
def statusMask (s : State) : State := { s with status := Status.reset }

/-- States with the same mask differ in `STATUS` only. -/
theorem eq_of_statusMask {s t : State} (h : statusMask t = statusMask s) : { t with status := s.status } = s :=
  congrArg (fun u => { u with status := s.status }) h

theorem commandCheck_statusMask (i : Instr) (s : State) : commandCheck i (statusMask s) = commandCheck i s := by
  cases i <;> rfl

theorem iterateCounted_blind_status (perm : Fin 24 → Fin 24) (v : Variant) :
    BlindTo statusMask (iterateCounted perm v) := by
  apply BlindTo.of_masked
  cases v <;> exact fun _ => rfl

theorem mhlStepEffect_blind_status : BlindTo statusMask mhlStepEffect :=
  .of_masked fun s => iterateCounted_blind_status v2ShufflePerm (checkedVariant s) (rfl : statusMask s = statusMask (statusMask s))

theorem mhlRunEffect_blind_status : BlindTo statusMask mhlRunEffect :=
  .of_masked fun s => BlindTo.loopUp (fun _ => iterateCounted_blind_status v2ShufflePerm (checkedVariant s)) loopIterations
    (rfl : statusMask (mhlInitEffect s) = statusMask (mhlInitEffect (statusMask s)))

theorem spInitEffect_blind_status : BlindTo statusMask spInitEffect :=
  have load : BlindTo statusMask spInitLoad := .of_masked fun _ => rfl
  have pass : ∀ ch, BlindTo statusMask (initChunk ch) := fun _ => .of_masked fun _ => rfl
  (BlindTo.loopUp pass chunkCount).comp load

theorem finalizeEffect_blind_status : BlindTo statusMask finalizeEffect :=
  have load : BlindTo statusMask finalizeLoad := .of_masked fun _ => rfl
  have pass : ∀ ch, BlindTo statusMask (finalizeChunk ch) := fun _ => .of_masked fun _ => rfl
  have store : BlindTo statusMask finalizeStore := .of_masked fun _ => rfl
  store.comp ((BlindTo.loopUp pass chunkCount).comp load)

theorem sumEffect_blind_status : BlindTo statusMask sumEffect :=
  have mux : BlindTo statusMask finalMuxEffect := .of_masked fun _ => rfl
  have absorb : BlindTo statusMask (absorbEffect ∘ clearDv) := .of_masked fun _ => rfl
  mux.comp (finalizeEffect_blind_status.comp (mhlRunEffect_blind_status.comp (spInitEffect_blind_status.comp absorb)))

/-- No command's assignments read `STATUS` (10_state.md R40). -/
theorem commandEffect_blind_status (i : Instr) : BlindTo statusMask (commandEffect i) := by
  cases i with
  | spInit => exact spInitEffect_blind_status
  | mhlStep => exact mhlStepEffect_blind_status
  | mhlRun => exact mhlRunEffect_blind_status
  | finalize => exact finalizeEffect_blind_status
  | sum => exact sumEffect_blind_status
  | aesKeyexp ksrc =>
    refine .of_masked fun s => ?_
    rw [commandEffect, keyexpEffect, keyexpEffect, show keySource ksrc (statusMask s) = keySource ksrc s from rfl]
    cases keySource ksrc s <;> rfl
  | _ => exact .of_masked fun _ => rfl

theorem beforeError_blind_status (i : Instr) : BlindTo statusMask (beforeError i) := by
  apply BlindTo.of_masked
  cases i <;> exact fun _ => rfl

end Sys2Proof.Machine
end

section

open Sys2Proof Sys2Proof.Machine

/-- Settles O22: the check and the effect of a command are blind to `STATUS`, and the STATUS write that ends it takes
DONE, ERR, ERRCODE and LASTOP from the outcome and from `CMD`. -/
theorem noCommandReadsStatus : Obligations.NoCommandReadsStatus := by
  intro i s u
  have sameStart : statusMask { s with status := u } = statusMask s := rfl
  have sameCheck : commandCheck i { s with status := u } = commandCheck i s :=
    (commandCheck_statusMask i _).symm.trans (commandCheck_statusMask i s)
  cases h : commandCheck i s with
  | none =>
    have same := commandEffect_blind_status i sameStart
    exact ⟨_, _, exec_of_pass h, exec_of_pass (sameCheck.trans h), eq_of_statusMask same, rfl, rfl, rfl, by simp⟩
  | some e =>
    have same := beforeError_blind_status i sameStart
    exact ⟨_, _, exec_of_error h, exec_of_error (sameCheck.trans h), eq_of_statusMask same, rfl, rfl, rfl, by simp⟩

/-- Settles O5: the host's write of a word to `CMD` is `commandWrite`, whose legal case is `exec` of the decoded command;
what that command reports is `exec_reports`. -/
theorem stepRunsTheDecodedCommand : Obligations.StepRunsTheDecodedCommand := by
  refine ⟨fun s w i rest hf hq hw => ?_, fun s rest hf hq => ?_, rfl, rfl⟩
  · have run : step s = exec i { s with hostQueue := rest, cmd := w } := by
      rw [step_of_pending hf hq, hostAccess, hostWrite_cmd, commandWrite, hw]
    obtain ⟨t, ht, keeps, hdone, hlast⟩ := exec_reports i { s with hostQueue := rest, cmd := w }
    exact ⟨run, t, run.trans ht, congrArg (·.cmd) keeps, congrArg (·.hostQueue) keeps, hdone, hlast⟩
  · rw [step_of_pending hf hq]
    rfl

end

namespace Sys2Proof.Machine

/-! The cell address (20_memory.md R46). -/

/-- The mask of `to_addr` keeps bits 20:4 in place. -/
theorem and_cellMask_toNat (w : Word) : (w &&& 0x1FFFF0).toNat = 16 * (w.toNat / 16 % 131072) := by
  have bits : w.toNat &&& (2 ^ 17 - 1) <<< 4 = ((w.toNat >>> 4) % 2 ^ 17) <<< 4 := by
    rw [← Nat.and_two_pow_sub_one_eq_mod]
    refine Nat.eq_of_testBit_eq fun i => ?_
    simp only [Nat.testBit_and, Nat.testBit_shiftLeft, Nat.testBit_shiftRight]
    by_cases h : 4 ≤ i <;> simp [h]
  calc (w &&& 0x1FFFF0).toNat
    _ = ((w.toNat >>> 4) % 2 ^ 17) <<< 4 := bits
    _ = 16 * (w.toNat / 16 % 131072) := by rw [Nat.shiftLeft_eq, Nat.shiftRight_eq_div_pow]; omega

/-- `to_addr` is bits 20:4 of the low lane, as a number. -/
theorem toAddr_toNat (v : Pair) : (toAddr v).toNat = v.lo.toNat / 16 % 131072 := by
  rw [toAddr, BitVec.toNat_setWidth, BitVec.toNat_ushiftRight, and_cellMask_toNat, Nat.shiftRight_eq_div_pow]
  omega

end Sys2Proof.Machine

section

open Sys2Proof Sys2Proof.Machine

/-- Settles O55: the masked lane is sixteen times the cell index, so the word-index form, its shift by 3, is twice it. -/
theorem cellAddressing : Obligations.CellAddressing := by
  refine fun v => ⟨toAddr_toNat v, ?_⟩
  rw [BitVec.toNat_ushiftRight, and_cellMask_toNat, ← toAddr_toNat, Nat.shiftRight_eq_div_pow]
  omega

end

section
/-! The command word (30_encoding.md R62 to R66): a legal word is its command's own encoding, and the words of R66's set are
the others. -/

namespace Sys2Proof

open Rule

/-- A word is its three fields, RSV on top (30_encoding.md R62). -/
theorem eq_append_fields (w : Word) : w = rsvField w ++ ksrcField w ++ opField w := by
  refine BitVec.eq_of_getLsbD_eq fun i hi => ?_
  simp only [rsvField, ksrcField, opField, BitVec.getLsbD_append, BitVec.getLsbD_extractLsb']
  by_cases h8 : i < 8
  · simp [h8]
  · by_cases h10 : i < 10
    · simp [h8, show i - 8 < 2 by omega, show 8 + (i - 8) = i by omega]
    · simp [h8, show ¬ i - 8 < 2 by omega, show i - 8 - 2 < 54 by omega, show 10 + (i - 8 - 2) = i by omega]

/-- An assigned opcode of R64's table takes no key source, and is the opcode of the command it selects. -/
theorem opcodeTable_legal {op : BitVec 8} {i : Instr} (h : opcodeTable op = .legal i) :
    i.opcode = op ∧ i.ksrc = 0 ∧ i.wellFormed = true := by
  unfold opcodeTable at h
  split at h
  case h_19 => cases h
  all_goals
    rename_i hop
    cases h
    exact ⟨BitVec.eq_of_toNat_eq hop.symm, rfl, rfl⟩

/-- The opcodes that R64's table leaves out are 0x20, which takes a key source, and the unassigned ones. -/
theorem opcodeTable_illegal_iff (op : BitVec 8) :
    (∃ why, opcodeTable op = .illegal why) ↔ op = 0x20 ∨ op.toNat ∉ assignedOps := by
  rw [← BitVec.toNat_inj]
  unfold opcodeTable
  split
  case h_19 =>
    refine iff_of_true ⟨_, rfl⟩ ?_
    simp_all [assignedOps, or_iff_not_imp_left]
  all_goals
    rename_i hop
    exact iff_of_false nofun (by rw [hop]; decide)

/-- A legal word is the encoding of the well-formed command it stands for (30_encoding.md R64, R65). -/
theorem decode_legal {w : Word} {i : Instr} (h : decode w = .legal i) : i.wellFormed = true ∧ encode i = w := by
  rw [decode] at h
  split_ifs at h with hrsv hop hksrc hksrc
  · cases h
    refine ⟨by simpa [Instr.wellFormed] using hksrc, ?_⟩
    rw [encode, Instr.ksrc, Instr.opcode, ← not_not.mp hrsv, ← hop, ← eq_append_fields]
  · obtain ⟨hopcode, hsource, hwf⟩ := opcodeTable_legal h
    refine ⟨hwf, ?_⟩
    rw [encode, hsource, hopcode, ← not_not.mp hrsv, ← not_not.mp hksrc, ← eq_append_fields]

/-- R64's list holds the word of every well-formed command. -/
theorem encode_mem_commandWords {i : Instr} (h : i.wellFormed = true) : ((encode i).toNat, i) ∈ commandWords := by
  cases i with
  | aesKeyexp ksrc => revert ksrc; decide
  | _ => decide

/-- Each word of R64's list decodes to the command beside it. -/
theorem decode_commandWords : ∀ p ∈ commandWords, decode (BitVec.ofNat 64 p.1) = .legal p.2 := by decide

theorem opField_toNat (w : Word) : (opField w).toNat = w.toNat % 2 ^ 8 := by
  simp [opField]

theorem ksrcField_toNat (w : Word) : (ksrcField w).toNat = w.toNat / 2 ^ 8 % 4 := by
  simp [ksrcField, Nat.shiftRight_eq_div_pow]

theorem rsvField_toNat (w : Word) : (rsvField w).toNat = w.toNat / 2 ^ 10 := by
  have := w.isLt
  simp only [rsvField, BitVec.extractLsb'_toNat, Nat.shiftRight_eq_div_pow]
  omega

/-- R66's set, which speaks of the word's number, by the word's fields. -/
theorem illegalWord_iff_fields (w : Word) : illegalWord w ↔
    (opField w).toNat ∉ assignedOps ∨ rsvField w ≠ 0 ∨ (opField w ≠ 0x20 ∧ ksrcField w ≠ 0) ∨
      (opField w = 0x20 ∧ ksrcField w = 3) := by
  simp [illegalWord, opField_toNat, ksrcField_toNat, rsvField_toNat, ← BitVec.toNat_inj]

/-- The tests of the decoder, in R65's order, refuse exactly the words of R66's set. -/
theorem decode_illegal_iff (w : Word) : (∃ why, decode w = .illegal why) ↔ illegalWord w := by
  rw [illegalWord_iff_fields, decode]
  split_ifs with hrsv hop hksrc hksrc
  · exact iff_of_true ⟨_, rfl⟩ (.inr (.inl hrsv))
  · exact iff_of_true ⟨_, rfl⟩ (.inr (.inr (.inr ⟨hop, hksrc⟩)))
  · refine iff_of_false nofun ?_
    rintro (h | h | ⟨h, -⟩ | ⟨-, h⟩)
    · exact h (by rw [hop]; decide)
    · exact hrsv h
    · exact h hop
    · exact hksrc h
  · exact iff_of_true ⟨_, rfl⟩ (.inr (.inr (.inl ⟨hop, hksrc⟩)))
  · rw [opcodeTable_illegal_iff]
    tauto

end Sys2Proof
end

section

open Sys2Proof Sys2Proof.Machine Sys2Proof.Rule

/-- Settles O1: a legal word is the encoding of a well-formed command, which R64's list holds; and the words of the list decode. -/
theorem commandWordsAreTheOpcodeMap : Obligations.CommandWordsAreTheOpcodeMap := by
  refine fun w i => ⟨fun h => ?_, fun h => ?_⟩
  · obtain ⟨hwf, rfl⟩ := decode_legal h
    exact encode_mem_commandWords hwf
  · simpa using decode_commandWords _ h

/-- Settles O3: the decoder refuses R66's set, and for a refused word the write of `CMD` is `raiseError` on the state that
holds the word. -/
theorem illegalWordsRaiseErrOpcode : Obligations.IllegalWordsRaiseErrOpcode := by
  refine ⟨by decide +kernel, decode_illegal_iff, fun s w rest hf hq hw => ?_⟩
  obtain ⟨why, hwhy⟩ := (decode_illegal_iff w).mpr hw
  rw [step_of_pending hf hq, hostAccess, hostWrite_cmd, commandWrite, hwhy, runCommand_error]
  rfl

end

section

/-! AES_KEYEXP (41_aes.md R82 to R84): the key sources byte by byte, and the schedule as R83's recurrence. -/

namespace Sys2Proof.Machine

open Rule

/-- Byte `i` of a key made of four lanes (30_encoding.md R63). -/
theorem keyOfLanes_get (lanes : Fin 4 → Word) (i : Fin 32) :
    (keyOfLanes (lanes 0) (lanes 1) (lanes 2) (lanes 3))[i.val] = laneByte (lanes ⟨i.val / 8, by omega⟩) (i.val % 8) := by
  have ofLane : ∀ q : Fin 4, 8 * q.val ≤ i.val → i.val < 8 * q.val + 8 →
      laneByte (lanes q) (i.val - 8 * q.val) = laneByte (lanes ⟨i.val / 8, by omega⟩) (i.val % 8) := fun q hlo hhi => by
    rw [show q = ⟨i.val / 8, by omega⟩ from Fin.ext (by simp only; omega), show i.val - 8 * (i.val / 8) = i.val % 8 by omega]
  simp only [keyOfLanes, Vector.getElem_ofFn]
  split_ifs with h8 h16 h24
  · exact ofLane 0 (Nat.zero_le _) h8
  · exact ofLane 1 (by simpa using h8) h16
  · exact ofLane 2 (by simpa using h16) h24
  · exact ofLane 3 (by simpa using h24) i.isLt

theorem keyFromKey_get (s : State) (i : Fin 32) : (keyFromKey s)[i.val] = keyRegister s i :=
  keyOfLanes_get (fun l => s.key[l.val]) i

theorem keyFromStLo_get (s : State) (i : Fin 32) : (keyFromStLo s)[i.val] = keyStLo s i :=
  keyOfLanes_get (fun l => s.st[l.val]) i

theorem keyFromStHi_get (s : State) (i : Fin 32) : (keyFromStHi s)[i.val] = keyStHi s i := by
  refine (keyOfLanes_get (fun l => s.st[4 + l.val]) i).trans ?_
  simp [keyStHi, stByte, laneByte, show (32 + i.val) / 8 = 4 + i.val / 8 by omega, show (32 + i.val) % 8 = i.val % 8 by omega]

/-- `RotWord` on a word whose byte 0 is bits 7:0 is the rotation to the right by a byte (41_aes.md R82). -/
theorem rotWord_eq_rotateRight (w : RkWord) : rotWord w = w.rotateRight 8 := by
  refine BitVec.eq_of_getLsbD_eq fun i hi => ?_
  simp only [rotWord, u32le, BitVec.getLsbD_append, BitVec.getLsbD_extractLsb', BitVec.getLsbD_rotateRight]
  interval_cases i <;> simp

/-- `rc_1 .. rc_4` are the powers of two: `xtime` reduces none of them (41_aes.md R82). -/
theorem rcon_eq_shift : ∀ j : Fin 4, rcon (j.val + 1) = 1 <<< j.val := by decide

/-- What the 32 passes of the machine's schedule mix in is what R83's recurrence says. -/
theorem scheduleMix_eq (k : Fin 32) (prev : RkWord) : scheduleMix (k.val + 8) prev = scheduleTerm (k.val + 8) prev := by
  have hrcon : rcon ((k.val + 8) / 8) = 1 <<< ((k.val + 8) / 8 - 1) := by
    simpa using rcon_eq_shift ⟨k.val / 8, by omega⟩
  rw [scheduleMix, scheduleTerm, rotWord_eq_rotateRight, hrcon]
  rfl

/-- `ExpandKey` meets R83's recurrence, whatever the source of the key's bytes. -/
theorem expandKey_schedule {source : Fin 32 → Byte} {key : KeyBytes} (h : ∀ i : Fin 32, key[i.val] = source i) :
    KeySchedule source (expandKey key) := by
  obtain ⟨hkey, hrec⟩ := expandKey_words key
  refine ⟨fun i => ?_, fun i => ?_⟩
  · rw [hkey i, ← h, ← h, ← h, ← h]
    rfl
  · rw [hrec i, scheduleMix_eq]

/-- AES_KEYEXP with a KSRC that names a key source (41_aes.md R84). -/
theorem exec_aesKeyexp_of_source {ksrc : BitVec 2} {s : State} {key : KeyBytes} (h : keySource ksrc s = some key) :
    exec (.aesKeyexp ksrc) s = .next { s with rk := expandKey key, status := ok s } := by
  rw [exec, execAesKeyexp, h]
  rfl

end Sys2Proof.Machine
end

section

open Sys2Proof Sys2Proof.Machine Sys2Proof.Rule

/-- Settles O33: the three key sources give the bytes of R63 to one key schedule; KSRC 3 fails the command's check. -/
theorem aesKeyexpResult : Obligations.AesKeyexpResult := fun s =>
  ⟨⟨_, expandKey_schedule (keyFromKey_get s), exec_aesKeyexp_of_source rfl⟩,
   ⟨_, expandKey_schedule (keyFromStLo_get s), exec_aesKeyexp_of_source rfl⟩,
   ⟨_, expandKey_schedule (keyFromStHi_get s), exec_aesKeyexp_of_source rfl⟩,
   exec_of_error (i := .aesKeyexp 3) rfl⟩

end

section

/-! The Keccak units (40_keccak.md): the tables, a round's step mappings lane by lane, and the sponge over the padded input. -/

namespace Sys2Proof.Machine

open Rule

/-! The tables (R70, R71). -/

/-- The machine's list of round constants is R70's table. -/
theorem rcLane_eq_roundConstant : ∀ round, round < 24 → rcLane round = roundConstant round := by decide

/-- R70's table holds the outputs of its LFSR. -/
theorem roundConstant_eq_lfsr : ∀ round, round < 24 → roundConstant round = roundConstantByLfsr round := by decide +kernel

/-- The machine's list of rotation offsets is R71's table. -/
theorem rotationOffsets_eq_rotation : ∀ x y : Fin 5, rotationOffsets.getD (x.val + 5 * y.val) 0 = rotation x y := by decide

/-- Each step of R71's walk adds the next triangular number. -/
theorem rotation_walk : ∀ t, t < 24 → rotation (walk t).1 (walk t).2 = (t + 1) * (t + 2) / 2 % 64 := by decide

theorem rotation_lt : ∀ x y : Fin 5, rotation x y < 64 := by decide

/-! The step mappings (R69), lane by lane. -/

theorem lane_ofFn (f : Fin 25 → Word) (x y : Fin 5) : lane (Vector.ofFn f) x y = f ⟨x.val + 5 * y.val, by omega⟩ := by
  rw [lane, Vector.getElem_ofFn]

/-- The column of the lane at `(x, y)`. -/
theorem laneIndex_mod (x y : Fin 5) : (x.val + 5 * y.val) % 5 = x.val := by omega

/-- The row of the lane at `(x, y)`. -/
theorem laneIndex_div (x y : Fin 5) : (x.val + 5 * y.val) / 5 = y.val := by omega

theorem columnParity_get (s : Lanes) (x : Fin 5) :
    (columnParity s)[x.val] = lane s x 0 ^^^ lane s x 1 ^^^ lane s x 2 ^^^ lane s x 3 ^^^ lane s x 4 := by
  rw [columnParity, Vector.getElem_ofFn]
  rfl

theorem lane_theta (s : Lanes) (x y : Fin 5) : lane (theta s) x y =
    lane s x y ^^^ ((columnParity s)[(x + 4).val] ^^^ (columnParity s)[(x + 1).val].rotateLeft 1) := by
  simp only [theta, lane_ofFn, Vector.getElem_ofFn, laneIndex_mod, rotl64_eq _ 1 (by decide)]
  rfl

/-- The machine's column of origin undoes R69's destination row. -/
theorem rhoPi_origin : ∀ x y : Fin 5, (3 * (2 * x + 3 * y).val + y.val) % 5 = x.val := by decide

theorem lane_rhoPi (s : Lanes) (x y : Fin 5) :
    lane (rhoPi s) y (2 * x + 3 * y) = (lane s x y).rotateLeft (rotation x y) := by
  simp only [rhoPi, lane_ofFn, laneIndex_mod, laneIndex_div, rhoPi_origin, rotationOffsets_eq_rotation]
  exact rotl64_eq _ _ (rotation_lt x y)

theorem lane_chi (s : Lanes) (x y : Fin 5) :
    lane (chi s) x y = lane s x y ^^^ (~~~lane s (x + 1) y &&& lane s (x + 2) y) := by
  simp only [chi, lane_ofFn, laneIndex_mod, laneIndex_div]
  rfl

theorem lane_iota (round : Nat) (s : Lanes) (x y : Fin 5) :
    lane (iota round s) x y = if x = 0 ∧ y = 0 then lane s 0 0 ^^^ rcLane round else lane s x y := by
  have origin : 0 = x.val + 5 * y.val ↔ x = 0 ∧ y = 0 := by omega
  simp only [lane, iota, Vector.getElem_set, origin]
  rfl

/-- The machine's round is R69's. -/
theorem keccakRound_spec {round : Nat} (h : round < 24) (s : Lanes) : KeccakRound round s (keccakRound round s) := by
  refine ⟨fun x => (columnParity s)[x.val], _, theta s, rhoPi (theta s), chi (rhoPi (theta s)),
    columnParity_get s, fun _ => rfl, lane_theta s, lane_rhoPi _, lane_chi _, fun x y => ?_⟩
  rw [keccakRound, lane_iota, rcLane_eq_roundConstant round h]

/-- The machine's permutation is R69's: the states between the rounds are those of its loop. -/
theorem keccakF_spec (s : Lanes) : KeccakF s (keccakF s) := by
  refine ⟨fun n => loopUp keccakRound n s, loopUp_zero _ _, (keccakF_eq s).symm, fun round h => ?_⟩
  simp only [loopUp_succ]
  exact keccakRound_spec h _

/-! The sponge (R72). -/

/-- `U64LE` of eight bytes of a string is the word of those bytes (00_scope.md R10). -/
theorem u64leAt_eq_word {bytes : List Byte} {start : Nat} {f : Nat → Byte}
    (h : ∀ k, k < 8 → bytes.getD (start + k) 0 = f k) : u64leAt bytes start = word f := by
  have same : word f = word fun k => bytes.getD (start + k) 0 := by simp only [word, h, Nat.reduceLT]
  rw [same]
  rfl

/-- XORing into the rate a block of bytes that are the padded input's, and permuting, absorbs that block. -/
theorem absorbBlock_of_padded {s : State} {bytes : List Byte} {start blk : Nat} (v : Lanes)
    (h : ∀ i, i < 136 → bytes.getD (start + i) 0 = paddedByte s (136 * blk + i)) :
    AbsorbBlock s blk v (keccakF (xorRate v bytes start)) := by
  refine ⟨xorRate v bytes start, fun j => ?_, keccakF_spec _⟩
  rw [xorRate, Vector.getElem_ofFn]
  by_cases hj : j.val < 17
  · have rateWord : u64leAt bytes (start + 8 * j.val) = word fun k => paddedByte s (136 * blk + 8 * j.val + k) :=
      u64leAt_eq_word fun k hk => by simpa only [Nat.add_assoc] using h (8 * j.val + k) (by omega)
    rw [if_pos hj, if_pos hj, rateWord]
  · rw [if_neg hj, if_neg hj]

/-- A byte of a full block is an input byte, with no padding. -/
theorem input_getD_of_fullBlock {s : State} {pos : Nat} (h : pos < 136 * (s.inLen.toNat / 136)) :
    (input s).getD pos 0 = paddedByte s pos := by
  have inside : pos < s.inLen.toNat := by omega
  rw [paddedByte, if_pos inside, if_neg (by omega), input_getD s pos 0 inside]
  exact BitVec.or_zero.symm

/-- A byte of a string followed by 0x01 and zeros, however many. -/
theorem getD_padded (rest : List Byte) (zeros i : Nat) :
    (rest ++ [0x01] ++ List.replicate zeros 0x00).getD i 0 =
      if i < rest.length then rest.getD i 0 else if i = rest.length then 0x01 else 0x00 := by
  rcases Nat.lt_trichotomy i rest.length with hlt | heq | hgt
  · rw [if_pos hlt, List.append_assoc, List.getD_append _ _ _ _ hlt]
  · subst heq
    simp
  · rw [if_neg (by omega), if_neg (by omega), List.getD_append_right _ _ _ _ (by simpa using hgt),
      List.getD_eq_getElem?_getD, List.getElem?_replicate]
    split_ifs <;> rfl

/-- A byte of the last block: the bytes left over, 0x01, zeros, and 0x80 in the last byte. -/
theorem lastBlock_getD (data : List Byte) (i : Nat) :
    (lastBlock data).getD i 0 =
      (if i < data.length % 136 then data.getD (136 * (data.length / 136) + i) 0
        else if i = data.length % 136 then 0x01 else 0x00) ||| (if i = 135 then 0x80 else 0x00) := by
  have hlen : (data.drop (136 * (data.length / 136))).length = data.length % 136 := by
    rw [List.length_drop]
    omega
  have hrest : (data.drop (136 * (data.length / 136))).getD i 0 = data.getD (136 * (data.length / 136) + i) 0 := by
    simp [List.getD_eq_getElem?_getD]
  have hbyte := getD_padded (data.drop (136 * (data.length / 136))) (135 - data.length % 136) i
  rw [hlen, hrest] at hbyte
  rw [← hbyte, lastBlock]
  by_cases hi : i = 135
  · subst hi
    rw [if_pos rfl, List.getD_eq_getElem?_getD, List.getElem?_set_self (by simp; omega)]
    rfl
  · rw [if_neg hi, List.getD_eq_getElem?_getD, List.getElem?_set_ne (Ne.symm hi), ← List.getD_eq_getElem?_getD]
    exact BitVec.or_zero.symm

/-- The machine's last block is what the padded input holds after the full blocks. -/
theorem lastBlock_getD_eq_paddedByte (s : State) (i : Nat) :
    (lastBlock (input s)).getD i 0 = paddedByte s (136 * (s.inLen.toNat / 136) + i) := by
  have left : i < s.inLen.toNat % 136 ↔ 136 * (s.inLen.toNat / 136) + i < s.inLen.toNat := by omega
  have mark : i = s.inLen.toNat % 136 ↔ 136 * (s.inLen.toNat / 136) + i = s.inLen.toNat := by omega
  rw [lastBlock_getD, input_length, paddedByte]
  congr 1
  · exact if_ctx_congr left (input_getD s _ 0) fun _ => if_congr mark rfl rfl
  · exact if_congr Nat.add_left_cancel_iff.symm rfl rfl

/-- The lanes after the first `n` blocks of the padded input. -/
def absorbedLanes (s : State) (n : Nat) : Lanes :=
  if n ≤ s.inLen.toNat / 136 then loopUp (absorbBlock (input s)) n (Vector.replicate 25 0) else keccakAbsorb (input s)

/-- Each block of the padded input leads from the lanes before it to the lanes after it. -/
theorem absorbedLanes_step (s : State) {blk : Nat} (h : blk ≤ s.inLen.toNat / 136) :
    AbsorbBlock s blk (absorbedLanes s blk) (absorbedLanes s (blk + 1)) := by
  rw [absorbedLanes, if_pos h, absorbedLanes]
  by_cases hlast : blk = s.inLen.toNat / 136
  · rw [if_neg (by omega), keccakAbsorb_eq, input_length, ← hlast]
    exact absorbBlock_of_padded _ fun i _ => by rw [Nat.zero_add, lastBlock_getD_eq_paddedByte, hlast]
  · rw [if_pos (by omega), loopUp_succ]
    exact absorbBlock_of_padded _ fun i hi => input_getD_of_fullBlock (by omega)

end Sys2Proof.Machine
end

section

open Sys2Proof Sys2Proof.Machine Sys2Proof.Rule

/-- Settles O29: each of the four tables' claims is a lemma of its own above. -/
theorem keccakTablesMatchTheirDefinitions : Obligations.KeccakTablesMatchTheirDefinitions :=
  ⟨fun round h => ⟨rcLane_eq_roundConstant round h, roundConstant_eq_lfsr round h⟩, rotationOffsets_eq_rotation, rfl, rotation_walk⟩

/-- Settles O30: the command has no check, and its effect is the machine's permutation, which is R69's. -/
theorem keccakPermuteResult : Obligations.KeccakPermuteResult := fun s =>
  ⟨keccakF s.st, keccakF_spec s.st, exec_of_pass (i := .keccakPermute) rfl⟩

/-- Settles O31: the command has no check, and the lanes of `absorbedLanes` lead block by block from zero to its result. -/
theorem keccakAbsorbResult : Obligations.KeccakAbsorbResult := by
  refine fun s => ⟨absorbedLanes s, fun i => ?_, fun _ => absorbedLanes_step s, ?_⟩
  · simp [absorbedLanes]
  · rw [absorbedLanes, if_neg (by omega)]
    exact exec_of_pass (i := .keccakAbsorb) rfl

end

section

/-! The AES units (41_aes.md R75 to R81): the field's inverse behind the S-box, and the machine's rounds read on 128-bit values. -/

namespace Sys2Proof.Machine

open Rule

/-! GF(2^8) (R75, R77). -/

/-- The inverse of R77's affine map. -/
def affineInv (y : Byte) : Byte := y.rotateLeft 1 ^^^ y.rotateLeft 3 ^^^ y.rotateLeft 6 ^^^ 0x05

theorem affine_affineInv : ∀ y : Byte, affine (affineInv y) = y := by decide +kernel

/-- What the S-box holds for a byte before the affine map: the byte's inverse in GF(2^8), and 0 at 0. -/
def sboxInverse (b : Byte) : Byte := affineInv (sbox b)

theorem sboxInverse_zero : sboxInverse 0 = 0 := by decide

/-- R77's table agrees with the product of R75. -/
theorem gfMul_sboxInverse : ∀ b : Byte, b ≠ 0 → gfMul b (sboxInverse b) = 1 := by decide +kernel

theorem sbox_eq_affine (b : Byte) : sbox b = affine (sboxInverse b) := (affine_affineInv (sbox b)).symm

theorem subBytes_get (s : Block) (i : Fin 16) : (subBytes s)[i.val] = sbox s[i.val] := by rw [subBytes, Vector.getElem_ofFn]

/-- The machine tests the top bit of a byte where R75 compares the byte with 128. -/
theorem xtime_eq_double (b : Byte) : xtime b = double b := by
  have top : b.getLsbD 7 = !decide (b.toNat < 128) := by
    rw [show b.getLsbD 7 = b.msb from rfl, BitVec.msb_eq_decide, ← decide_not]
    exact decide_eq_decide.mpr Nat.not_lt.symm
  rw [xtime, double, top]
  by_cases h : b.toNat < 128 <;> simp [h]

/-! The bytes of 128-bit values (00_scope.md R9). -/

/-- Byte `i` of a 128-bit value is byte `i` of its block. -/
theorem byteOf_eq_bytes16 (v : Pair) {i : Nat} (h : i < 16) : byteOf v i = (bytes16 v)[i] := by
  rw [bytes16_get]
  refine BitVec.eq_of_getLsbD_eq fun j hj => ?_
  rw [byteOf, BitVec.getLsbD_extractLsb', BitVec.getLsbD_append]
  by_cases hi : i < 8
  · simp [hi, getLsbD_laneByte, show 8 * i + j < 64 by omega]
  · simp [hi, getLsbD_laneByte, show ¬ 8 * i + j < 64 by omega, show 8 * i + j - 64 = 8 * (i - 8) + j by omega]

/-- A lane made of two round-key words has the bytes of the low word, then those of the high word. -/
theorem laneByte_append (hi lo : RkWord) {k : Nat} (h : k < 8) :
    laneByte (hi ++ lo) k = (if k < 4 then lo else hi).extractLsb' (8 * (k % 4)) 8 := by
  refine BitVec.eq_of_getLsbD_eq fun j hj => ?_
  rw [getLsbD_laneByte, BitVec.getLsbD_append, BitVec.getLsbD_extractLsb']
  by_cases hk : k < 4
  · simp [hk, show 8 * k + j < 32 by omega, Nat.mod_eq_of_lt hk]
  · simp [hk, show ¬ 8 * k + j < 32 by omega, show 8 * k + j - 32 = 8 * (k % 4) + j by omega]

/-- A round key's bytes are those of its four words, the lower word first in each lane (10_state.md R21, 20_memory.md R49). -/
theorem bytes16_roundKeyOf (rk : Vector RkWord 40) (r : Fin 10) : bytes16 (roundKeyOf rk r) = roundKey rk r.val := by
  refine Vector.ext fun i hi => ?_
  rw [roundKey_get rk r ⟨i, hi⟩, bytes16_get _ _ hi]
  simp only [roundKeyOf]
  by_cases h8 : i < 8
  · rw [if_pos h8, laneByte_append _ _ h8]
    by_cases h4 : i < 4
    · simp only [h4, if_true, show i / 4 = 0 by omega, Nat.add_zero]
    · simp only [h4, if_false, show i / 4 = 1 by omega]
  · rw [if_neg h8, laneByte_append _ _ (by omega), show (i - 8) % 4 = i % 4 by omega]
    by_cases h12 : i - 8 < 4
    · simp only [h12, if_true, show i / 4 = 2 by omega]
    · simp only [h12, if_false, show i / 4 = 3 by omega]

/-! The rounds (R80, R81). -/

/-- The machine's round is R76 to R80's. -/
theorem cnRoundPair_spec (v k : Pair) : AesRound v k (cnRoundPair v k) := by
  intro c
  have bytes := cnRound_get (bytes16 v) (bytes16 k) c
  simp only [← bytes16_cnRoundPair, ← byteOf_eq_bytes16, gmul2, gmul3, xtime_eq_double] at bytes
  exact bytes

/-- The value after the first `n` rounds of AES_ROUNDS. -/
def roundsPair (rk : Vector RkWord 40) (v : Pair) (n : Nat) : Pair :=
  cell16 (loopUp (fun r t => cnRound t (roundKey rk r)) n (bytes16 v))

theorem roundsPair_zero (rk : Vector RkWord 40) (v : Pair) : roundsPair rk v 0 = v := by
  rw [roundsPair, loopUp_zero, cell16_bytes16]

theorem roundsPair_ten (rk : Vector RkWord 40) (v : Pair) : roundsPair rk v 10 = cnRoundsPair rk v := by
  rw [cnRoundsPair, cnRounds, roundsPair]

theorem roundsPair_succ (rk : Vector RkWord 40) (v : Pair) (r : Fin 10) :
    roundsPair rk v (r.val + 1) = cnRoundPair (roundsPair rk v r.val) (roundKeyOf rk r) := by
  rw [cnRoundPair, bytes16_roundKeyOf, roundsPair, loopUp_succ, roundsPair, bytes16_cell16]

/-- The machine's ten rounds are R81's. -/
theorem cnRoundsPair_spec (rk : Vector RkWord 40) (v : Pair) : AesRounds rk v (cnRoundsPair rk v) := by
  refine ⟨roundsPair rk v, roundsPair_zero rk v, roundsPair_ten rk v, fun r => ?_⟩
  rw [roundsPair_succ]
  exact cnRoundPair_spec _ _

end Sys2Proof.Machine
end

section

open Sys2Proof Sys2Proof.Machine Sys2Proof.Rule

/-- Settles O32: the `q` of a byte is its S-box entry with the affine map undone, which is an inverse of the byte. -/
theorem sboxIsTheAffineInverse : Obligations.SboxIsTheAffineInverse :=
  ⟨fun b => ⟨sboxInverse b, fun h => (congrArg sboxInverse h).trans sboxInverse_zero, gfMul_sboxInverse b, sbox_eq_affine b⟩,
   subBytes_get⟩

/-- Settles O34: the command has no check, and its effect is the machine's round, which is R80's. -/
theorem aesRoundResult : Obligations.AesRoundResult := fun s =>
  ⟨cnRoundPair s.x s.k, cnRoundPair_spec s.x s.k, exec_of_pass (i := .aesRound) rfl⟩

/-- Settles O35: the command has no check, and its effect is the machine's ten rounds, which are R81's. -/
theorem aesRoundsResult : Obligations.AesRoundsResult := fun s =>
  ⟨cnRoundsPair s.rk s.x, cnRoundsPair_spec s.rk s.x, exec_of_pass (i := .aesRounds) rfl⟩

end

section

/-! SP_INIT (42_scratchpad_init.md R88) as one update of the state. -/

namespace Sys2Proof.Machine

open Rule

/-- The blocks buffer starts as lanes 8 to 23 of the Keccak state, two to a sub-block. -/
theorem subBlock_blocksFromSt (st : Vector Word 25) (j : Fin 8) :
    subBlock (blocksFromSt st) j = { lo := st[8 + 2 * j.val], hi := st[8 + 2 * j.val + 1] } := by
  rw [subBlock, blocksFromSt_get, blocksFromSt_get]
  rfl

/-- SP_INIT has no check, and writes `RK`, `BLK`, the scratchpad and STATUS. -/
theorem exec_spInit (s : State) : exec .spInit s = .next { s with
    rk := expandKey (keyFromStLo s), sp := (spInitEffect s).sp, blk := (spInitEffect s).blk, status := ok s } :=
  (exec_of_pass rfl).trans (congrArg (fun u => Host.Outcome.next (complete u)) (spInitEffect_eq s))

end Sys2Proof.Machine
end

section

open Sys2Proof Sys2Proof.Machine Sys2Proof.Rule

/-- Settles O37: `spInitBlock` is the chain of sub-blocks, each ten rounds after the one before (`cnRoundsPair_spec`), and
`spInitEffect_cells` finds its values in the cells and in the blocks buffer. -/
theorem spInitResult : Obligations.SpInitResult := by
  intro s hm
  obtain ⟨-, hcells, hblk⟩ := spInitEffect_cells hm
  exact ⟨_, spInitBlock s, exec_spInit s, rfl, spInitEffect_wf hm, expandKey_schedule (keyFromStLo_get s), subBlock_blocksFromSt s.st,
    fun ch hch j => ⟨cnRoundsPair_spec _ _, hcells ch hch j⟩, fun j => ⟨congrArg Pair.lo (hblk j), congrArg Pair.hi (hblk j)⟩⟩

end

section

/-! What the memory-hard loop is made of, in the terms of its statements: the two checks of its commands, the shuffle on
half-words, the cell operations on the scratchpad read by cells, and the division and square root (43_memory_hard_loop.md R90 to
R98, 44_isqrt_divmod.md R100). -/

namespace Sys2Proof.Machine

open Rule

/-! The checks (60_exceptions.md R119, R120, R122). -/

theorem checkVariant_eq (s : State) :
    checkVariant s = if s.variant ≠ 0 ∧ s.variant ≠ 1 ∧ s.variant ≠ 2 then some .variant else none := by
  cases h : checkVariant s with
  | none =>
    have legal := checkVariant_none.mp h
    rw [if_neg (by tauto)]
  | some e =>
    have illegal : ¬ (s.variant = 0 ∨ s.variant = 1 ∨ s.variant = 2) := by rw [← checkVariant_none, h]; exact nofun
    rw [if_pos (by tauto), checkVariant_some h]

theorem checkVariantThenInput_eq (s : State) : checkVariantThenInput s =
    if s.variant ≠ 0 ∧ s.variant ≠ 1 ∧ s.variant ≠ 2 then some .variant
    else if s.variant = 1 ∧ s.inLen.toNat < 43 then some .shortInput else none := by
  rw [checkVariantThenInput, checkVariant_eq, checkShortInput]
  split_ifs <;> rfl

/-! The shuffle (R94, R95). -/

/-- The lanes' half-words are those of the 128-bit number. -/
theorem halfOf_eq_cellHalf (v : Pair) (h : Fin 8) : halfOf v h.val = cellHalf v h := by
  refine BitVec.eq_of_getLsbD_eq fun j hj => ?_
  rw [halfOf, cellHalf, BitVec.getLsbD_extractLsb', BitVec.getLsbD_append]
  by_cases hh : h.val < 4
  · simp [hh, show 16 * h.val + j < 64 by omega]
  · simp [hh, show ¬ 16 * h.val + j < 64 by omega, show 16 * h.val + j - 64 = 16 * (h.val - 4) + j by omega]

/-- The machine's shuffle is R95's. -/
theorem shuffle_spec (perm : Fin 24 → Fin 24) (n : CellIndex) {m : Memory} (hm : Memory.wf m = true) :
    Shuffle perm n (cellRead m) (cellRead (shuffle perm n m)) := by
  refine ⟨fun k hk => shuffle_other perm hm ⟨hk 0, hk 1, hk 2⟩, fun d => ?_⟩
  have half := shuffle_half perm n hm ⟨d.val / 8, by omega⟩ ⟨d.val % 8, by omega⟩
  simp only [Nat.div_add_mod] at half
  rw [← halfOf_eq_cellHalf, ← halfOf_eq_cellHalf] at half
  exact half

/-! Cells (20_memory.md R45, R46). -/

/-- A cell store, on the scratchpad read by cells. -/
theorem cellRead_cellWrite_eq_put {m : Memory} (n : CellIndex) (v : Pair) (hm : Memory.wf m = true) :
    cellRead (cellWrite m n v) = Cells.put (cellRead m) n v :=
  funext fun k => cellRead_cellWrite n k v hm

theorem cellAddress_eq_toAddr (v : Pair) : cellAddress v = toAddr v := by
  apply BitVec.eq_of_toNat_eq
  rw [toAddr_toNat, cellAddress, BitVec.extractLsb'_toNat, Nat.shiftRight_eq_div_pow]

/-! The division and square root (44_isqrt_divmod.md R100). -/

theorem divisorOf_lt (blo : Word) : divisorOf blo < 2 ^ 32 :=
  Nat.or_lt_two_pow (Nat.mod_lt _ (by decide)) (by decide)

theorem v2Divisor_toNat (blo : Word) : (v2Divisor blo).toNat = divisorOf blo := by
  rw [v2Divisor, divisorOf, BitVec.toNat_or, BitVec.toNat_and, ← Nat.and_two_pow_sub_one_eq_mod]
  rfl

/-- The quotient's low half and the remainder above it do not overlap, so their OR is their sum. -/
theorem v2Division_eq_divOf (blo bhi : Word) : v2Division blo bhi = divOf blo bhi := by
  have hr : bhi.toNat % divisorOf blo < 2 ^ 32 :=
    (Nat.mod_lt _ (Nat.lt_of_lt_of_le (by decide) Nat.right_le_or)).trans (divisorOf_lt blo)
  have hq : bhi.toNat / divisorOf blo % 2 ^ 32 < 2 ^ 32 := Nat.mod_lt _ (by decide)
  apply BitVec.eq_of_toNat_eq
  calc (v2Division blo bhi).toNat
    _ = (bhi.toNat / divisorOf blo &&& (2 ^ 32 - 1)) ||| (bhi.toNat % divisorOf blo) <<< 32 % 2 ^ 64 := by
      rw [v2Division, BitVec.toNat_or, BitVec.toNat_and, BitVec.toNat_udiv, BitVec.toNat_shiftLeft, BitVec.toNat_umod,
        v2Divisor_toNat]
      rfl
    _ = bhi.toNat / divisorOf blo % 2 ^ 32 ||| (bhi.toNat % divisorOf blo) <<< 32 := by
      rw [Nat.and_two_pow_sub_one_eq_mod, Nat.mod_eq_of_lt (a := _ <<< 32) (by rw [Nat.shiftLeft_eq]; omega)]
    _ = bhi.toNat / divisorOf blo % 2 ^ 32 + 2 ^ 32 * (bhi.toNat % divisorOf blo) := by
      rw [Nat.or_comm, ← Nat.shiftLeft_add_eq_or_of_lt hq, Nat.shiftLeft_eq, Nat.add_comm, Nat.mul_comm]
    _ = (divOf blo bhi).toNat := by rw [divOf, BitVec.toNat_ofNat, Nat.mod_eq_of_lt (a := _ + _) (by omega)]

theorem v2RootArg_toNat (blo bhi : Word) : (v2RootArg blo bhi).toNat = rootArgOf blo bhi := by
  rw [v2RootArg, rootArgOf, v2Division_eq_divOf, BitVec.toNat_ushiftRight, BitVec.toNat_add, Nat.shiftRight_eq_div_pow]

theorem v2Root_eq_rootOf (blo bhi : Word) : v2Root blo bhi = rootOf blo bhi := by
  rw [v2Root, v2RootArg_toNat, rootOf]

end Sys2Proof.Machine
end

section

open Sys2Proof Sys2Proof.Machine Sys2Proof.Rule

/-- Settles O41: the three arms are the command's two checks in their order and its effect. -/
theorem mhlInitResult : Obligations.MhlInitResult := by
  intro s
  have check : commandCheck .mhlInit s = _ := checkVariantThenInput_eq s
  by_cases hv : s.variant ≠ 0 ∧ s.variant ≠ 1 ∧ s.variant ≠ 2
  · rw [if_pos hv] at check ⊢
    exact exec_of_error check
  · rw [if_neg hv] at check ⊢
    by_cases hl : s.variant = 1 ∧ s.inLen.toNat < 43
    · rw [if_pos hl] at check ⊢
      exact exec_of_error check
    · rw [if_neg hl] at check ⊢
      exact exec_of_pass check

/-- Settles O45: the index is in range exactly when the check passes, and the machine's shuffle is R95's (`shuffle_spec`). -/
theorem mhlShuffleResult : Obligations.MhlShuffleResult := by
  intro s
  have check : commandCheck .mhlShuffle s = if 131072 ≤ s.cellIdx.toNat then some .cellIdx else none := rfl
  constructor
  · intro hm hidx
    rw [if_neg (Nat.not_le.mpr hidx)] at check
    refine ⟨_, exec_of_pass check, rfl, shuffle_wf _ _ hm, ?_⟩
    rw [BitVec.ofNat_toNat]
    exact shuffle_spec v2ShufflePerm (selectedCell s) hm
  · intro hidx
    rw [if_pos hidx] at check
    exact exec_of_error check

end

section

/-! MHL_STEP in each variant (43_memory_hard_loop.md R92, R96). -/

namespace Sys2Proof.Machine

open Rule

/-- The state that MHL_STEP answers in variant `v`. -/
def afterMhlStep (v : Variant) (s : State) : State := complete (iterateCounted v2ShufflePerm v s)

theorem exec_mhlStep {s : State} {v : Variant} (hv : variantOf s.variant = some v) :
    exec .mhlStep s = .next (afterMhlStep v s) := by
  have check : commandCheck .mhlStep s = none := by rw [commandCheck, checkVariant, hv]
  rw [exec_of_pass check, commandEffect, mhlStepEffect, checkedVariant_of hv, afterMhlStep]

theorem afterMhlStep_wf (v : Variant) {s : State} (hm : Memory.wf s.sp = true) : Memory.wf (afterMhlStep v s).sp = true :=
  iterate_wf v2ShufflePerm v hm

/-! `Iteration` asks for `C` and the cells after steps 3, 4, 5, 9 and 11. They are those of the machine's memory after each step,
and are read off the facts that stand below in the order of the steps: step 2 is R80's round, a step that stores is a `put`
(`cellRead_cellWrite_eq_put`), a step that shuffles is R95's (`shuffle_spec`), a step of another variant leaves the memory, and the
last fact is the registers. -/

theorem afterMhlStep_iteration_v0 {s : State} (hv : s.variant = 0) (hm : Memory.wf s.sp = true) :
    Iteration s (afterMhlStep .v0 s) (cellRead s.sp) (cellRead (afterMhlStep .v0 s).sp) := by
  have h1 : ¬ s.variant = 1 := by rw [hv]; decide
  have h2 : ¬ s.variant = 2 := by rw [hv]; decide
  rw [afterMhlStep, iterateCounted, iterate_v0]
  simp only [Iteration, cellAddress_eq_toAddr, productPair_eq, if_neg h1, if_neg h2]
  exact ⟨_, _, _, _, _, _,
    cnRoundPair_spec _ _,
    rfl,
    (cellRead_cellWrite_eq_put _ _ hm :),
    rfl, rfl, rfl,
    cellRead_cellWrite_eq_put _ _ (cellWrite_wf _ _ hm),
    rfl⟩

theorem afterMhlStep_iteration_v1 {s : State} (hv : s.variant = 1) (hm : Memory.wf s.sp = true) :
    Iteration s (afterMhlStep .v1 s) (cellRead s.sp) (cellRead (afterMhlStep .v1 s).sp) := by
  have h2 : ¬ s.variant = 2 := by rw [hv]; decide
  rw [afterMhlStep, iterateCounted, iterate_v1]
  simp only [Iteration, cellAddress_eq_toAddr, productPair_eq, if_pos hv, if_neg h2]
  exact ⟨_, _, _, _, _, _,
    cnRoundPair_spec _ _,
    rfl,
    (cellRead_cellWrite_eq_put _ _ hm :),
    (cellRead_cellWrite_eq_put _ _ (cellWrite_wf _ _ hm) :),
    rfl,
    (cellRead_cellWrite_eq_put _ _ (cellWrite_wf _ _ (cellWrite_wf _ _ hm)) :),
    cellRead_cellWrite_eq_put _ _ (cellWrite_wf _ _ (cellWrite_wf _ _ (cellWrite_wf _ _ hm))),
    rfl⟩

theorem afterMhlStep_iteration_v2 {s : State} (hv : s.variant = 2) (hm : Memory.wf s.sp = true) :
    Iteration s (afterMhlStep .v2 s) (cellRead s.sp) (cellRead (afterMhlStep .v2 s).sp) := by
  have h1 : ¬ s.variant = 1 := by rw [hv]; decide
  have w3 := shuffle_wf v2ShufflePerm (toAddr s.a) hm
  rw [afterMhlStep, iterateCounted, iterate_v2]
  simp only [Iteration, cellAddress_eq_toAddr, productPair_eq, v2Division_eq_divOf, v2Root_eq_rootOf, if_neg h1, if_pos hv]
  exact ⟨_, _, _, _, _, _,
    cnRoundPair_spec _ _,
    shuffle_spec _ _ hm,
    (cellRead_cellWrite_eq_put _ _ w3 :),
    rfl,
    shuffle_spec _ _ (cellWrite_wf _ _ w3),
    cellRead_cellWrite_eq_put _ _ (shuffle_wf _ _ (cellWrite_wf _ _ w3)),
    rfl,
    rfl⟩

end Sys2Proof.Machine
end

section

open Sys2Proof Sys2Proof.Machine Sys2Proof.Rule

/-- Settles O42: in each variant the state MHL_STEP answers is the machine's iteration, which is R92's. -/
theorem mhlStepResult : Obligations.MhlStepResult := by
  intro s
  constructor
  · rintro hm (hv | hv | hv)
    · exact ⟨_, exec_mhlStep (by rw [hv]; rfl), afterMhlStep_wf .v0 hm, afterMhlStep_iteration_v0 hv hm⟩
    · exact ⟨_, exec_mhlStep (by rw [hv]; rfl), afterMhlStep_wf .v1 hm, afterMhlStep_iteration_v1 hv hm⟩
    · exact ⟨_, exec_mhlStep (by rw [hv]; rfl), afterMhlStep_wf .v2 hm, afterMhlStep_iteration_v2 hv hm⟩
  · intro h0 h1 h2
    have check : commandCheck .mhlStep s = _ := checkVariant_eq s
    rw [if_pos ⟨h0, h1, h2⟩] at check
    exact exec_of_error check

end

section

open Sys2Proof Sys2Proof.Machine Sys2Proof.Rule

/-- Settles O51: the command has no check, and its division and root are R100's (`v2Division_eq_divOf`, `v2Root_eq_rootOf`). -/
theorem v2DivsqrtResult : Obligations.V2DivsqrtResult := by
  intro s
  have run : exec .v2Divsqrt s = .next (complete (divSqrtEffect s)) := exec_of_pass rfl
  rw [run, divSqrtEffect, v2Division_eq_divOf, v2Root_eq_rootOf]
  rfl

end

section

/-! FINALIZE and FINAL_MUX (45_finalize_mux.md R104, R106) as one update of the state each, and the final hash in the numbers and
bytes of the rule. -/

namespace Sys2Proof.Machine

open Rule

/-- FINALIZE has no check, and writes `RK`, `BLK`, the scratchpad, `ST` and STATUS. -/
theorem exec_finalize (s : State) : exec .finalize s = .next { s with
    st := (finalizeEffect s).st, rk := expandKey (keyFromStHi s), blk := (finalizeEffect s).blk, sp := (finalizeEffect s).sp,
    status := ok s } :=
  (exec_of_pass rfl).trans (congrArg (fun u => Host.Outcome.next (complete u)) (finalizeEffect_eq s))

/-- No chunk pass writes `ST`, so steps 3 and 4 permute the lanes from before FINALIZE with `BLK` in lanes 8 to 23
(45_finalize_mux.md R104 corner case 2). -/
theorem finalizeEffect_st (s : State) :
    (finalizeEffect s).st = keccakF (stWithBlocks s.st (finalizeEffect s).blk) := by
  have loop : (loopUp finalizeChunk chunkCount (finalizeLoad s)).st = s.st :=
    loopUp_keeps (·.st) finalizeChunk chunkCount (finalizeLoad s) fun _ _ => rfl
  rw [finalizeEffect, finalizeStore, loop]

/-- `ST[0] & 0x03` is `ST[0]` modulo 4. -/
theorem finalistIndex_eq (st : Vector Word 25) : finalistIndex st = BitVec.ofNat 2 (st[0].toNat % 4) := by
  apply BitVec.eq_of_toNat_eq
  simp [finalistIndex]

/-- The bytes of `DIGEST` in order are those of the digest (45_finalize_mux.md R106). -/
theorem digestLanes_get (d : Vector Byte 32) (i : Fin 32) : laneByte (digestLanes d)[i.val / 8] (i.val % 8) = d[i.val] := by
  simpa only [Nat.div_add_mod] using digestLanes_byte d ⟨i.val / 8, by omega⟩ ⟨i.val % 8, by omega⟩

/-- The final hash is the finalist of `ST[0]` modulo 4, of the 200 bytes of `ST` (45_finalize_mux.md R105, R106). -/
theorem finalDigest_eq {s : State} {m : Vector Byte 200} (h : ∀ i : Fin 200, m[i.val] = stByte s i) :
    finalDigest s.st = Config.finalist ⟨s.st[0].toNat % 4, Nat.mod_lt _ (by decide)⟩ m := by
  have hbytes : bytes200 s.st = m := Vector.ext fun i hi => (bytes200_get s.st i hi).trans (h ⟨i, hi⟩).symm
  have hindex : (finalistIndex s.st).toFin = ⟨s.st[0].toNat % 4, Nat.mod_lt _ (by decide)⟩ :=
    Fin.ext (by simp [finalistIndex_eq])
  rw [finalDigest, hbytes, hindex]

end Sys2Proof.Machine
end

section

open Sys2Proof Sys2Proof.Machine Sys2Proof.Rule

/-- Settles O39: `finalizeBlock` is the chain of the blocks buffers, each ten rounds after the cell XORed with the one before
(`cnRoundsPair_spec`); `finalizeLoop_cells` finds its values in the cells and in `BLK`, and `finalizeEffect_st` permutes `ST`. -/
theorem finalizeResult : Obligations.FinalizeResult := by
  intro s hm
  obtain ⟨hcells, hblk⟩ := finalizeLoop_cells hm
  refine ⟨_, finalizeBlock s, stWithBlocks s.st (finalizeEffect s).blk, exec_finalize s, rfl, finalizeEffect_wf hm,
    expandKey_schedule (keyFromStHi_get s), subBlock_blocksFromSt s.st,
    fun ch hch j => ⟨cnRoundsPair_spec _ _, hcells ch hch j⟩, fun j => ⟨congrArg Pair.lo (hblk j), congrArg Pair.hi (hblk j)⟩,
    fun i => stWithBlocks_get _ _ i.val i.isLt, ?_⟩
  rw [finalizeEffect_st]
  exact keccakF_spec _

/-- Settles O40: the command has no check, and its effect is the final hash (`finalDigest_eq`), laid out in `DIGEST` byte by byte
(`digestLanes_get`). -/
theorem finalMuxResult : Obligations.FinalMuxResult := by
  intro s m hm
  refine ⟨digestLanes (finalDigest s.st), ?_, fun i => ?_⟩
  · have run : exec .finalMux s = .next (complete (finalMuxEffect s)) := exec_of_pass rfl
    rw [run, finalMuxEffect, finalistIndex_eq]
    rfl
  · rw [← finalDigest_eq hm]
    exact digestLanes_get _ i

end

section

/-! The control commands (46_control.md): a cell byte by byte, the empty scratchpad, and what SUM's five commands keep for the one after them. -/

namespace Sys2Proof.Machine

open Rule

/-! Cells (20_memory.md R44, R45). -/

/-- The bytes of a cell are the scratchpad's sixteen bytes from sixteen times its index on. -/
theorem byteOf_cellRead (m : Memory) (n : CellIndex) {k : Nat} (hk : k < 16) :
    byteOf (cellRead m n) k = readByte m (16 * n.toNat + k) := by
  rw [byteOf_eq_bytes16 _ hk, bytes16_get]
  by_cases h : k < 8
  · rw [if_pos h, cellRead_lo_byte m n k h]
  · rw [if_neg h, cellRead_hi_byte m n (k - 8) (by omega), show 16 * n.toNat + 8 + (k - 8) = 16 * n.toNat + k by omega]

theorem memRead_nil (addr n : Nat) : memRead [] addr n = 0 := by
  have zeros : ∀ k, k < n → readByte [] (addr + k) = BitVec.ofNat 8 (0 / 256 ^ k) := fun k _ => by rw [Nat.zero_div]; rfl
  rw [memRead_of_bytes 0 zeros, Nat.zero_mod]

/-- Every cell of the scratchpad that lists nothing is 0. -/
theorem cellRead_nil (n : CellIndex) : cellRead [] n = { lo := 0, hi := 0 } := by
  rw [cellRead, memRead_nil, memRead_nil]
  rfl

/-! SUM and the five commands it stands for (R113). What one command keeps for the next is stated of any state, so that no proof
about their sequence makes the kernel run the loops of the commands before. -/

/-- SUM's checks pass on what it can hash. -/
theorem checkVariantThenInput_of_hashable {s : State} (h : hashable s) : checkVariantThenInput s = none := by
  obtain ⟨hvariant, hlength⟩ := h
  have long : ¬ (s.variant = 1 ∧ s.inLen.toNat < 43) := fun ⟨h1, hshort⟩ => Nat.not_le.mpr hshort (hlength h1)
  exact checkVariantThenInput_none.mpr ⟨checkVariant_none.mpr hvariant, if_neg long⟩

/-- No command's assignments write BUSY. -/
theorem commandEffect_busy (i : Instr) (s : State) : (commandEffect i s).status.busy = s.status.busy := by
  cases i with
  | aesKeyexp ksrc =>
    rw [commandEffect, keyexpEffect]
    cases keySource ksrc s <;> rfl
  | spInit => rw [commandEffect, spInitEffect_eq]
  | mhlStep => rw [commandEffect, mhlStepEffect_eq]
  | mhlRun => rw [commandEffect, mhlRunEffect_eq]
  | finalize => rw [commandEffect, finalizeEffect_eq]
  | sum => rw [commandEffect, sumEffect_status, statusDv_busy]
  | _ => rfl

/-- No command writes `VARIANT`. -/
theorem complete_commandEffect_variant (i : Instr) (s : State) : (complete (commandEffect i s)).variant = s.variant :=
  congrArg (·.variant) (commandEffect_mask i s)

theorem complete_commandEffect_busy (i : Instr) (s : State) : (complete (commandEffect i s)).status.busy = s.status.busy :=
  commandEffect_busy i s

theorem commandEffect_finalMux_dv (s : State) : (commandEffect .finalMux s).status.dv = true := rfl

/-- KECCAK_ABSORB and SP_INIT leave SUM's and MHL_RUN's operands as they are. -/
theorem hashable_absorb_spInit {s : State} (h : hashable s) :
    hashable (complete (commandEffect .spInit (complete (commandEffect .keccakAbsorb s)))) := by
  have keepsInLen : ∀ u, (complete (commandEffect .spInit u)).inLen = u.inLen := fun u => by
    rw [complete_inLen, commandEffect, spInitEffect_eq]
  have absorbKeepsInLen : ∀ u, (complete (commandEffect .keccakAbsorb u)).inLen = u.inLen := fun _ => rfl
  rw [hashable, keepsInLen, absorbKeepsInLen, complete_commandEffect_variant, complete_commandEffect_variant]
  exact h

/-- The end of a successful command leaves of the STATUS before it BUSY and DV alone. -/
theorem complete_eq_of_statusMask {s t : State} (h : statusMask t = statusMask s) (hbusy : t.status.busy = s.status.busy)
    (hdv : t.status.dv = s.status.dv) : complete t = complete s := by
  rw [← eq_of_statusMask h]
  simp only [complete, statusSuccess, hbusy, hdv]

/-- A command that completes leaves, apart from STATUS, what its assignments leave from any state that differs in STATUS only. -/
theorem complete_commandEffect_statusMask (i : Instr) {s t : State} (h : statusMask t = statusMask s) :
    statusMask (complete (commandEffect i t)) = statusMask (commandEffect i s) :=
  commandEffect_blind_status i h

theorem commandEffect_sum (s : State) : commandEffect .sum s =
    commandEffect .finalMux (commandEffect .finalize (commandEffect .mhlRun (commandEffect .spInit
      (commandEffect .keccakAbsorb (clearDv s))))) := by
  simp only [commandEffect, sumEffect]

/-- The five commands of R113 one after the other, each with its own STATUS write, end in SUM's final state: their
assignments do not read STATUS, and the last one's writes there cover all but BUSY, which none of them writes. -/
theorem complete_commandEffect_sum (s : State) : complete (commandEffect .sum s) =
    complete (commandEffect .finalMux (complete (commandEffect .finalize (complete (commandEffect .mhlRun
      (complete (commandEffect .spInit (complete (commandEffect .keccakAbsorb s))))))))) := by
  have start : statusMask s = statusMask (clearDv s) := rfl
  have absorb := complete_commandEffect_statusMask .keccakAbsorb start
  have init := complete_commandEffect_statusMask .spInit absorb
  have run := complete_commandEffect_statusMask .mhlRun init
  have finalize := complete_commandEffect_statusMask .finalize run
  have mux := commandEffect_blind_status .finalMux finalize
  rw [commandEffect_sum]
  refine (complete_eq_of_statusMask mux ?_ ?_).symm
  · simp only [commandEffect_busy, complete_commandEffect_busy]
    rw [clearDv_status, statusDv_busy]
  · rw [commandEffect_finalMux_dv, commandEffect_finalMux_dv]

end Sys2Proof.Machine
end

section

open Sys2Proof Sys2Proof.Machine Sys2Proof.Rule

/-- Settles O27: the index is in range exactly when the check passes, and the cell's bytes are the scratchpad's
(`byteOf_cellRead`). -/
theorem cellReadResult : Obligations.CellReadResult := by
  intro s
  have check : commandCheck .cellRead s = if 131072 ≤ s.cellIdx.toNat then some .cellIdx else none := rfl
  constructor
  · intro hidx
    rw [if_neg (Nat.not_le.mpr hidx)] at check
    refine ⟨cellRead s.sp (selectedCell s), exec_of_pass check, fun k hk => ?_⟩
    rw [byteOf_cellRead _ _ hk, selectedCell_toNat check]
  · intro hidx
    rw [if_pos hidx] at check
    exact exec_of_error check

/-- Settles O57: each of the five commands passes its check, their last state is SUM's (`complete_commandEffect_sum`), and a check that
fails comes after `DIGEST` and DV are cleared. -/
theorem sumResult : Obligations.SumResult := by
  intro s
  have check : commandCheck .sum s = _ := checkVariantThenInput_eq s
  refine ⟨fun h => ?_, fun hvariant => ?_, fun hvariant hshort => ?_⟩
  · have pass : commandCheck .sum s = none := checkVariantThenInput_of_hashable h
    have runPass : commandCheck .mhlRun (complete (commandEffect .spInit (complete (commandEffect .keccakAbsorb s)))) = none :=
      checkVariantThenInput_of_hashable (hashable_absorb_spInit h)
    refine ⟨_, _, _, _, _, exec_of_pass rfl, exec_of_pass rfl, exec_of_pass runPass, exec_of_pass rfl, exec_of_pass rfl, ?_⟩
    exact (exec_of_pass pass).trans (congrArg Host.Outcome.next (complete_commandEffect_sum s))
  · rw [if_pos hvariant] at check
    exact exec_of_error check
  · rw [if_neg (fun illegal => illegal.2.1 hvariant), if_pos ⟨hvariant, hshort⟩] at check
    exact exec_of_error check

/-- Settles O25: neither command has a check, NOP assigns nothing and IN_CLEAR `IN_LEN`. -/
theorem nopAndInClearResults : Obligations.NopAndInClearResults :=
  fun _ => ⟨exec_of_pass rfl, rfl, exec_of_pass rfl⟩

/-- Settles O26: the command has no check; its scratchpad lists nothing, so every cell is 0 (`cellRead_nil`), and its vectors
repeat 0. -/
theorem cacheZeroResult : Obligations.CacheZeroResult := by
  intro s
  refine ⟨complete (cacheZeroEffect s), exec_of_pass rfl, rfl, cellRead_nil, fun _ => rfl, fun i => ?_, fun i => ?_, fun j => ?_,
    fun i => ?_, rfl⟩
  all_goals exact Vector.getElem_replicate _

end

section

/-! How a command ends (60_exceptions.md R116, R117, R119 to R122): its check's code, what it leaves before an error, and DV. -/

namespace Sys2Proof.Machine

/-- The checks of all commands in the order of 60_exceptions.md R122. -/
theorem commandCheck_eq (i : Instr) (s : State) : commandCheck i s =
    if i = .aesKeyexp 3 then some .opcode
    else if i ∈ [Instr.mhlInit, .mhlStep, .mhlRun, .sum] ∧ s.variant ≠ 0 ∧ s.variant ≠ 1 ∧ s.variant ≠ 2 then some .variant
    else if i ∈ [Instr.mhlInit, .mhlRun, .sum] ∧ s.variant = 1 ∧ s.inLen.toNat < 43 then some .shortInput
    else if i ∈ [Instr.cellRead, .cellWrite, .mhlShuffle] ∧ 131072 ≤ s.cellIdx.toNat then some .cellIdx
    else none := by
  cases i with
  | aesKeyexp ksrc =>
    have key : ∀ k : BitVec 2, (keySource k s).isSome = decide (k ≠ 3) := fun k => by
      obtain ⟨k, hk⟩ := k
      interval_cases k <;> rfl
    simp [commandCheck, key]
  | mhlStep => simp [commandCheck, checkVariant_eq]
  | mhlInit => simp [commandCheck, checkVariantThenInput_eq]
  | mhlRun => simp [commandCheck, checkVariantThenInput_eq]
  | sum => simp [commandCheck, checkVariantThenInput_eq]
  | mhlShuffle => simp [commandCheck, checkCellIdx]
  | cellRead => simp [commandCheck, checkCellIdx]
  | cellWrite => simp [commandCheck, checkCellIdx]
  | _ => simp [commandCheck]

theorem beforeError_eq (i : Instr) (s : State) : beforeError i s = if i = .sum then clearDigest s else s := by
  cases i <;> rfl

/-- FINAL_MUX and SUM set DV, CACHE_ZERO clears it, and no other command's assignments write it. -/
theorem commandEffect_dv (i : Instr) (s : State) : (commandEffect i s).status.dv =
    if i = .finalMux then true else if i = .cacheZero then false else if i = .sum then true else s.status.dv := by
  cases i with
  | aesKeyexp ksrc =>
    rw [commandEffect, keyexpEffect]
    cases keySource ksrc s <;> rfl
  | spInit => rw [commandEffect, spInitEffect_eq]; rfl
  | mhlStep => rw [commandEffect, mhlStepEffect_eq]; rfl
  | mhlRun => rw [commandEffect, mhlRunEffect_eq]; rfl
  | finalize => rw [commandEffect, finalizeEffect_eq]; rfl
  | sum => rw [commandEffect, sumEffect_status]; rfl
  | _ => rfl

/-- Of the commands whose assignments write DV, only SUM can raise an error, which clears it. -/
theorem beforeError_dv {i : Instr} {s : State} {e : ErrorCode} (h : commandCheck i s = some e) :
    (beforeError i s).status.dv =
      if i = .finalMux then true else if i = .cacheZero then false else if i = .sum then false else s.status.dv := by
  have hmux : i ≠ .finalMux := by rintro rfl; cases h
  have hzero : i ≠ .cacheZero := by rintro rfl; cases h
  rw [if_neg hmux, if_neg hzero, beforeError_eq]
  split_ifs <;> rfl

end Sys2Proof.Machine
end

section

open Sys2Proof Sys2Proof.Machine Sys2Proof.Rule

/-- Settles O19: a check that passes ends in `statusSuccess`, and one that fails in `statusError` on what the command leaves before
its error, which is `DIGEST` and DV cleared for SUM and the state as it was for the others (`beforeError_eq`). -/
theorem commandsEndWithTheStatusWrite : Obligations.CommandsEndWithTheStatusWrite := by
  intro i s
  cases h : commandCheck i s with
  | none =>
    refine ⟨_, exec_of_pass h, rfl, by simp, .inr ⟨rfl, rfl⟩, nofun, ?_⟩
    exact commandEffect_dv i s
  | some e =>
    refine ⟨_, exec_of_error h, rfl, by simp, .inl rfl, fun _ => ?_, ?_⟩
    · rw [beforeError_eq]
      split_ifs <;> rfl
    · exact beforeError_dv h

end

section

/-! The host's accesses (10_state.md R16 to R18, R34): the faulty ones, and what each can do to STATUS. -/

namespace Sys2Proof.Machine

open Rule

theorem regAt_of_isReserved {a : Nat} (h : isReserved a = true) : regAt a = none := by
  simp only [isReserved, Bool.or_eq_true, Bool.and_eq_true, decide_eq_true_eq] at h
  rw [regAt, dif_neg (by omega), dif_neg (by omega), dif_neg (by omega), dif_neg (by omega), dif_neg (by omega), singleReg]
  all_goals omega

/-- At an address of access code RO stands a register that a write neither stores to nor acts on. -/
theorem regAt_of_isRO {a : Nat} (h : isRO a = true) :
    ∃ r, regAt a = some r ∧ r ≠ .cmd ∧ r ≠ .inByte ∧ ∀ v s, storeReg r v s = none := by
  simp only [isRO, Bool.or_eq_true, Bool.and_eq_true, decide_eq_true_eq] at h
  by_cases hrkw : 0x040 ≤ a ∧ a < 0x054
  · refine ⟨.rkw ⟨a - 0x040, by omega⟩, ?_, nofun, nofun, fun _ _ => rfl⟩
    rw [regAt, dif_neg (by omega), dif_neg (by omega), dif_pos hrkw]
  by_cases hblk : 0x058 ≤ a ∧ a < 0x068
  · refine ⟨.blk ⟨a - 0x058, by omega⟩, ?_, nofun, nofun, fun _ _ => rfl⟩
    rw [regAt, dif_neg (by omega), dif_neg (by omega), dif_neg hrkw, dif_pos hblk]
  by_cases hdigest : 0x078 ≤ a ∧ a < 0x07C
  · refine ⟨.digest ⟨a - 0x078, by omega⟩, ?_, nofun, nofun, fun _ _ => rfl⟩
    rw [regAt, dif_neg (by omega), dif_neg (by omega), dif_neg hrkw, dif_neg hblk, dif_pos hdigest]
  have single : a ∈ [0x028, 0x029, 0x02E, 0x02F, 0x032, 0x033, 0x034, 0x035, 0x071, 0x073, 0x076, 0x077, 0x07F] := by
    simp only [List.mem_cons, List.not_mem_nil]
    omega
  fin_cases single <;> exact ⟨_, rfl, nofun, nofun, fun _ _ => rfl⟩

/-- A register write does one of four things: it is a fault, a command, an input byte, or it stores the value. -/
theorem hostWrite_cases {a : Nat} {v : Word} {s t : State} (h : hostWrite a v s = .next t) :
    (∃ why, t = { s with hostFault := some why }) ∨ commandWrite v s = .next t ∨ t = pushInByte v s ∨
      ∃ r, storeReg r v s = some t := by
  rw [hostWrite] at h
  split at h
  · cases h
    exact .inl ⟨_, rfl⟩
  · exact .inr (.inl h)
  · cases h
    exact .inr (.inr (.inl rfl))
  · rename_i r _ _ _
    cases hr : storeReg r v s with
    | none =>
      rw [hr] at h
      cases h
      exact .inl ⟨_, rfl⟩
    | some u =>
      rw [hr] at h
      cases h
      exact .inr (.inr (.inr ⟨r, hr⟩))

/-- A write to an RO register is a fault (10_state.md R18). -/
theorem hostWrite_of_isRO {a : Nat} (h : isRO a = true) (v : Word) (s : State) :
    hostWrite a v s = recordFault (.readOnly a) s := by
  obtain ⟨r, hr, hcmd, hin, hstore⟩ := regAt_of_isRO h
  rw [hostWrite, hr]
  split
  next hnone => cases hnone
  next hreg => exact absurd (Option.some.inj hreg) hcmd
  next hreg => exact absurd (Option.some.inj hreg) hin
  next hreg =>
    cases hreg
    rw [hstore]

theorem hostRead_status {a : Nat} {s t : State} (h : hostRead a s = .next t) : t.status = s.status := by
  rw [hostRead] at h
  split at h
  · cases h
    rfl
  · split at h <;> (cases h; rfl)

theorem storeReg_status {r : HostReg} {v : Word} {s t : State} (h : storeReg r v s = some t) : t.status = s.status := by
  cases r <;> cases h <;> rfl

theorem errorNumber_le (e : ErrorCode) : (errorNumber e).toNat ≤ 5 := by cases e <;> decide

/-- No command reports a code above 0x05 (60_exceptions.md R116). -/
theorem exec_errcode_le {i : Instr} {s t : State} (h : exec i s = .next t) : t.status.errcode.toNat ≤ 5 := by
  cases hc : commandCheck i s with
  | none =>
    cases (exec_of_pass hc).symm.trans h
    exact Nat.zero_le 5
  | some e =>
    cases (exec_of_error hc).symm.trans h
    exact errorNumber_le e

theorem commandWrite_errcode_le {w : Word} {s t : State} (h : commandWrite w s = .next t) : t.status.errcode.toNat ≤ 5 := by
  rw [commandWrite] at h
  split at h
  · exact exec_errcode_le h
  · cases h
    exact errorNumber_le .opcode

/-- An input byte touches STATUS only when it finds the buffer full (10_state.md R34). -/
theorem pushInByte_errcode (v : Word) (s : State) :
    (pushInByte v s).status.errcode = s.status.errcode ∨ (pushInByte v s).status.errcode = 0x05 := by
  rw [pushInByte]
  split_ifs
  · exact .inl rfl
  · exact .inr rfl

/-- A step leaves ERRCODE as it was, or writes one of the codes 0x00 to 0x05 there. -/
theorem step_errcode {s t : State} (h : step s = .next t) :
    t.status.errcode = s.status.errcode ∨ t.status.errcode.toNat ≤ 5 := by
  obtain ⟨-, ⟨-, rfl⟩ | ⟨acc, rest, -, hacc⟩⟩ := step_cases h
  · exact .inl rfl
  cases acc with
  | read a => exact .inl (congrArg (·.errcode) (hostRead_status hacc))
  | write a v =>
    obtain ⟨why, rfl⟩ | hcmd | rfl | ⟨r, hr⟩ := hostWrite_cases hacc
    · exact .inl rfl
    · exact .inr (commandWrite_errcode_le hcmd)
    · exact (pushInByte_errcode v _).imp_right fun hfull => by rw [hfull]; decide
    · exact .inl (congrArg (·.errcode) (storeReg_status hr))
  | reset =>
    cases hacc
    exact .inr (Nat.zero_le 5)

end Sys2Proof.Machine
end

section

open Sys2Proof Sys2Proof.Machine Sys2Proof.Rule

/-- Settles O12: no register stands at a reserved address, `IN_BYTE` has no value to read, and an RO register none that a write
stores (`hostWrite_of_isRO`). -/
theorem faultyAccessesLeaveTheEngineAlone : Obligations.FaultyAccessesLeaveTheEngineAlone := by
  refine fun s rest hf => ⟨fun a hq ha => ?_, fun a v hq ha => ?_⟩
  · rw [step_of_pending hf hq, hostAccess]
    rcases ha with hres | rfl
    · rw [hostRead, regAt_of_isReserved hres]
      exact ⟨_, rfl⟩
    · exact ⟨.writeOnly 0x074, rfl⟩
  · rw [step_of_pending hf hq, hostAccess]
    rcases ha with hres | hro
    · rw [hostWrite, regAt_of_isReserved hres]
      exact ⟨_, rfl⟩
    · rw [hostWrite_of_isRO hro]
      exact ⟨_, rfl⟩

/-- Settles O20: a command reports the code of its check (`commandCheck_eq`), an illegal word and a full buffer their own
(`illegalWordsRaiseErrOpcode`, `pushInByte`), and no access writes a code above 0x05 (`step_errcode`). -/
theorem errorCodesAndTheirCauses : Obligations.ErrorCodesAndTheirCauses := by
  refine ⟨fun i s => ?_, fun s w rest hf hq hw => ?_, fun s v rest hf hq hfull => ?_, fun s t => step_errcode⟩
  · have check := commandCheck_eq i s
    cases h : commandCheck i s with
    | none =>
      refine ⟨_, exec_of_pass h, ?_, fun herr => absurd rfl herr⟩
      rw [h] at check
      split_ifs at check ⊢
      rfl
    | some e =>
      refine ⟨_, exec_of_error h, ?_, fun _ => ?_⟩
      · rw [h] at check
        split_ifs at check ⊢ <;> cases check <;> rfl
      · rw [beforeError_eq]
        split_ifs with hsum
        · exact ⟨rfl, fun hne => absurd hsum hne⟩
        · exact ⟨rfl, fun _ => rfl⟩
  · obtain ⟨-, -, illegal⟩ := illegalWordsRaiseErrOpcode
    exact ⟨_, illegal s w rest hf hq hw, rfl, rfl⟩
  · rw [step_of_pending hf hq, hostAccess, hostWrite_inByte, pushInByte, if_neg (Nat.not_lt.mpr hfull)]
    exact ⟨_, rfl, rfl, rfl⟩

end

section

/-! `VARIANT` (60_exceptions.md R119): the assignments of the commands that do not read it commute with setting it. -/

namespace Sys2Proof.Machine

/-- The state with another value in `VARIANT`. -/
def withVariant (v : Word) (s : State) : State := { s with variant := v }

/-- What commutes with every pass of a loop commutes with the loop. -/
theorem loopUp_comm {α : Type} {f : Nat → α → α} {g : α → α} (h : ∀ k s, f k (g s) = g (f k s)) (n : Nat) (s : α) :
    loopUp f n (g s) = g (loopUp f n s) := by
  induction n with
  | zero => rw [loopUp_zero, loopUp_zero]
  | succ n ih => rw [loopUp_succ, ih, h, loopUp_succ]

theorem spInitEffect_withVariant (v : Word) (s : State) :
    spInitEffect (withVariant v s) = withVariant v (spInitEffect s) := by
  have load : spInitLoad (withVariant v s) = withVariant v (spInitLoad s) := rfl
  have pass : ∀ ch t, initChunk ch (withVariant v t) = withVariant v (initChunk ch t) := fun _ _ => rfl
  rw [spInitEffect, load, loopUp_comm pass, spInitEffect]

theorem finalizeEffect_withVariant (v : Word) (s : State) :
    finalizeEffect (withVariant v s) = withVariant v (finalizeEffect s) := by
  have load : finalizeLoad (withVariant v s) = withVariant v (finalizeLoad s) := rfl
  have pass : ∀ ch t, finalizeChunk ch (withVariant v t) = withVariant v (finalizeChunk ch t) := fun _ _ => rfl
  have store : ∀ t, finalizeStore (withVariant v t) = withVariant v (finalizeStore t) := fun _ => rfl
  rw [finalizeEffect, load, loopUp_comm pass, store, finalizeEffect]

variable {i : Instr} (hi : i ∉ [Instr.mhlInit, .mhlStep, .mhlRun, .sum])
include hi

theorem commandCheck_withVariant (v : Word) (s : State) : commandCheck i (withVariant v s) = commandCheck i s := by
  cases i with
  | mhlInit | mhlStep | mhlRun | sum => exact absurd (by decide) hi
  | _ => rfl

theorem commandEffect_withVariant (v : Word) (s : State) :
    commandEffect i (withVariant v s) = withVariant v (commandEffect i s) := by
  cases i with
  | mhlInit | mhlStep | mhlRun | sum => exact absurd (by decide) hi
  | spInit => exact spInitEffect_withVariant v s
  | finalize => exact finalizeEffect_withVariant v s
  | aesKeyexp ksrc =>
    rw [commandEffect, keyexpEffect, keyexpEffect, show keySource ksrc (withVariant v s) = keySource ksrc s from rfl]
    cases keySource ksrc s <;> rfl
  | _ => rfl

end Sys2Proof.Machine
end

section

open Sys2Proof Sys2Proof.Machine Sys2Proof.Rule

/-- Settles O21: the four commands check `VARIANT` first (`commandCheck_eq`); the check and the assignments of the others commute
with setting it. -/
theorem onlyFourCommandsReadVariant : Obligations.OnlyFourCommandsReadVariant := by
  refine ⟨fun i s hi h0 h1 h2 => ?_, fun i s v hi => ?_⟩
  · have noKeyexp : i ≠ .aesKeyexp 3 := by rintro rfl; exact absurd hi (by decide)
    have check := commandCheck_eq i s
    rw [if_neg noKeyexp, if_pos ⟨hi, h0, h1, h2⟩] at check
    exact ⟨_, exec_of_error check, rfl, rfl⟩
  · have sameCheck := commandCheck_withVariant hi v s
    change exec i (withVariant v s) = onNext (withVariant v) (exec i s)
    cases h : commandCheck i s with
    | none =>
      rw [exec_of_pass h, exec_of_pass (sameCheck.trans h), commandEffect_withVariant hi]
      rfl
    | some e =>
      have noSum : i ≠ .sum := by rintro rfl; exact hi (by decide)
      rw [exec_of_error h, exec_of_error (sameCheck.trans h), beforeError_eq, beforeError_eq, if_neg noSum, if_neg noSum]
      rfl

end

section

/-! The command word's round trip (30_encoding.md sections 1 and 2). -/

open Sys2Proof Sys2Proof.Machine Sys2Proof.Rule

/-- Settles O2: R64's list holds the word of every well-formed command and gives the command back (`commandWordsAreTheOpcodeMap`),
and a legal word is the encoding of a well-formed command (`decode_legal`). -/
theorem decodeEncodeAgree : Obligations.DecodeEncodeAgree :=
  ⟨fun i => ⟨fun h => (commandWordsAreTheOpcodeMap _ i).mpr (encode_mem_commandWords h), fun h => (decode_legal h).1⟩,
   fun _ _ h => decode_legal h⟩

/-- Settles O4: eighteen words, each decoded by evaluation. -/
theorem sampleWordsDecode : Obligations.SampleWordsDecode := by
  unfold Obligations.SampleWordsDecode
  decide

end

section

/-! What each command's assignments write (10_state.md R17, 46_control.md R108 to R113): the frame of every command. -/

namespace Sys2Proof.Machine

/-- Outside variant 2 an iteration leaves the division and root registers (43_memory_hard_loop.md R92, step 7). -/
theorem iterateCounted_keeps_divSqrt (perm : Fin 24 → Fin 24) {v : Variant} (hv : v ≠ .v2) (s : State) :
    (iterateCounted perm v s).divr = s.divr ∧ (iterateCounted perm v s).sqrtr = s.sqrtr := by
  cases v with
  | v0 => exact ⟨rfl, rfl⟩
  | v1 => exact ⟨rfl, rfl⟩
  | v2 => exact absurd rfl hv

/-- `VARIANT` is what variant 2 is checked from. -/
theorem checkedVariant_ne_v2 {s : State} (h : s.variant ≠ 2) : checkedVariant s ≠ .v2 := by
  intro he
  rw [checkedVariant] at he
  cases hv : variantOf s.variant with
  | none =>
    rw [hv] at he
    cases he
  | some v =>
    rw [hv] at he
    cases he
    obtain ⟨-, hne⟩ | ⟨-, hne⟩ | ⟨h2, -⟩ := variantOf_eq_some.mp hv
    · cases hne
    · cases hne
    · exact h h2

end Sys2Proof.Machine
end

section

open Sys2Proof Sys2Proof.Machine Sys2Proof.Rule

/-- Settles O23: an error leaves all but STATUS, and `DIGEST` for SUM (`beforeError`); the effect of each command is an update of the
fields its rule names, which the mask lemmas give for the commands that loop. -/
theorem commandsWriteOnlyTheirRegisters : Obligations.CommandsWriteOnlyTheirRegisters := by
  intro i s t h
  cases hc : commandCheck i s with
  | some e =>
    cases (exec_of_error hc).symm.trans h
    cases i with
    | sum => simp [beforeError, Instr.opcode]
    | _ => simp [beforeError]
  | none =>
    cases (exec_of_pass hc).symm.trans h
    cases i with
    | aesKeyexp ksrc =>
      rw [commandEffect, keyexpEffect]
      cases keySource ksrc s <;> simp [Instr.opcode]
    | spInit =>
      obtain ⟨rk, sp, blk, writes⟩ : ∃ rk sp blk, spInitEffect s = { s with rk := rk, sp := sp, blk := blk } :=
        ⟨_, _, _, spInitEffect_eq s⟩
      rw [commandEffect, writes]
      simp [Instr.opcode]
    | mhlStep =>
      obtain ⟨u, hu, writes, keeps⟩ : ∃ u, mhlStepEffect s = u ∧ loopMask u = loopMask s ∧
          (s.variant ≠ 2 → u.divr = s.divr ∧ u.sqrtr = s.sqrtr) :=
        ⟨_, rfl, iterateCounted_mask _ _ s, fun hv => iterateCounted_keeps_divSqrt _ (checkedVariant_ne_v2 hv) s⟩
      rw [commandEffect, hu, eq_of_loopMask writes]
      simpa [Instr.opcode] using keeps
    | mhlRun =>
      obtain ⟨u, hu, writes⟩ : ∃ u, mhlRunEffect s = u ∧ runMask u = runMask s := ⟨_, rfl, mhlRunEffect_mask s⟩
      rw [commandEffect, hu, eq_of_runMask writes]
      simp [Instr.opcode]
    | finalize =>
      obtain ⟨st, rk, sp, blk, writes⟩ : ∃ st rk sp blk, finalizeEffect s = { s with st := st, rk := rk, sp := sp, blk := blk } :=
        ⟨_, _, _, _, finalizeEffect_eq s⟩
      rw [commandEffect, writes]
      simp [Instr.opcode]
    | sum =>
      obtain ⟨u, hu, writes, keepsBusy⟩ : ∃ u, sumEffect s = u ∧ sumMask u = sumMask s ∧ u.status.busy = s.status.busy :=
        ⟨_, rfl, sumEffect_mask s, commandEffect_busy .sum s⟩
      rw [commandEffect, hu, eq_of_sumMask writes]
      simpa [Instr.opcode] using keepsBusy
    | _ => simp [Instr.opcode, commandEffect, inClearEffect, cacheZeroEffect, aesRoundEffect, aesRoundsEffect,
             mhlInitEffect, mhlShuffleEffect, divSqrtEffect, finalMuxEffect, cellReadEffect, cellWriteEffect]

end

section

/-! What a step and a host access can do (10_state.md R16 to R18), and the invariant that every step keeps. -/

namespace Sys2Proof.Machine

/-! The host's register window. -/

/-- The word address of a register (10_state.md R17). -/
def HostReg.address : HostReg → Nat
  | .st i => i.val
  | .key i => 0x020 + i.val
  | .xLo => 0x024
  | .xHi => 0x025
  | .kLo => 0x026
  | .kHi => 0x027
  | .yLo => 0x028
  | .yHi => 0x029
  | .aLo => 0x02A
  | .aHi => 0x02B
  | .bLo => 0x02C
  | .bHi => 0x02D
  | .cLo => 0x02E
  | .cHi => 0x02F
  | .c2Lo => 0x030
  | .c2Hi => 0x031
  | .pLo => 0x032
  | .pHi => 0x033
  | .addr => 0x034
  | .addr2 => 0x035
  | .tweak => 0x036
  | .divr => 0x037
  | .sqrtr => 0x038
  | .rkw j => 0x040 + j.val
  | .blk j => 0x058 + j.val
  | .cmd => 0x070
  | .status => 0x071
  | .variant => 0x072
  | .inLen => 0x073
  | .inByte => 0x074
  | .cellIdx => 0x075
  | .sel => 0x076
  | .iter => 0x077
  | .digest i => 0x078 + i.val
  | .id => 0x07F

theorem address_of_singleReg {a : Nat} {r : HostReg} (h : singleReg a = some r) : r.address = a := by
  unfold singleReg at h
  split at h <;> cases h <;> rfl

/-- The register that the map gives an address has that address, so no two addresses have one register. -/
theorem address_of_regAt {a : Nat} {r : HostReg} (h : regAt a = some r) : r.address = a := by
  unfold regAt at h
  split_ifs at h with hst hkey hrkw hblk hdigest
  · cases h
    rfl
  · cases h
    exact Nat.add_sub_of_le hkey.1
  · cases h
    exact Nat.add_sub_of_le hrkw.1
  · cases h
    exact Nat.add_sub_of_le hblk.1
  · cases h
    exact Nat.add_sub_of_le hdigest.1
  · exact address_of_singleReg h

/-- All that a host access can do: a fault of the host, a value for the host, a command, an input byte, a register's value, or the reset.
A command is the write of its word to `CMD` (10_state.md R31). -/
theorem hostAccess_cases {acc : HostAccess} {s t : State} (h : hostAccess acc s = .next t) :
    (∃ why, t = { s with hostFault := some why }) ∨ (∃ v, t = { s with hostReads := v :: s.hostReads }) ∨
      (∃ w, acc = .write 0x070 w ∧ commandWrite w s = .next t) ∨ (∃ v, t = pushInByte v s) ∨
      (∃ r v, storeReg r v s = some t) ∨ (acc = .reset ∧ t = platformReset s) := by
  cases acc with
  | read a =>
    rw [hostAccess, hostRead] at h
    split at h
    · cases h
      exact .inl ⟨_, rfl⟩
    · split at h <;> cases h
      · exact .inr (.inl ⟨_, rfl⟩)
      · exact .inl ⟨_, rfl⟩
  | write a v =>
    by_cases ha : a = 0x070
    · subst ha
      exact .inr (.inr (.inl ⟨v, rfl, h⟩))
    · rw [hostAccess, hostWrite] at h
      split at h
      next => cases h; exact .inl ⟨_, rfl⟩
      next hcmd => exact absurd (address_of_regAt hcmd).symm ha
      next => cases h; exact .inr (.inr (.inr (.inl ⟨v, rfl⟩)))
      next r _ _ _ =>
        split at h
        next hstore => cases h; exact .inr (.inr (.inr (.inr (.inl ⟨r, v, hstore⟩))))
        next => cases h; exact .inl ⟨_, rfl⟩
  | reset =>
    cases h
    exact .inr (.inr (.inr (.inr (.inr ⟨rfl, rfl⟩))))

/-- All that a write of a word to `CMD` can do: run the command it stands for, or raise ERR_OPCODE. -/
theorem commandWrite_cases {w : Word} {s t : State} (h : commandWrite w s = .next t) :
    (∃ i, decode w = .legal i ∧ exec i { s with cmd := w } = .next t) ∨ t = raiseError .opcode { s with cmd := w } := by
  rw [commandWrite] at h
  split at h
  next i hi => exact .inl ⟨i, hi, h⟩
  next => cases h; exact .inr rfl

/-! What the writes keep of the scratchpad and of the host agent. -/

theorem exec_keeps_host {i : Instr} {s t : State} (h : exec i s = .next t) :
    t.hostQueue = s.hostQueue ∧ t.hostReads = s.hostReads := by
  obtain ⟨u, hu, mask, -⟩ := exec_reports i s
  cases hu.symm.trans h
  exact ⟨congrArg (·.hostQueue) mask, congrArg (·.hostReads) mask⟩

theorem storeReg_keeps {r : HostReg} {v : Word} {s t : State} (h : storeReg r v s = some t) :
    t.sp = s.sp ∧ t.hostQueue = s.hostQueue ∧ t.hostReads = s.hostReads := by
  cases r <;> cases h <;> exact ⟨rfl, rfl, rfl⟩

theorem pushInByte_keeps (v : Word) (s : State) :
    (pushInByte v s).sp = s.sp ∧ (pushInByte v s).hostQueue = s.hostQueue ∧ (pushInByte v s).hostReads = s.hostReads := by
  rw [pushInByte]
  split_ifs <;> exact ⟨rfl, rfl, rfl⟩

/-- No access touches what the host has still to do, and it adds at most one value to what the host has read. -/
theorem hostAccess_keeps_host {acc : HostAccess} {s t : State} (h : hostAccess acc s = .next t) :
    t.hostQueue = s.hostQueue ∧ (t.hostReads = s.hostReads ∨ ∃ v, t.hostReads = v :: s.hostReads) := by
  obtain ⟨why, rfl⟩ | ⟨v, rfl⟩ | ⟨w, -, hcmd⟩ | ⟨v, rfl⟩ | ⟨r, v, hstore⟩ | ⟨-, rfl⟩ := hostAccess_cases h
  · exact ⟨rfl, .inl rfl⟩
  · exact ⟨rfl, .inr ⟨v, rfl⟩⟩
  · obtain ⟨i, -, hexec⟩ | rfl := commandWrite_cases hcmd
    · obtain ⟨hqueue, hreads⟩ := exec_keeps_host hexec
      exact ⟨hqueue, .inl hreads⟩
    · exact ⟨rfl, .inl rfl⟩
  · obtain ⟨-, hqueue, hreads⟩ := pushInByte_keeps v s
    exact ⟨hqueue, .inl hreads⟩
  · obtain ⟨-, hqueue, hreads⟩ := storeReg_keeps hstore
    exact ⟨hqueue, .inl hreads⟩
  · exact ⟨rfl, .inl rfl⟩

/-! The invariant. -/

theorem errorNumber_ne_zero (e : ErrorCode) : errorNumber e ≠ 0 := by cases e <;> decide

/-- The assignments of every command keep the scratchpad's canonical form. -/
theorem commandEffect_wf (i : Instr) {s : State} (hm : Memory.wf s.sp = true) : Memory.wf (commandEffect i s).sp = true := by
  cases i with
  | cacheZero => rfl
  | aesKeyexp ksrc =>
    rw [commandEffect, keyexpEffect]
    cases keySource ksrc s <;> exact hm
  | spInit => exact spInitEffect_wf hm
  | mhlStep => exact iterate_wf _ _ hm
  | mhlRun => exact mhlRunEffect_wf hm
  | mhlShuffle => exact shuffle_wf _ _ hm
  | finalize => exact finalizeEffect_wf hm
  | cellWrite => exact cellWrite_wf _ _ hm
  | sum => exact sumEffect_wf hm
  | _ => exact hm

theorem exec_wf {i : Instr} {s t : State} (h : exec i s = .next t) (hm : Memory.wf s.sp = true) : Memory.wf t.sp = true := by
  cases hc : commandCheck i s with
  | none =>
    cases (exec_of_pass hc).symm.trans h
    exact commandEffect_wf i hm
  | some e =>
    cases (exec_of_error hc).symm.trans h
    rw [raiseError_sp, beforeError_eq]
    split_ifs <;> exact hm

/-- A command's STATUS write is consistent, whatever STATUS held before, BUSY apart. -/
theorem exec_statusSound {i : Instr} {s t : State} (h : exec i s = .next t) (hbusy : s.status.busy = false) :
    statusSound t := by
  cases hc : commandCheck i s with
  | none =>
    cases (exec_of_pass hc).symm.trans h
    exact ⟨(commandEffect_busy i s).trans hbusy, by simp, by simp, by simp, rfl⟩
  | some e =>
    cases (exec_of_error hc).symm.trans h
    refine ⟨?_, iff_of_true rfl (errorNumber_ne_zero e), errorNumber_le e, fun _ => rfl, rfl⟩
    rw [raiseError_status, statusError_busy, beforeError_eq]
    split_ifs <;> exact hbusy

/-- A command empties the input or leaves it. -/
theorem exec_inputSound {i : Instr} {s t : State} (h : exec i s = .next t) (hin : inputSound s) : inputSound t := by
  obtain ⟨-, -, -, -, -, -, -, -, -, -, -, -, -, hlen, hbytes, -⟩ := commandsWriteOnlyTheirRegisters i s t h
  by_cases hclear : i = .inClear
  · subst hclear
    cases h
    exact ⟨Nat.zero_le _, Nat.zero_le _⟩
  · have noClear : i.opcode ≠ 0x01 := by cases i <;> simp_all [Instr.opcode]
    rw [inputSound, hlen noClear, hbytes]
    exact hin

/-- A command that writes `DIGEST` sets DV or leaves `DIGEST` 0. -/
theorem exec_digestSound {i : Instr} {s t : State} (h : exec i s = .next t) (hd : digestSound s) : digestSound t := by
  obtain ⟨-, -, -, -, -, -, -, -, -, -, -, -, hdigest, -⟩ := commandsWriteOnlyTheirRegisters i s t h
  cases hc : commandCheck i s with
  | none =>
    cases (exec_of_pass hc).symm.trans h
    have hdv : (complete (commandEffect i s)).status.dv = _ := commandEffect_dv i s
    by_cases hshow : i = .finalMux ∨ i = .sum
    · have shown : (complete (commandEffect i s)).status.dv = true := by
        rw [hdv]
        rcases hshow with rfl | rfl <;> rfl
      exact fun hoff => absurd (shown.symm.trans hoff) (by decide)
    · by_cases hzero : i = .cacheZero
      · subst hzero
        exact fun _ => rfl
      · have other : i.opcode ∉ ([0x61, 0x80, 0x02] : List (BitVec 8)) := by cases i <;> simp_all [Instr.opcode]
        obtain ⟨-, keeps, keepsDv⟩ := hdigest other
        rw [digestSound, keeps, keepsDv]
        exact hd
  | some e =>
    cases (exec_of_error hc).symm.trans h
    rw [beforeError_eq]
    split_ifs
    · exact fun _ => rfl
    · exact hd

/-- A command leads to the invariant from every state that has it, `STATUS` apart, which it writes itself. -/
theorem exec_inv {i : Instr} {s t : State} (h : exec i s = .next t) (hm : Memory.wf s.sp = true)
    (hbusy : s.status.busy = false) (hin : inputSound s) (hd : digestSound s) : Inv t :=
  ⟨exec_wf h hm, exec_statusSound h hbusy, exec_inputSound h hin, exec_digestSound h hd⟩

theorem commandWrite_inv {w : Word} {s t : State} (h : commandWrite w s = .next t) (hs : Inv s) : Inv t := by
  obtain ⟨hm, ⟨hbusy, -⟩, hin, hd⟩ := hs
  obtain ⟨i, -, hexec⟩ | rfl := commandWrite_cases h
  · exact exec_inv hexec hm hbusy hin hd
  · exact ⟨hm, ⟨hbusy, iff_of_true rfl (errorNumber_ne_zero .opcode), errorNumber_le .opcode, fun _ => rfl, rfl⟩, hin, hd⟩

/-- `IN_LEN` counts up to `IN_MAX`, which has 64 bits (log 10). -/
theorem inLen_succ_toNat {s : State} (h : s.inLen.toNat < Config.inMax) : (s.inLen + 1).toNat = s.inLen.toNat + 1 := by
  have hmax : Config.inMax < 2 ^ 64 := by
    have := Config.inMaxExtra.isLt
    simp only [Config.inMax]
    omega
  exact BitVec.toNat_add_of_lt (by simpa using Nat.lt_of_le_of_lt h hmax)

theorem pushInByte_inv (v : Word) {s : State} (hs : Inv s) : Inv (pushInByte v s) := by
  obtain ⟨hm, hstatus, ⟨hmax, hwritten⟩, hd⟩ := hs
  rw [pushInByte]
  split_ifs with hroom
  · refine ⟨hm, hstatus, ⟨(inLen_succ_toNat hroom).trans_le hroom, ?_⟩, hd⟩
    rw [inLen_succ_toNat hroom, setInByte_length]
    exact Nat.le_max_right _ _
  · obtain ⟨hbusy, -, -, -, hlast⟩ := hstatus
    exact ⟨hm, ⟨hbusy, iff_of_true rfl (errorNumber_ne_zero .inFull), errorNumber_le .inFull, fun _ => rfl, hlast⟩,
      ⟨hmax, hwritten⟩, hd⟩

theorem storeReg_inv {r : HostReg} {v : Word} {s t : State} (h : storeReg r v s = some t) (hs : Inv s) : Inv t := by
  cases r <;> cases h <;> exact hs

theorem platformReset_inv (s : State) : Inv (platformReset s) :=
  have noError : State.reset.status.errcode = 0 := rfl
  ⟨rfl, ⟨rfl, iff_of_false nofun (absurd noError), Nat.zero_le _, nofun, rfl⟩, ⟨Nat.zero_le _, Nat.zero_le _⟩,
    fun _ => rfl⟩

theorem hostAccess_inv {acc : HostAccess} {s t : State} (h : hostAccess acc s = .next t) (hs : Inv s) : Inv t := by
  obtain ⟨why, rfl⟩ | ⟨v, rfl⟩ | ⟨w, -, hcmd⟩ | ⟨v, rfl⟩ | ⟨r, v, hstore⟩ | ⟨-, rfl⟩ := hostAccess_cases h
  · exact hs
  · exact hs
  · exact commandWrite_inv hcmd hs
  · exact pushInByte_inv v hs
  · exact storeReg_inv hstore hs
  · exact platformReset_inv s

end Sys2Proof.Machine
end

section

open Sys2Proof Sys2Proof.Machine Sys2Proof.Rule

/-- Settles O9: a step that does something makes one host access, and each kind of access keeps the invariant (`hostAccess_inv`). -/
theorem stepKeepsTheInvariant : Obligations.StepKeepsTheInvariant := by
  intro s t hs h
  obtain ⟨-, ⟨-, rfl⟩ | ⟨acc, rest, -, hacc⟩⟩ := step_cases h
  · exact hs
  · exact hostAccess_inv hacc hs

/-- Settles O8: a platform reset of the reset state leaves the reset state. -/
theorem invariantAtReset : Obligations.InvariantAtReset := platformReset_inv State.reset

/-- Settles O6: a step with no fault recorded takes the first pending access, and there is none. -/
theorem idleEngineKeepsItsState : Obligations.IdleEngineKeepsItsState := by
  intro s hf hq
  rw [step, hostStep, hf, hq]

/-- Settles O13: the step looks at the recorded fault before it takes an access. -/
theorem hostFaultEndsTheRun : Obligations.HostFaultEndsTheRun := by
  intro s why hf
  rw [step, hostStep, hf]

/-- Settles O17: the step takes the first access off the list, and the access itself leaves the rest (`hostAccess_keeps_host`). -/
theorem eachStepTakesOneAccess : Obligations.EachStepTakesOneAccess := by
  intro s t h
  obtain ⟨-, ⟨hq, rfl⟩ | ⟨acc, rest, hq, hacc⟩⟩ := step_cases h
  · exact ⟨by rw [hq, List.tail_nil], .inl rfl⟩
  · obtain ⟨hqueue, hreads⟩ := hostAccess_keeps_host hacc
    exact ⟨by rw [hqueue, hq, List.tail_cons], hreads⟩

/-- Settles O18: of the accesses only the reset and a command can change the scratchpad, and a command only if it is one of those that
CommandsWriteOnlyTheirRegisters names for it. -/
theorem onlyCommandsChangeTheScratchpad : Obligations.OnlyCommandsChangeTheScratchpad := by
  intro s t h hne
  obtain ⟨-, ⟨-, rfl⟩ | ⟨acc, rest, hq, hacc⟩⟩ := step_cases h
  · exact absurd rfl hne
  · refine ⟨rest, ?_⟩
    obtain ⟨why, rfl⟩ | ⟨v, rfl⟩ | ⟨w, rfl, hcmd⟩ | ⟨v, rfl⟩ | ⟨r, v, hstore⟩ | ⟨rfl, -⟩ := hostAccess_cases hacc
    · exact absurd rfl hne
    · exact absurd rfl hne
    · obtain ⟨i, hdecode, hexec⟩ | rfl := commandWrite_cases hcmd
      · obtain ⟨-, keepsSp, -⟩ := commandsWriteOnlyTheirRegisters i _ t hexec
        exact .inr ⟨w, i, hq, hdecode, by_contra fun hop => hne (keepsSp hop)⟩
      · exact absurd rfl hne
    · exact absurd (pushInByte_keeps v _).1 hne
    · exact absurd (storeReg_keeps hstore).1 hne
    · exact .inl hq

end

section

/-! HRead and HWrite register by register (10_state.md R17): the map of the statements is the machine's, and a register that is stored
reads back. -/

namespace Sys2Proof.Machine

open Rule

/-! The words that HRead assembles. -/

theorem toNat_append {m n : Nat} (hi : BitVec m) (lo : BitVec n) : (hi ++ lo).toNat = lo.toNat + 2 ^ n * hi.toNat := by
  rw [BitVec.toNat_append, ← Nat.shiftLeft_add_eq_or_of_lt lo.isLt, Nat.shiftLeft_eq, Nat.add_comm, Nat.mul_comm]

/-- `RKW[j]` as a number (10_state.md R21). -/
theorem rkwValue_eq (rk : Vector RkWord 40) (j : Fin 20) :
    rkwValue rk j = BitVec.ofNat 64 (rk[2 * j.val].toNat + 2 ^ 32 * rk[2 * j.val + 1].toNat) := by
  have hlo := rk[2 * j.val].isLt
  have hhi := rk[2 * j.val + 1].isLt
  apply BitVec.eq_of_toNat_eq
  rw [rkwValue, toNat_append, BitVec.toNat_ofNat, Nat.mod_eq_of_lt (by omega)]

/-- The fields of `STATUS` stand at the places that R32 gives them. -/
theorem statusWord_eq (t : Status) : statusWord t = statusBits t := by
  have herrcode := t.errcode.isLt
  have hlastop := t.lastop.isLt
  have bit : ∀ b : Bool, b.toNat < 2 := Bool.toNat_lt
  have := bit t.done
  have := bit t.err
  have := bit t.busy
  have := bit t.dv
  apply BitVec.eq_of_toNat_eq
  simp only [statusWord, statusBits, toNat_append, BitVec.ofNat_eq_ofNat, BitVec.toNat_ofNat, BitVec.toNat_ofBool, Nat.zero_mod]
  omega

/-- The statements' map is the machine's: the register at the address, if any, and what it reads. -/
theorem hread_eq (s : State) (a : Nat) : hread s a = (regAt a).bind (readReg · s) := by
  by_cases hst : a ≤ 0x018
  · rw [hread, dif_pos hst, regAt, dif_pos (Nat.lt_succ_of_le hst)]
    rfl
  by_cases hkey : 0x020 ≤ a ∧ a ≤ 0x023
  · rw [hread, dif_neg hst, dif_pos hkey, regAt, dif_neg (by omega), dif_pos (by omega)]
    rfl
  by_cases hrkw : 0x040 ≤ a ∧ a ≤ 0x053
  · rw [hread, dif_neg hst, dif_neg hkey, dif_pos hrkw, regAt, dif_neg (by omega), dif_neg (by omega), dif_pos (by omega)]
    exact congrArg some (rkwValue_eq s.rk ⟨a - 0x040, by omega⟩).symm
  by_cases hblk : 0x058 ≤ a ∧ a ≤ 0x067
  · rw [hread, dif_neg hst, dif_neg hkey, dif_neg hrkw, dif_pos hblk, regAt, dif_neg (by omega), dif_neg (by omega),
      dif_neg (by omega), dif_pos (by omega)]
    rfl
  by_cases hdigest : 0x078 ≤ a ∧ a ≤ 0x07B
  · rw [hread, dif_neg hst, dif_neg hkey, dif_neg hrkw, dif_neg hblk, dif_pos hdigest, regAt, dif_neg (by omega),
      dif_neg (by omega), dif_neg (by omega), dif_neg (by omega), dif_pos (by omega)]
    rfl
  rw [hread, dif_neg hst, dif_neg hkey, dif_neg hrkw, dif_neg hblk, dif_neg hdigest]
  by_cases hwindow : a < 0x080
  · rw [regAt, dif_neg (by omega), dif_neg (by omega), dif_neg (by omega), dif_neg (by omega), dif_neg (by omega),
      ← statusWord_eq, BitVec.ofNat_toNat, BitVec.ofNat_toNat, BitVec.ofNat_toNat, BitVec.ofNat_toNat]
    interval_cases a <;> rfl
  · have beyond : isReserved a = true := by simp [isReserved, Nat.not_lt.mp hwindow]
    rw [regAt_of_isReserved beyond]
    split
    case h_30 => rfl
    all_goals omega

/-! Which registers read and which are stored. -/

/-- Every address of the window that is neither reserved nor `IN_BYTE`'s has a register with a value. -/
theorem regAt_readable {a : Nat} (hres : isReserved a = false) (ha : a ≠ 0x074) :
    ∃ r, regAt a = some r ∧ r ≠ .inByte := by
  have window : ∀ b : Fin 0x080, isReserved b.val = false → (regAt b.val).isSome = true := by decide
  have hlt : a < 0x080 := by
    simp only [isReserved, Bool.or_eq_false_iff, decide_eq_false_iff_not] at hres
    omega
  obtain ⟨r, hr⟩ := Option.isSome_iff_exists.mp (window ⟨a, hlt⟩ hres)
  refine ⟨r, hr, ?_⟩
  rintro rfl
  exact ha (address_of_regAt hr).symm

theorem readReg_isSome {r : HostReg} (h : r ≠ .inByte) (s : State) : ∃ v, readReg r s = some v := by
  cases r with
  | inByte => exact absurd rfl h
  | _ => exact ⟨_, rfl⟩

/-- A register is no part of the host agent. -/
theorem readReg_hostQueue (r : HostReg) (s : State) (rest : List HostAccess) :
    readReg r { s with hostQueue := rest } = readReg r s := by
  cases r <;> rfl

/-- At an address of access code RW stands a register that a write stores to. -/
theorem regAt_of_isRW {a : Nat} (h : isRW a = true) :
    ∃ r, regAt a = some r ∧ r ≠ .cmd ∧ r ≠ .inByte ∧ ∀ v s, ∃ t, storeReg r v s = some t := by
  simp only [isRW, Bool.or_eq_true, Bool.and_eq_true, decide_eq_true_eq] at h
  by_cases hst : a < 25
  · exact ⟨.st ⟨a, hst⟩, by rw [regAt, dif_pos hst], nofun, nofun, fun _ _ => ⟨_, rfl⟩⟩
  by_cases hkey : 0x020 ≤ a ∧ a < 0x024
  · refine ⟨.key ⟨a - 0x020, by omega⟩, ?_, nofun, nofun, fun _ _ => ⟨_, rfl⟩⟩
    rw [regAt, dif_neg hst, dif_pos hkey]
  have single : a ∈ [0x024, 0x025, 0x026, 0x027, 0x02A, 0x02B, 0x02C, 0x02D, 0x030, 0x031, 0x036, 0x037, 0x038, 0x072, 0x075] := by
    simp only [List.mem_cons, List.not_mem_nil]
    omega
  fin_cases single <;> exact ⟨_, rfl, nofun, nofun, fun _ _ => ⟨_, rfl⟩⟩

/-- A write to an RW register stores the value. -/
theorem hostWrite_of_isRW {a : Nat} (h : isRW a = true) (v : Word) (s : State) :
    ∃ r t, regAt a = some r ∧ storeReg r v s = some t ∧ hostWrite a v s = .next t := by
  obtain ⟨r, hr, hcmd, hin, hstore⟩ := regAt_of_isRW h
  obtain ⟨t, ht⟩ := hstore v s
  refine ⟨r, t, hr, ht, ?_⟩
  rw [hostWrite, hr]
  split
  next hnone => cases hnone
  next hreg => exact absurd (Option.some.inj hreg) hcmd
  next hreg => exact absurd (Option.some.inj hreg) hin
  next hreg =>
    cases hreg
    rw [ht]

/-- A stored register reads the value, and every other register reads as before. -/
theorem readReg_storeReg {r : HostReg} {v : Word} {s t : State} (h : storeReg r v s = some t) (r' : HostReg) :
    readReg r' t = if r' = r then some v else readReg r' s := by
  cases r with
  | st i | key i =>
    cases h
    cases r' <;> simp [readReg, Vector.getElem_set, Fin.ext_iff, eq_comm]
    split_ifs <;> rfl
  | _ => cases h <;> cases r' <;> rfl

/-- A register's store leaves the input and the host's fault. -/
theorem storeReg_keeps_input {r : HostReg} {v : Word} {s t : State} (h : storeReg r v s = some t) :
    t.inBytes = s.inBytes ∧ t.hostFault = s.hostFault := by
  cases r <;> cases h <;> exact ⟨rfl, rfl⟩

/-- Every register but `ID` is 0 after reset (70_reset_and_hazards.md R132). -/
theorem readReg_reset {r : HostReg} (h : r ≠ .id) {v : Word} (hv : readReg r State.reset = some v) : v = 0 := by
  cases r with
  | id => exact absurd rfl h
  | inByte => cases hv
  | st i | key i | rkw i | blk i | digest i =>
    cases hv
    simp [State.reset, rkwValue]
  | _ => cases hv; rfl

end Sys2Proof.Machine
end

section

open Sys2Proof Sys2Proof.Machine Sys2Proof.Rule

/-- Settles O7: the map reads the machine's registers (`hread_eq`), which are 0 after reset, and a platform reset puts every field of the
engine at its reset value. -/
theorem resetState : Obligations.ResetState := by
  refine ⟨fun a ha v hv => ?_, rfl, fun _ => rfl, rfl, fun s rest hf hq => ?_⟩
  · rw [hread_eq, Option.bind_eq_some_iff] at hv
    obtain ⟨r, hr, hv⟩ := hv
    refine readReg_reset ?_ hv
    rintro rfl
    exact absurd (address_of_regAt hr) ha.ne'
  · rw [step_of_pending hf hq]
    exact ⟨_, rfl, rfl, rfl⟩

/-- Settles O10: a readable address has a register with a value (`regAt_readable`), which is the map's (`hread_eq`). -/
theorem hostReadReturnsTheMappedValue : Obligations.HostReadReturnsTheMappedValue := by
  intro s a rest hf hq hres ha
  obtain ⟨r, hr, hin⟩ := regAt_readable hres ha
  obtain ⟨v, hv⟩ := readReg_isSome hin s
  refine ⟨v, ?_, ?_⟩
  · rw [hread_eq, hr]
    exact hv
  · rw [step_of_pending hf hq, hostAccess, hostRead, hr]
    simp only [readReg_hostQueue, hv]

/-- Settles O11: an RW address has a register that stores the value (`hostWrite_of_isRW`), and another address has another register,
which reads as before (`readReg_storeReg`). -/
theorem hostWriteStoresOneRegister : Obligations.HostWriteStoresOneRegister := by
  intro s a v rest hf hq ha
  obtain ⟨r, t, hr, hstore, hwrite⟩ := hostWrite_of_isRW ha v { s with hostQueue := rest }
  obtain ⟨hsp, hqueue, hreads⟩ := storeReg_keeps hstore
  obtain ⟨hbytes, hfault⟩ := storeReg_keeps_input hstore
  refine ⟨t, (step_of_pending hf hq).trans hwrite, ?_, fun b hb => ?_, hsp, hbytes, hqueue, hreads, hfault.trans hf⟩
  · rw [hread_eq, hr, Option.bind_some, readReg_storeReg hstore, if_pos rfl]
  · rw [hread_eq, hread_eq]
    cases hr' : regAt b with
    | none => rfl
    | some r' =>
      have other : r' ≠ r := by
        rintro rfl
        exact hb ((address_of_regAt hr').symm.trans (address_of_regAt hr))
      rw [Option.bind_some, Option.bind_some, readReg_storeReg hstore, if_neg other]
      exact readReg_hostQueue r' s rest

end

section

/-! The input buffer (10_state.md R34, 30_encoding.md R68): what an `IN_BYTE` write appends, and what LOADIN leaves. -/

namespace Sys2Proof.Machine

open Rule

/-- Every byte of `IN` after `IN[i] <- b`. -/
theorem inByte_setInByte (s : State) (i : Nat) (b : Byte) (n : Word) (k : Nat) :
    inByte { s with inBytes := setInByte 0 s.inBytes i b, inLen := n } k = if k = i then b else inByte s k := by
  have h := setInByte_getD 0 s.inBytes i k b
  rw [Nat.zero_add] at h
  exact h

/-- The input is known by `IN_LEN` and the bytes below it. -/
theorem input_eq_of_bytes {s t : State} (hlen : t.inLen = s.inLen) (h : ∀ k, k < s.inLen.toNat → inByte t k = inByte s k) :
    input t = input s := by
  rw [input, input, hlen]
  exact List.map_congr_left fun k hk => h k (List.mem_range.mp hk)

/-! The two steps of LOADIN. -/

/-- The step of an `IN_BYTE` write. -/
theorem step_inByte {v : Word} {rest : List HostAccess} {s : State} (hf : s.hostFault = none)
    (hq : s.hostQueue = .write 0x074 v :: rest) : step s = .next (pushInByte v { s with hostQueue := rest }) := by
  rw [step_of_pending hf hq, hostAccess, hostWrite_inByte]

/-- The step of LOADIN's IN_CLEAR. -/
theorem step_inClear {rest : List HostAccess} {s : State} (hf : s.hostFault = none)
    (hq : s.hostQueue = commandAccess .inClear :: rest) : step s = .next
      { s with hostQueue := rest, cmd := 0x01, inLen := 0, status := ok { s with cmd := 0x01 } } := by
  rw [step_of_pending hf hq]
  rfl

/-! An `IN_BYTE` write that finds room. -/

variable {s : State} (hroom : s.inLen.toNat < Config.inMax)
include hroom

theorem pushInByte_of_room (v : Word) : pushInByte v s =
    { s with inBytes := (pushInByte v s).inBytes, inLen := s.inLen + 1 } := by
  rw [pushInByte, if_pos hroom]

/-- Every byte of `IN` after an `IN_BYTE` write that finds room. -/
theorem inByte_pushInByte (v : Word) (k : Nat) :
    inByte (pushInByte v s) k = if k = s.inLen.toNat then v.setWidth 8 else inByte s k := by
  rw [pushInByte, if_pos hroom]
  exact inByte_setInByte s _ _ _ k

theorem inLen_pushInByte (v : Word) : (pushInByte v s).inLen.toNat = s.inLen.toNat + 1 := by
  rw [pushInByte_of_room hroom]
  exact inLen_succ_toNat hroom

/-- The write appends its byte to the input. -/
theorem input_pushInByte (v : Word) : input (pushInByte v s) = input s ++ [v.setWidth 8] := by
  rw [input, inLen_pushInByte hroom, List.range_succ, List.map_append, List.map_singleton, inByte_pushInByte hroom, if_pos rfl]
  congr 1
  refine List.map_congr_left fun k hk => ?_
  rw [inByte_pushInByte hroom, if_neg (List.mem_range.mp hk).ne]

end Sys2Proof.Machine
end

section

open Sys2Proof Sys2Proof.Machine Sys2Proof.Rule

/-- Settles O14: the write is `pushInByte`, whose two arms are the statement's. -/
theorem inByteWriteAppends : Obligations.InByteWriteAppends := by
  intro s v rest hf hq
  rw [step_inByte hf hq]
  constructor
  · intro hroom
    have room : ({ s with hostQueue := rest } : State).inLen.toNat < Config.inMax := hroom
    refine ⟨_, rfl, pushInByte_of_room room v, inLen_pushInByte room v, ?_, fun k hk => ?_⟩
    · rw [input_pushInByte room, BitVec.setWidth_eq_extractLsb' (by decide)]
      rfl
    · exact (inByte_pushInByte room v k).trans (if_neg hk)
  · intro hfull
    rw [pushInByte, if_neg (Nat.not_lt.mpr hfull)]
    rfl

end

section

/-! LOADIN (30_encoding.md R68), by the writes of its bytes. -/

namespace Sys2Proof.Machine

open Rule

/-- The writes of `IN_BYTE` that the host has pending append their bytes, as long as there is room for them all. -/
theorem steps_inBytes {data : List Byte} {rest : List HostAccess} {s : State} (hf : s.hostFault = none)
    (hq : s.hostQueue = (data.map fun b => .write inByteAddress (b.setWidth 64)) ++ rest)
    (hroom : s.inLen.toNat + data.length ≤ Config.inMax) :
    ∃ t, Steps data.length s t ∧ input t = input s ++ data ∧
      t = { s with hostQueue := rest, inBytes := t.inBytes, inLen := s.inLen + BitVec.ofNat 64 data.length } := by
  induction data generalizing s with
  | nil =>
    refine ⟨s, rfl, (List.append_nil _).symm, ?_⟩
    rw [List.map_nil, List.nil_append] at hq
    rw [← hq, List.length_nil, BitVec.add_zero]
  | cons b data ih =>
    rw [List.length_cons] at hroom
    rw [List.map_cons, List.cons_append] at hq
    obtain ⟨u, hstep, hu, hlen, happend, -⟩ := (inByteWriteAppends s _ _ hf hq).1 (by omega)
    have hfault : u.hostFault = none := by rw [hu]; exact hf
    have hqueue : u.hostQueue = (data.map fun b => .write inByteAddress (b.setWidth 64)) ++ rest := by rw [hu]
    have hcount : u.inLen + BitVec.ofNat 64 data.length = s.inLen + BitVec.ofNat 64 (data.length + 1) := by
      rw [hu, BitVec.add_assoc, Nat.add_comm, BitVec.ofNat_add]
      rfl
    have hbyte : (b.setWidth 64).extractLsb' 0 8 = b := by simp [← BitVec.setWidth_eq_extractLsb']
    obtain ⟨t, hsteps, hinput, ht⟩ := ih hfault hqueue (by omega)
    refine ⟨t, ⟨u, hstep, hsteps⟩, ?_, ?_⟩
    · rw [hinput, happend, hbyte, List.append_assoc, List.singleton_append]
    · rw [ht, hcount, hu]
      rfl

end Sys2Proof.Machine
end

section

open Sys2Proof Sys2Proof.Machine Sys2Proof.Rule

/-- Settles O15: IN_CLEAR empties the input, and each further step appends a byte (`steps_inBytes`). -/
theorem loadInLoadsTheInput : Obligations.LoadInLoadsTheInput := by
  intro s data rest hf hq hmax
  obtain ⟨u, hstep, hu⟩ : ∃ u, step s = .next u ∧ u = { s with
      hostQueue := (data.map fun b => .write inByteAddress (b.setWidth 64)) ++ rest, cmd := 0x01, inLen := 0,
      status := ok { s with cmd := 0x01 } } := ⟨_, step_inClear hf hq, rfl⟩
  have hfault : u.hostFault = none := by rw [hu]; exact hf
  have hqueue : u.hostQueue = (data.map fun b => .write inByteAddress (b.setWidth 64)) ++ rest := by rw [hu]
  have hempty : u.inLen = 0 := by rw [hu]
  obtain ⟨t, hsteps, hinput, ht⟩ := steps_inBytes hfault hqueue (by rw [hempty]; simpa using hmax)
  refine ⟨t, ⟨u, hstep, hsteps⟩, ?_, ?_⟩
  · rw [hinput, input, hempty]
    rfl
  · rw [ht, hempty, hu]
    simp only [BitVec.ofNat_eq_ofNat, BitVec.zero_add]

end

section

/-! What a command does not read: its assignments commute with setting it. The four setters are the fields of the statements about `IN`
beyond `IN_LEN` (10_state.md R34) and about the key registers (41_aes.md R87); the loops commute because each pass does. -/

namespace Sys2Proof.Machine

open Rule

/-- The state with other bytes written in `IN`. -/
def withInBytes (bytes : List Byte) (s : State) : State := { s with inBytes := bytes }

/-- The state with other values in `RK` and `BLK`. -/
def withRoundKeys (rk : Vector RkWord 40) (blk : Vector Word 16) (s : State) : State := { s with rk := rk, blk := blk }

/-- The state with another value in `K`. -/
def withK (k : Pair) (s : State) : State := { s with k := k }

/-- The state with another value in `A`. -/
def withA (a : Pair) (s : State) : State := { s with a := a }

/-- A command that does the same after `g`, but for `g'` of its result, answers the same after `g`, but for `g'` of its next state. -/
theorem exec_onNext {i : Instr} {s : State} {g g' : State → State} (check : commandCheck i (g s) = commandCheck i s)
    (pass : commandCheck i s = none → complete (commandEffect i (g s)) = g' (complete (commandEffect i s)))
    (error : ∀ e, commandCheck i s = some e → raiseError e (beforeError i (g s)) = g' (raiseError e (beforeError i s))) :
    exec i (g s) = onNext g' (exec i s) := by
  cases h : commandCheck i s with
  | none => rw [exec_of_pass h, exec_of_pass (check.trans h), pass h, onNext]
  | some e => rw [exec_of_error h, exec_of_error (check.trans h), error e h, onNext]

/-! The commands that loop. A command that overwrites some of what `g` sets before its loop goes on with what is left of it, `g'`. -/

theorem spInitEffect_comm {g g' : State → State} {s : State} (load : spInitLoad (g s) = g' (spInitLoad s))
    (pass : ∀ ch t, initChunk ch (g' t) = g' (initChunk ch t)) : spInitEffect (g s) = g' (spInitEffect s) := by
  rw [spInitEffect, load, loopUp_comm pass, spInitEffect]

theorem finalizeEffect_comm {g : State → State} {s : State} (load : finalizeLoad (g s) = g (finalizeLoad s))
    (pass : ∀ ch t, finalizeChunk ch (g t) = g (finalizeChunk ch t)) (store : ∀ t, finalizeStore (g t) = g (finalizeStore t)) :
    finalizeEffect (g s) = g (finalizeEffect s) := by
  rw [finalizeEffect, load, loopUp_comm pass, store, finalizeEffect]

theorem mhlRunEffect_comm {g g' : State → State} {s : State} (variant : (g s).variant = s.variant)
    (init : mhlInitEffect (g s) = g' (mhlInitEffect s))
    (pass : ∀ v t, iterateCounted v2ShufflePerm v (g' t) = g' (iterateCounted v2ShufflePerm v t)) :
    mhlRunEffect (g s) = g' (mhlRunEffect s) := by
  rw [mhlRunEffect, checkedVariant, variant, init, loopUp_comm fun _ => pass _, mhlRunEffect, checkedVariant]

/-! The bytes of `IN`. -/

theorem iterateCounted_withInBytes (bytes : List Byte) (v : Variant) (t : State) :
    iterateCounted v2ShufflePerm v (withInBytes bytes t) = withInBytes bytes (iterateCounted v2ShufflePerm v t) := by
  cases v <;> rfl

theorem spInitEffect_withInBytes (bytes : List Byte) (s : State) :
    spInitEffect (withInBytes bytes s) = withInBytes bytes (spInitEffect s) :=
  spInitEffect_comm rfl fun _ _ => rfl

theorem finalizeEffect_withInBytes (bytes : List Byte) (s : State) :
    finalizeEffect (withInBytes bytes s) = withInBytes bytes (finalizeEffect s) :=
  finalizeEffect_comm rfl (fun _ _ => rfl) fun _ => rfl

theorem mhlInitEffect_withInBytes {bytes : List Byte} {s : State}
    (nonce : s.variant = 1 → inputNonce (withInBytes bytes s) = inputNonce s) :
    mhlInitEffect (withInBytes bytes s) = withInBytes bytes (mhlInitEffect s) := by
  have tweak : (if s.variant = 1 then s.st[24] ^^^ inputNonce (withInBytes bytes s) else 0) =
      if s.variant = 1 then s.st[24] ^^^ inputNonce s else 0 :=
    if_ctx_congr Iff.rfl (fun h => by rw [nonce h]) fun _ => rfl
  exact congrArg (fun w => { withInBytes bytes (mhlInitEffect s) with tweak := w }) tweak

theorem mhlRunEffect_withInBytes {bytes : List Byte} {s : State}
    (nonce : s.variant = 1 → inputNonce (withInBytes bytes s) = inputNonce s) :
    mhlRunEffect (withInBytes bytes s) = withInBytes bytes (mhlRunEffect s) :=
  mhlRunEffect_comm rfl (mhlInitEffect_withInBytes nonce) (iterateCounted_withInBytes bytes)

theorem inputNonce_congr {s t : State} (h : t.inBytes = s.inBytes) : inputNonce t = inputNonce s := by
  simp only [inputNonce, inByte, h]

/-- The nonce is bytes 35 to 42 of the input, and a variant 1 input that has passed its check has them (60_exceptions.md R120). -/
theorem inputNonce_of_bytes {s t : State} (h : ∀ k, k < s.inLen.toNat → inByte t k = inByte s k) (hlong : 43 ≤ s.inLen.toNat) :
    inputNonce t = inputNonce s := by
  have byte : ∀ k, k < 43 → inByte t k = inByte s k := fun k hk => h k (by omega)
  simp only [inputNonce, byte, Nat.reduceLT]

theorem long_of_check {s : State} (h : checkVariantThenInput s = none) (hv : s.variant = 1) : 43 ≤ s.inLen.toNat := by
  obtain ⟨-, hshort⟩ := checkVariantThenInput_none.mp h
  by_contra hlt
  rw [checkShortInput, if_pos ⟨hv, Nat.not_le.mp hlt⟩] at hshort
  cases hshort

/-- SP_INIT keeps `ST`, `VARIANT` and the bytes of `IN`. -/
theorem spInitEffect_keeps (s : State) : (spInitEffect s).st = s.st ∧ (spInitEffect s).variant = s.variant ∧
    (spInitEffect s).inBytes = s.inBytes ∧ (spInitEffect s).rk = expandKey (keyFromStLo s) := by
  rw [spInitEffect_eq]
  exact ⟨rfl, rfl, rfl, rfl⟩

section

variable {bytes : List Byte} {s : State} (same : ∀ k, k < s.inLen.toNat → inByte (withInBytes bytes s) k = inByte s k)
include same

theorem absorbEffect_withInBytes : absorbEffect (withInBytes bytes s) = withInBytes bytes (absorbEffect s) := by
  rw [absorbEffect, input_eq_of_bytes (s := s) (t := withInBytes bytes s) rfl same]
  rfl

theorem sumEffect_withInBytes (check : checkVariantThenInput s = none) :
    sumEffect (withInBytes bytes s) = withInBytes bytes (sumEffect s) := by
  obtain ⟨-, keepsVariant, keepsBytes, -⟩ := spInitEffect_keeps (absorbEffect (clearDv s))
  have absorb : absorbEffect (clearDv (withInBytes bytes s)) = withInBytes bytes (absorbEffect (clearDv s)) :=
    absorbEffect_withInBytes (s := clearDv s) same
  have nonce : (spInitEffect (absorbEffect (clearDv s))).variant = 1 →
      inputNonce (withInBytes bytes (spInitEffect (absorbEffect (clearDv s)))) =
        inputNonce (spInitEffect (absorbEffect (clearDv s))) := fun hv => by
    have written : inputNonce (withInBytes bytes (spInitEffect (absorbEffect (clearDv s)))) = inputNonce (withInBytes bytes s) :=
      inputNonce_congr rfl
    rw [written, inputNonce_congr (keepsBytes : _ = s.inBytes)]
    exact inputNonce_of_bytes same (long_of_check check (keepsVariant.symm.trans hv))
  have mux : ∀ t, finalMuxEffect (withInBytes bytes t) = withInBytes bytes (finalMuxEffect t) := fun _ => rfl
  rw [sumEffect, absorb, spInitEffect_withInBytes, mhlRunEffect_withInBytes nonce, finalizeEffect_withInBytes, mux, sumEffect]

/-- A command whose check has passed does the same with other bytes beyond the input. -/
theorem commandEffect_withInBytes {i : Instr} (check : commandCheck i s = none) :
    commandEffect i (withInBytes bytes s) = withInBytes bytes (commandEffect i s) := by
  have nonce : checkVariantThenInput s = none → s.variant = 1 → inputNonce (withInBytes bytes s) = inputNonce s :=
    fun pass hv => inputNonce_of_bytes same (long_of_check pass hv)
  cases i with
  | aesKeyexp ksrc =>
    rw [commandEffect, keyexpEffect, keyexpEffect, show keySource ksrc (withInBytes bytes s) = keySource ksrc s from rfl]
    cases keySource ksrc s <;> rfl
  | keccakAbsorb => exact absorbEffect_withInBytes same
  | spInit => exact spInitEffect_withInBytes bytes s
  | mhlInit => exact mhlInitEffect_withInBytes (nonce check)
  | mhlStep => exact iterateCounted_withInBytes bytes (checkedVariant s) s
  | mhlRun => exact mhlRunEffect_withInBytes (nonce check)
  | finalize => exact finalizeEffect_withInBytes bytes s
  | sum => exact sumEffect_withInBytes same check
  | _ => rfl

end

/-! The key registers. No pass of a loop reads them; SP_INIT and FINALIZE load `RK` and `BLK`, and MHL_INIT loads `A`. -/

theorem iterateCounted_withRoundKeys (rk : Vector RkWord 40) (blk : Vector Word 16) (v : Variant) (t : State) :
    iterateCounted v2ShufflePerm v (withRoundKeys rk blk t) = withRoundKeys rk blk (iterateCounted v2ShufflePerm v t) := by
  cases v <;> rfl

theorem iterateCounted_withK (k : Pair) (v : Variant) (t : State) :
    iterateCounted v2ShufflePerm v (withK k t) = withK k (iterateCounted v2ShufflePerm v t) := by
  cases v <;> rfl

theorem mhlRunEffect_withRoundKeys (rk : Vector RkWord 40) (blk : Vector Word 16) (s : State) :
    mhlRunEffect (withRoundKeys rk blk s) = withRoundKeys rk blk (mhlRunEffect s) :=
  mhlRunEffect_comm rfl rfl (iterateCounted_withRoundKeys rk blk)

theorem mhlRunEffect_withK (k : Pair) (s : State) : mhlRunEffect (withK k s) = withK k (mhlRunEffect s) :=
  mhlRunEffect_comm rfl rfl (iterateCounted_withK k)

/-- MHL_RUN writes `A` before it reads it. -/
theorem mhlRunEffect_withA (a : Pair) (s : State) : mhlRunEffect (withA a s) = mhlRunEffect s :=
  mhlRunEffect_comm (g' := id) rfl rfl fun _ _ => rfl

/-- SP_INIT writes `RK` and `BLK` before it reads them. -/
theorem spInitEffect_withRoundKeys (rk : Vector RkWord 40) (blk : Vector Word 16) (s : State) :
    spInitEffect (withRoundKeys rk blk s) = spInitEffect s :=
  spInitEffect_comm (g' := id) rfl fun _ _ => rfl

theorem spInitEffect_withK (k : Pair) (s : State) : spInitEffect (withK k s) = withK k (spInitEffect s) :=
  spInitEffect_comm rfl fun _ _ => rfl

theorem spInitEffect_withA (a : Pair) (s : State) : spInitEffect (withA a s) = withA a (spInitEffect s) :=
  spInitEffect_comm rfl fun _ _ => rfl

theorem finalizeEffect_withK (k : Pair) (s : State) : finalizeEffect (withK k s) = withK k (finalizeEffect s) :=
  finalizeEffect_comm rfl (fun _ _ => rfl) fun _ => rfl

theorem finalizeEffect_withA (a : Pair) (s : State) : finalizeEffect (withA a s) = withA a (finalizeEffect s) :=
  finalizeEffect_comm rfl (fun _ _ => rfl) fun _ => rfl

/-- SUM reads none of the four registers as it finds them: SP_INIT writes `RK` and `BLK` first, MHL_RUN writes `A`, and `K` is read by none
of its commands. -/
theorem sumEffect_withKeys (rk : Vector RkWord 40) (blk : Vector Word 16) (k a : Pair) (s : State) :
    sumEffect (withA a (withK k (withRoundKeys rk blk s))) = withK k (sumEffect s) := by
  have absorb : absorbEffect (clearDv (withA a (withK k (withRoundKeys rk blk s)))) =
      withA a (withK k (withRoundKeys rk blk (absorbEffect (clearDv s)))) := rfl
  have mux : ∀ t, finalMuxEffect (withK k t) = withK k (finalMuxEffect t) := fun _ => rfl
  rw [sumEffect, absorb, spInitEffect_withA, spInitEffect_withK, spInitEffect_withRoundKeys, mhlRunEffect_withA, mhlRunEffect_withK,
    finalizeEffect_withK, mux, sumEffect]

/-- The commands of the memory-hard loop, as the statement lists them, read neither `RK`, `BLK` nor `K`. -/
theorem commandEffect_withLoopKeys {i : Instr} (hi : i ∈ [Instr.mhlInit, .mhlStep, .mhlRun]) (rk : Vector RkWord 40)
    (blk : Vector Word 16) (k : Pair) (s : State) :
    commandEffect i (withK k (withRoundKeys rk blk s)) = withK k (withRoundKeys rk blk (commandEffect i s)) := by
  simp only [List.mem_cons, List.not_mem_nil, or_false] at hi
  rcases hi with rfl | rfl | rfl
  · rfl
  · have sameVariant : checkedVariant (withK k (withRoundKeys rk blk s)) = checkedVariant s := rfl
    rw [commandEffect, mhlStepEffect, sameVariant, iterateCounted_withK, iterateCounted_withRoundKeys, mhlStepEffect]
  · rw [commandEffect, mhlRunEffect_withK, mhlRunEffect_withRoundKeys]

/-- The commands that key their rounds from `ST`, `KEY` or `RK`, as the statement lists them, have no check that can fail. -/
theorem commandCheck_keyed {i : Instr}
    (hi : i ∈ [Instr.aesKeyexp 0, .aesKeyexp 1, .aesKeyexp 2, .aesRounds, .spInit, .finalize]) (s : State) :
    commandCheck i s = none := by
  simp only [List.mem_cons, List.not_mem_nil, or_false] at hi
  rcases hi with rfl | rfl | rfl | rfl | rfl | rfl <;> rfl

/-- The same commands read neither `K` nor `A`. -/
theorem commandEffect_withKA {i : Instr}
    (hi : i ∈ [Instr.aesKeyexp 0, .aesKeyexp 1, .aesKeyexp 2, .aesRounds, .spInit, .finalize]) (k a : Pair) (s : State) :
    commandEffect i (withA a (withK k s)) = withA a (withK k (commandEffect i s)) := by
  simp only [List.mem_cons, List.not_mem_nil, or_false] at hi
  rcases hi with rfl | rfl | rfl | rfl | rfl | rfl
  · rfl
  · rfl
  · rfl
  · rfl
  · rw [commandEffect, spInitEffect_withA, spInitEffect_withK]
  · rw [commandEffect, finalizeEffect_withA, finalizeEffect_withK]

end Sys2Proof.Machine
end

section

open Sys2Proof Sys2Proof.Machine Sys2Proof.Rule

/-- Settles O16: a command's check does not read the bytes of `IN`, and its assignments read those of the input, which are the same
(`commandEffect_withInBytes`). -/
theorem unwrittenInputIsNotRead : Obligations.UnwrittenInputIsNotRead := by
  intro i s bytes same
  refine exec_onNext (g := withInBytes bytes) (by cases i <;> rfl) (fun pass => ?_) fun e _ => ?_
  · rw [commandEffect_withInBytes same pass]
    rfl
  · rw [beforeError_eq, beforeError_eq]
    split_ifs <;> rfl

/-- Settles O50: each clause is a commutation of the commands' assignments with setting the registers that they do not read. -/
theorem otherKeyRegistersAreNotRead : Obligations.OtherKeyRegistersAreNotRead := by
  refine ⟨fun s rk blk k i hi => ?_, fun s rk blk a => rfl, fun s k a i hi => ?_, fun s rk blk k a hs => ?_⟩
  · have notSum : i ≠ .sum := by rintro rfl; simp at hi
    have check : ∀ t, commandCheck i (withK k (withRoundKeys rk blk t)) = commandCheck i t := fun t => by cases i <;> rfl
    refine exec_onNext (g := fun t => withK k (withRoundKeys rk blk t)) (check s) (fun _ => ?_) fun e _ => ?_
    · simp only [commandEffect_withLoopKeys hi]
      rfl
    · simp only [beforeError_eq, if_neg notSum]
      rfl
  · have pass := commandCheck_keyed hi
    refine exec_onNext (g := fun t => withA a (withK k t)) ((pass _).trans (pass s).symm) (fun _ => ?_) fun e he => ?_
    · simp only [commandEffect_withKA hi]
      rfl
    · exact absurd ((pass s).symm.trans he) nofun
  · refine exec_onNext (g := fun t => withA a (withK k (withRoundKeys rk blk t))) (g' := withK k) rfl (fun _ => ?_) fun e he => ?_
    · exact congrArg complete (sumEffect_withKeys rk blk k a s)
    · exact absurd ((checkVariantThenInput_of_hashable hs).symm.trans he) nofun

end

section

/-! Which commands succeed (20_memory.md R54): the checks of 60_exceptions.md R119 to R121 read `VARIANT`, `IN_LEN` and `CELLIDX` alone. -/

namespace Sys2Proof.Machine

/-- A well-formed command passes its check where the operands that it checks are in range. -/
theorem commandCheck_of_operands {i : Instr} {s : State} (hwf : i.wellFormed = true)
    (hvariant : i ∈ [Instr.mhlInit, .mhlStep, .mhlRun, .sum] → s.variant = 0 ∨ s.variant = 1 ∨ s.variant = 2)
    (hlong : i ∈ [Instr.mhlInit, .mhlRun, .sum] → s.variant = 1 → 43 ≤ s.inLen.toNat)
    (hindex : i ∈ [Instr.cellRead, .cellWrite, .mhlShuffle] → s.cellIdx.toNat < 131072) : commandCheck i s = none := by
  have hsource : i ≠ .aesKeyexp 3 := by
    rintro rfl
    exact absurd hwf (by decide)
  rw [commandCheck_eq, if_neg hsource, if_neg, if_neg, if_neg]
  · exact fun ⟨hi, hout⟩ => Nat.not_lt.mpr hout (hindex hi)
  · exact fun ⟨hi, h1, hshort⟩ => Nat.not_le.mpr hshort (hlong hi h1)
  · rintro ⟨hi, h0, h1, h2⟩
    obtain h | h | h := hvariant hi
    · exact h0 h
    · exact h1 h
    · exact h2 h

end Sys2Proof.Machine
end

section

open Sys2Proof Sys2Proof.Machine Sys2Proof.Rule

/-- Settles O24: `VARIANT` and `CELLIDX` are 0 after reset, so every check passes. -/
theorem everyCommandIsUsableAfterReset : Obligations.EveryCommandIsUsableAfterReset := by
  intro i hwf
  have check : commandCheck i State.reset = none :=
    commandCheck_of_operands hwf (fun _ => .inl rfl) (fun _ h => absurd h (by decide)) fun _ => by decide
  exact ⟨_, exec_of_pass check, rfl, rfl⟩

/-- Settles O59: CACHE_ZERO keeps the operands that the checks read. -/
theorem everyCommandIsUsableAfterCacheZero : Obligations.EveryCommandIsUsableAfterCacheZero := by
  intro i s hwf hvariant hlong hindex
  have check : commandCheck i (complete (commandEffect .cacheZero s)) = none := commandCheck_of_operands hwf hvariant hlong hindex
  exact ⟨_, _, exec_of_pass rfl, exec_of_pass check, rfl, rfl⟩

end

section

/-! The views of a cell (20_memory.md R43 to R45, R50), and what a cell store does to each byte. -/

namespace Sys2Proof.Machine

open Rule

/-- Everything that `CellWrite` does to a byte (20_memory.md R45). -/
theorem readByte_cellWrite {m : Memory} (n : CellIndex) (v : Pair) (hm : Memory.wf m = true) (a : Nat) :
    readByte (cellWrite m n v) a =
      if 16 * n.toNat ≤ a ∧ a < 16 * n.toNat + 16 then byteOf v (a - 16 * n.toNat) else readByte m a := by
  by_cases h : 16 * n.toNat ≤ a ∧ a < 16 * n.toNat + 16
  · have byte := byteOf_cellRead (cellWrite m n v) n (k := a - 16 * n.toNat) (by omega)
    rw [cellRead_cellWrite_same n v hm, Nat.add_sub_of_le h.1] at byte
    rw [if_pos h, byte]
  · rw [if_neg h, readByte_cellWrite_other v hm (by omega)]

/-- A half-word is two bytes, the lower first. -/
theorem halfOf_eq_bytes (v : Pair) (h : Nat) : halfOf v h = byteOf v (2 * h + 1) ++ byteOf v (2 * h) := by
  refine BitVec.eq_of_getLsbD_eq fun i hi => ?_
  rw [halfOf, byteOf, byteOf]
  generalize v.hi ++ v.lo = x
  rw [BitVec.getLsbD_extractLsb', BitVec.getLsbD_append, BitVec.getLsbD_extractLsb', BitVec.getLsbD_extractLsb']
  by_cases h8 : i < 8
  · simp [h8, hi, show 16 * h + i = 8 * (2 * h) + i by omega]
  · simp [h8, hi, show i - 8 < 8 by omega, show 16 * h + i = 8 * (2 * h + 1) + (i - 8) by omega]

/-- `MemRead` of two bytes. -/
theorem memRead_two (m : Memory) (addr : Nat) :
    memRead m addr 2 = (readByte m addr).toNat + 2 ^ 8 * (readByte m (addr + 1)).toNat := by
  simp [memRead]

theorem toNat_ofNat_memRead (m : Memory) (addr : Nat) : (BitVec.ofNat 64 (memRead m addr 8)).toNat = memRead m addr 8 := by
  rw [BitVec.toNat_ofNat, Nat.mod_eq_of_lt (lt_of_lt_of_eq (memRead_lt m addr 8) (by norm_num))]

end Sys2Proof.Machine
end

section

open Sys2Proof Sys2Proof.Machine Sys2Proof.Rule

/-- Settles O28: the index is in range exactly when the check passes, the store is `readByte_cellWrite`, and CELL_READ of the same index
reads the cell just stored. -/
theorem cellWriteResult : Obligations.CellWriteResult := by
  intro s
  have check : commandCheck .cellWrite s = if 131072 ≤ s.cellIdx.toNat then some .cellIdx else none := rfl
  constructor
  · intro hm hidx
    rw [if_neg (Nat.not_le.mpr hidx)] at check
    have hcell : (selectedCell s).toNat = s.cellIdx.toNat := selectedCell_toNat check
    refine ⟨_, exec_of_pass check, rfl, cellWrite_wf _ _ hm, fun a => ?_, _, exec_of_pass check, ?_⟩
    · rw [← hcell]
      exact readByte_cellWrite _ _ hm a
    · exact cellRead_cellWrite_same _ _ hm
  · intro hidx
    rw [if_pos hidx] at check
    exact exec_of_error check

/-- Settles O56: a byte of a cell is the scratchpad's, a half-word two of its bytes, and its lanes are `MemRead`s of eight. -/
theorem cellViewsAreOneStorage : Obligations.CellViewsAreOneStorage := by
  refine fun m n => ⟨fun k hk => byteOf_cellRead m n hk, fun h hh => ?_, ?_, ?_⟩
  · rw [halfOf_eq_bytes, toNat_append, byteOf_cellRead m n (by omega), byteOf_cellRead m n (by omega), memRead_two, Nat.add_assoc]
  · rw [cellRead, toNat_ofNat_memRead, ← Nat.mul_assoc]
  · rw [cellRead, toNat_ofNat_memRead, Nat.mul_add, ← Nat.mul_assoc]

end

section

/-! AES_ROUNDS as AES_ROUND commands (41_aes.md R86). -/

namespace Sys2Proof.Machine

open Rule

/-- The state after AES_ROUND with round key 0, and then with the round keys 1 to `n` and `X` at the `Y` before. -/
def afterAesRounds (s : State) : Nat → State
  | 0 => complete (aesRoundEffect { s with k := roundKeyOf s.rk 0 })
  | n + 1 => complete (aesRoundEffect { afterAesRounds s n with
      x := (afterAesRounds s n).y, k := roundKeyOf s.rk (Fin.ofNat 10 (n + 1)) })

/-- Its `Y` is the value after the first `n + 1` rounds of AES_ROUNDS. -/
theorem afterAesRounds_y (s : State) {n : Nat} (h : n < 10) : (afterAesRounds s n).y = roundsPair s.rk s.x (n + 1) := by
  induction n with
  | zero =>
    have first : roundsPair s.rk s.x (0 + 1) = cnRoundPair (roundsPair s.rk s.x 0) (roundKeyOf s.rk 0) :=
      roundsPair_succ s.rk s.x 0
    rw [first, roundsPair_zero]
    rfl
  | succ n ih =>
    have hkey : Fin.ofNat 10 (n + 1) = ⟨n + 1, h⟩ := Fin.ext (Nat.mod_eq_of_lt h)
    rw [roundsPair_succ s.rk s.x ⟨n + 1, h⟩, ← ih (by omega), ← hkey]
    rfl

end Sys2Proof.Machine
end

section

open Sys2Proof Sys2Proof.Machine Sys2Proof.Rule

/-- Settles O36: neither command has a check, and the rounds of AES_ROUNDS are those of the AES_ROUNDs (`afterAesRounds_y`). -/
theorem aesRoundsEqualsTenAesRounds : Obligations.AesRoundsEqualsTenAesRounds := by
  refine fun s => ⟨afterAesRounds s, exec_of_pass rfl, fun r => ?_, ?_⟩
  · have hkey : (⟨r.val + 1, by omega⟩ : Fin 10) = Fin.ofNat 10 (r.val + 1) := Fin.ext (Nat.mod_eq_of_lt (by omega)).symm
    rw [hkey]
    exact exec_of_pass rfl
  · rw [afterAesRounds_y s (by decide), roundsPair_ten]
    exact exec_of_pass (i := .aesRounds) rfl

end

section

/-! SP_INIT (42_scratchpad_init.md R88): what it leaves in every cell is made of `ST` alone. -/

namespace Sys2Proof.Machine

variable {s s' : State} (hst : s.st = s'.st)
include hst

theorem keyFromStLo_congr : keyFromStLo s = keyFromStLo s' := by rw [keyFromStLo, keyFromStLo, hst]

theorem spInitBlock_congr (ch : Nat) (j : Fin 8) : spInitBlock s ch j = spInitBlock s' ch j := by
  induction ch with
  | zero => rw [spInitBlock, spInitBlock, hst]
  | succ ch ih => rw [spInitBlock, spInitBlock, ih, keyFromStLo_congr hst]

variable (hm : Memory.wf s.sp = true) (hm' : Memory.wf s'.sp = true)
include hm hm'

/-- Every cell is written, so scratchpads in canonical form come out the same list. -/
theorem spInitEffect_sp_congr : (spInitEffect s).sp = (spInitEffect s').sp := by
  obtain ⟨-, hcells, -⟩ := spInitEffect_cells hm
  obtain ⟨-, hcells', -⟩ := spInitEffect_cells hm'
  refine memory_ext_cells (spInitEffect_wf hm) (spInitEffect_wf hm') fun n => ?_
  obtain ⟨ch, hch, j, rfl⟩ := exists_chunkCell n
  rw [hcells ch hch, hcells' ch hch, spInitBlock_congr hst]

theorem spInitEffect_blk_congr : (spInitEffect s).blk = (spInitEffect s').blk := by
  obtain ⟨-, -, hblk⟩ := spInitEffect_cells hm
  obtain ⟨-, -, hblk'⟩ := spInitEffect_cells hm'
  exact blocks_ext fun j => by rw [hblk, hblk', spInitBlock_congr hst]

end Sys2Proof.Machine
end

section

open Sys2Proof Sys2Proof.Machine Sys2Proof.Rule

/-- Settles O38: what SP_INIT writes (`exec_spInit`) are a key schedule, cells and blocks made of `ST` alone. -/
theorem spInitDependsOnStAlone : Obligations.SpInitDependsOnStAlone :=
  fun s s' hm hm' hst => ⟨_, _, exec_spInit s, exec_spInit s', spInitEffect_sp_congr hst hm hm',
    congrArg expandKey (keyFromStLo_congr hst), spInitEffect_blk_congr hst hm hm'⟩

end

section

/-! What an iteration leaves (43_memory_hard_loop.md R92, R93), read off `Iteration`, so for the three variants at once. -/

namespace Sys2Proof.Machine

open Rule

/-! Cells and bytes. -/

/-- A byte is as before where its cell is. -/
theorem readByte_congr_cell {m m' : Memory} (hm : Memory.wf m = true) (hm' : Memory.wf m' = true) {a : Nat}
    (h : ∀ n : CellIndex, n.toNat = a / 16 → cellRead m' n = cellRead m n) : readByte m' a = readByte m a := by
  by_cases ha : scratchpadBytes ≤ a
  · rw [readByte_beyond hm ha, readByte_beyond hm' ha]
  · have hlt : a / 16 < 2 ^ 17 := by
      unfold scratchpadBytes at ha
      omega
    have hn : (BitVec.ofNat 17 (a / 16)).toNat = a / 16 := by rw [BitVec.toNat_ofNat, Nat.mod_eq_of_lt hlt]
    have hbyte := congrArg (byteOf · (a % 16)) (h _ hn)
    simp only [byteOf_cellRead _ _ (Nat.mod_lt a (by decide : 0 < 16)), hn, Nat.div_add_mod] at hbyte
    exact hbyte

/-- The neighbours of a cell are in its group of four (20_memory.md R47). -/
theorem neighbour_group (n : CellIndex) (i : Fin 3) : (neighbour n i).toNat / 4 = n.toNat / 4 := by
  have hsmall : ∀ j : Fin 3, (BitVec.ofNat 17 (j.val + 1)).toNat >>> 2 = 0 := by decide
  have h := Nat.shiftRight_xor_distrib (a := n.toNat) (b := (BitVec.ofNat 17 (i.val + 1)).toNat) (i := 2)
  rw [hsmall, Nat.xor_zero, Nat.shiftRight_eq_div_pow, Nat.shiftRight_eq_div_pow] at h
  rw [neighbour, BitVec.toNat_xor]
  exact h

theorem cells_put_other {m : Cells} {n k : CellIndex} (v : Pair) (h : k ≠ n) : m.put n v k = m k := if_neg h

theorem cells_put_same (m : Cells) (n : CellIndex) (v : Pair) : m.put n v n = v := if_pos rfl

/-- A shuffle leaves the cells of every other group. -/
theorem cells_shuffle_other {perm : Fin 24 → Fin 24} {n k : CellIndex} {m m' : Cells} (h : Shuffle perm n m m')
    (hk : k.toNat / 4 ≠ n.toNat / 4) : m' k = m k := by
  refine h.1 k fun i hi => hk ?_
  rw [hi, neighbour_group]

/-! The registers after an iteration. -/

variable {s t : State} {m m' : Cells} (h : Iteration s t m m')
include h

theorem iteration_addresses : t.addr = toAddr s.a ∧ t.addr2 = toAddr t.b := by
  obtain ⟨c, m3, m4, m5, m9, m11, -, -, -, -, -, -, -, ht⟩ := h
  rw [ht]
  exact ⟨cellAddress_eq_toAddr _, cellAddress_eq_toAddr _⟩

/-- The cells that an iteration may change: `ADDR` and `ADDR2`, and in variant 2 the group of each. -/
theorem iteration_cells_kept {k : CellIndex}
    (hk : if s.variant = 2 then k.toNat / 4 ≠ t.addr.toNat / 4 ∧ k.toNat / 4 ≠ t.addr2.toNat / 4 else k ≠ t.addr ∧ k ≠ t.addr2) :
    m' k = m k := by
  obtain ⟨c, m3, m4, m5, m9, m11, -, h3, h4, h5, h9, h11, h', ht⟩ := h
  have haddr : t.addr = cellAddress s.a := by rw [ht]
  have haddr2 : t.addr2 = cellAddress c := by rw [ht]
  rw [haddr, haddr2] at hk
  have ne : k ≠ cellAddress s.a ∧ k ≠ cellAddress c := by
    split_ifs at hk
    · exact ⟨fun e => hk.1 (by rw [e]), fun e => hk.2 (by rw [e])⟩
    · exact hk
  have k3 : m3 k = m k := by
    split_ifs at h3 hk
    · exact cells_shuffle_other h3 hk.1
    · rw [h3]
  have k5 : m5 k = m4 k := by
    rw [h5]
    split_ifs
    · exact cells_put_other _ ne.1
    · rfl
  have k9 : m9 k = m5 k := by
    split_ifs at h9 hk
    · exact cells_shuffle_other h9 hk.2
    · rw [h9]
  have k' : m' k = m11 k := by
    rw [h']
    split_ifs
    · exact cells_put_other _ ne.2
    · rfl
  rw [k', h11, cells_put_other _ ne.2, k9, k5, h4, cells_put_other _ ne.1, k3]

/-- `B` is `C`, `A` is the sum XORed with `C2`, and the cell at `ADDR2` is the sum, with `TWEAK` in variant 1 (R93 (1), (5)). -/
theorem iteration_sum : t.b = t.c ∧
    (m' t.addr2).lo = t.a.lo ^^^ t.c2.lo ∧
    (m' t.addr2).hi = t.a.hi ^^^ t.c2.hi ^^^ (if s.variant = 1 then s.tweak else 0) ∧
    t.a.lo = (s.a.lo + t.p.hi) ^^^ t.c2.lo ∧ t.a.hi = (s.a.hi + t.p.lo) ^^^ t.c2.hi := by
  obtain ⟨c, m3, m4, m5, m9, m11, -, -, -, -, -, h11, h', ht⟩ := h
  have cancel : ∀ u v : Word, u ^^^ v ^^^ v = u := fun u v => by rw [BitVec.xor_assoc, BitVec.xor_self, BitVec.xor_zero]
  have zero : ∀ u : Word, u ^^^ 0 = u := fun _ => BitVec.xor_zero
  rw [ht, h', h11]
  by_cases h1 : s.variant = 1
  · simp only [if_pos h1, cells_put_same, cancel, and_self]
  · simp only [if_neg h1, cells_put_same, cancel, zero, and_self]

end Sys2Proof.Machine
end

section

/-! The commands of the memory-hard loop that run it (43_memory_hard_loop.md R96, R97). -/

namespace Sys2Proof.Machine

open Rule

/-- `A`, `B`, `C2` and `P` after an iteration do not depend on `TWEAK`. -/
theorem afterMhlStep_tweak (v : Variant) (s : State) (w : Word) :
    (afterMhlStep v { s with tweak := w }).a = (afterMhlStep v s).a ∧
    (afterMhlStep v { s with tweak := w }).b = (afterMhlStep v s).b ∧
    (afterMhlStep v { s with tweak := w }).c2 = (afterMhlStep v s).c2 ∧
    (afterMhlStep v { s with tweak := w }).p = (afterMhlStep v s).p := by
  cases v <;> exact ⟨rfl, rfl, rfl, rfl⟩

theorem variantOf_isSome {w : Word} (h : w = 0 ∨ w = 1 ∨ w = 2) : ∃ v, variantOf w = some v := by
  rcases h with rfl | rfl | rfl <;> exact ⟨_, rfl⟩

/-- The end of a command before an iteration comes to the same as after it. -/
theorem afterMhlStep_complete (v : Variant) (s : State) : afterMhlStep v (complete s) = afterMhlStep v s := by
  cases v <;> rfl

/-- The state after the first `n` iterations of MHL_RUN in variant `v`. -/
def mhlRunPasses (v : Variant) (s : State) (n : Nat) : State :=
  loopUp (fun _ => iterateCounted v2ShufflePerm v) n (mhlInitEffect s)

theorem mhlRunPasses_succ (v : Variant) (s : State) (n : Nat) :
    complete (mhlRunPasses v s (n + 1)) = afterMhlStep v (complete (mhlRunPasses v s n)) := by
  rw [afterMhlStep_complete, afterMhlStep, mhlRunPasses, loopUp_succ, mhlRunPasses]

theorem mhlRunPasses_variant (v : Variant) (s : State) (n : Nat) : (mhlRunPasses v s n).variant = s.variant := by
  have pass : ∀ t, (iterateCounted v2ShufflePerm v t).variant = t.variant := fun t =>
    congrArg (·.variant) (iterateCounted_mask v2ShufflePerm v t)
  exact loopUp_keeps (·.variant) _ n (mhlInitEffect s) fun _ => pass

/-- `ITER` counts the iterations from 0. -/
theorem mhlRunPasses_iter (v : Variant) (s : State) (n : Nat) : (mhlRunPasses v s n).iter = BitVec.ofNat 32 n := by
  refine loopUp_induct (fun n t => t.iter = BitVec.ofNat 32 n) _ n (mhlInitEffect s) rfl fun n t _ ht => ?_
  have counted : (iterateCounted v2ShufflePerm v t).iter = t.iter + 1 := by cases v <;> rfl
  rw [counted, ht, BitVec.ofNat_add]
  rfl

theorem loopIterations_eq : loopIterations = 524288 := by rw [loopIterations]

theorem mhlRunEffect_eq_passes {s : State} {v : Variant} (hv : variantOf s.variant = some v) :
    mhlRunEffect s = mhlRunPasses v s 524288 := by
  rw [mhlRunEffect, checkedVariant_of hv, loopIterations_eq, mhlRunPasses]

/-- What SUM and MHL_RUN cannot run on fails their checks. -/
theorem check_of_not_hashable {s : State} (h : ¬ hashable s) : ∃ e, checkVariantThenInput s = some e := by
  cases hc : checkVariantThenInput s with
  | some e => exact ⟨e, rfl⟩
  | none => exact absurd ⟨checkVariant_none.mp (checkVariantThenInput_none.mp hc).1, long_of_check hc⟩ h

end Sys2Proof.Machine
end

section

open Sys2Proof Sys2Proof.Machine Sys2Proof.Rule

/-- Settles O43: the machine's iteration is R92's (`mhlStepResult`), which leaves the cells outside `ADDR` and `ADDR2`, or outside their
groups (`iteration_cells_kept`), and so their bytes. -/
theorem mhlStepMemoryFrame : Obligations.MhlStepMemoryFrame := by
  intro s t hm hv h
  obtain ⟨u, hu, hmu, hiter⟩ := (mhlStepResult s).1 hm hv
  cases hu.symm.trans h
  obtain ⟨haddr, haddr2⟩ := iteration_addresses hiter
  refine ⟨haddr, haddr2, fun a ha => readByte_congr_cell hm hmu fun n hn => iteration_cells_kept hiter ?_⟩
  have hgroup : n.toNat / 4 = a / 64 := by omega
  split_ifs at ha ⊢
  · rwa [hgroup]
  · exact ⟨fun e => ha.1 (by rw [← hn, e]), fun e => ha.2 (by rw [← hn, e])⟩

/-- Settles O49: the registers and the cell at `ADDR2` are those of R92's iteration (`iteration_sum`), and the machine's iteration reads
`TWEAK` for the last store alone (`afterMhlStep_tweak`). -/
theorem storedTweakDoesNotReachA : Obligations.StoredTweakDoesNotReachA := by
  intro s hm hv
  obtain ⟨t, ht, -, hiter⟩ := (mhlStepResult s).1 hm hv
  obtain ⟨hbc, hlo, hhi, halo, hahi⟩ := iteration_sum hiter
  refine ⟨t, ht, hbc, hlo, hhi, halo, hahi, fun w => ?_⟩
  obtain ⟨v, hv⟩ := variantOf_isSome hv
  cases (exec_mhlStep hv).symm.trans ht
  exact ⟨_, exec_mhlStep (s := { s with tweak := w }) hv, afterMhlStep_tweak v s w⟩

/-- Settles O44: the states between are those of MHL_RUN's loop (`mhlRunPasses`), each completed; and the two commands have the same
check. -/
theorem mhlRunIsInitAndSteps : Obligations.MhlRunIsInitAndSteps := by
  refine fun s => ⟨fun h => ?_, fun h => ?_⟩
  · obtain ⟨v, hv⟩ := variantOf_isSome h.1
    have check : checkVariantThenInput s = none := checkVariantThenInput_of_hashable h
    refine ⟨fun k => complete (mhlRunPasses v s k), exec_of_pass check, fun k _ => ?_, ?_, mhlRunPasses_iter v s _⟩
    · have same : variantOf (complete (mhlRunPasses v s k)).variant = some v := by
        rw [complete_variant, mhlRunPasses_variant, hv]
      exact (exec_mhlStep same).trans (congrArg Host.Outcome.next (mhlRunPasses_succ v s k).symm)
    · exact (exec_of_pass (i := .mhlRun) check).trans
        (congrArg (fun u => Host.Outcome.next (complete u)) (mhlRunEffect_eq_passes hv))
  · obtain ⟨e, he⟩ := check_of_not_hashable h
    rw [exec_of_error (i := .mhlRun) he, exec_of_error (i := .mhlInit) he]
    rfl

end

section

/-! The shuffle's tables and the tweak (43_memory_hard_loop.md R91, R94, R98). -/

namespace Sys2Proof.Machine

open Rule

/-- R94's constraint on a table. -/
def LegalTable (perm : Fin 24 → Fin 24) : Prop :=
  Function.Bijective perm ∧
    ∀ d : Fin 24, (d.val < 8 → 16 ≤ (perm d).val) ∧ (8 ≤ d.val ∧ d.val < 16 → (perm d).val < 8) ∧
      (16 ≤ d.val → 8 ≤ (perm d).val ∧ (perm d).val < 16)

/-- The constraint by chunks: destination chunk `c` draws from chunk `c + 2` modulo 3. -/
theorem LegalTable.chunk {perm : Fin 24 → Fin 24} (h : LegalTable perm) (d : Fin 24) :
    (perm d).val / 8 = (d.val / 8 + 2) % 3 := by
  obtain ⟨h0, h1, h2⟩ := h.2 d
  omega

theorem shuffleTable_val (lanes : Fin 3 → Equiv.Perm (Fin 8)) (d : Fin 24) : (shuffleTable lanes d).val =
    8 * ((d.val / 8 + 2) % 3) + (lanes ⟨d.val / 8, by omega⟩ ⟨d.val % 8, by omega⟩).val := rfl

/-- A table made of lane choices is a permutation: its entries tell the chunk, and the lanes of a chunk are permuted. -/
theorem shuffleTable_injective (lanes : Fin 3 → Equiv.Perm (Fin 8)) : Function.Injective (shuffleTable lanes) := by
  intro d d' h
  have hval := congrArg Fin.val h
  rw [shuffleTable_val, shuffleTable_val] at hval
  have hchunk : d.val / 8 = d'.val / 8 := by omega
  simp only [hchunk] at hval
  have hlane := (lanes ⟨d'.val / 8, by omega⟩).injective (Fin.ext (Nat.add_left_cancel hval))
  have hmod : d.val % 8 = d'.val % 8 := congrArg Fin.val hlane
  exact Fin.ext (by omega)

theorem shuffleTable_legal (lanes : Fin 3 → Equiv.Perm (Fin 8)) : LegalTable (shuffleTable lanes) := by
  refine ⟨Finite.injective_iff_bijective.mp (shuffleTable_injective lanes), fun d => ?_⟩
  rw [shuffleTable_val]
  omega

/-- The lane that a table gives lane `l` of chunk `c`. -/
def laneOf (perm : Fin 24 → Fin 24) (c : Fin 3) (l : Fin 8) : Fin 8 := ⟨(perm ⟨8 * c.val + l.val, by omega⟩).val % 8, by omega⟩

theorem laneOf_bijective {perm : Fin 24 → Fin 24} (h : LegalTable perm) (c : Fin 3) : Function.Bijective (laneOf perm c) := by
  refine Finite.injective_iff_bijective.mp fun l l' hl => ?_
  have hmod : (perm ⟨8 * c.val + l.val, by omega⟩).val % 8 = (perm ⟨8 * c.val + l'.val, by omega⟩).val % 8 := congrArg Fin.val hl
  have hchunk := h.chunk ⟨8 * c.val + l.val, by omega⟩
  have hchunk' := h.chunk ⟨8 * c.val + l'.val, by omega⟩
  simp only at hchunk hchunk'
  have same := congrArg Fin.val (h.1.injective (Fin.ext (by omega) :
    perm ⟨8 * c.val + l.val, by omega⟩ = perm ⟨8 * c.val + l'.val, by omega⟩))
  exact Fin.ext (Nat.add_left_cancel same)

/-- Every legal table is the one that its lanes make. -/
theorem LegalTable.eq_shuffleTable {perm : Fin 24 → Fin 24} (h : LegalTable perm) :
    perm = shuffleTable fun c => Equiv.ofBijective (laneOf perm c) (laneOf_bijective h c) := by
  funext d
  apply Fin.ext
  rw [shuffleTable_val, Equiv.ofBijective_apply, laneOf, ← h.chunk d]
  simp only [Nat.div_add_mod]

theorem legalTable_iff (perm : Fin 24 → Fin 24) : LegalTable perm ↔ ∃ lanes, perm = shuffleTable lanes :=
  ⟨fun h => ⟨_, h.eq_shuffleTable⟩, fun ⟨lanes, h⟩ => h ▸ shuffleTable_legal lanes⟩

/-- The default table keeps the lane. -/
theorem defaultShufflePerm_eq : defaultShufflePerm = shuffleTable fun _ => Equiv.refl _ := by
  funext d
  apply Fin.ext
  rw [shuffleTable_val, defaultShufflePerm, Equiv.refl_apply]
  simp only
  omega

/-- Under the default table a neighbour takes the whole of the neighbour two on. -/
theorem cellRead_defaultShuffle (n : CellIndex) {m : Memory} (hm : Memory.wf m = true) (i : Fin 3) :
    cellRead (shuffle defaultShufflePerm n m) (neighbour n i) = cellRead m (neighbour n (i + 2)) := by
  refine pair_ext_half fun l => ?_
  have half := shuffle_half defaultShufflePerm n hm i l
  have hchunk : (8 * i.val + l.val + 16) % 24 / 8 = (i + 2).val := by
    rw [Fin.val_add]
    omega
  have hlane : (8 * i.val + l.val + 16) % 24 % 8 = l.val := by omega
  simp only [defaultShufflePerm, hchunk, hlane] at half
  exact half

/-- `tprime` reads bits 5, 4 and 0 alone. -/
theorem tprime_eq (t : Word) : tprime t =
    (if t.getLsbD 0 then 0 else 0x10) ||| (if !t.getLsbD 0 && t.getLsbD 4 then 0x20 else 0) |||
      (if t.getLsbD 5 then 0x10 else 0) := by
  have bit0 : ~~~t &&& 1 = if !t.getLsbD 0 then 1 else 0 := by
    simpa [show BitVec.twoPow 64 0 = 1 from rfl] using BitVec.and_twoPow (~~~t) 0
  have bit4 : (0x10 : Word) &&& t = if t.getLsbD 4 then 0x10 else 0 := by
    rw [BitVec.and_comm]
    exact BitVec.and_twoPow t 4
  have bit5 : t &&& 32 = if t.getLsbD 5 then 32 else 0 := BitVec.and_twoPow t 5
  rw [tprime, bit0, bit5]
  cases t.getLsbD 0
  · have shifted : (if !false then (1 : Word) else 0) <<< 4 = 0x10 := rfl
    rw [shifted, bit4]
    cases t.getLsbD 4 <;> cases t.getLsbD 5 <;> rfl
  · have shifted : (if !true then (1 : Word) else 0) <<< 4 = 0 := rfl
    have masked : (0 : Word) &&& t = 0 := BitVec.zero_and
    rw [shifted, masked]
    cases t.getLsbD 4 <;> cases t.getLsbD 5 <;> rfl

end Sys2Proof.Machine
end

section

open Sys2Proof Sys2Proof.Machine Sys2Proof.Rule

/-- Settles O46: a legal table is the one its lanes make, and the parameter and the default table are made of lanes. -/
theorem shuffleTablesAreTheLegalOnes : Obligations.ShuffleTablesAreTheLegalOnes :=
  ⟨shuffleTable_legal Config.shuffleLanes, legalTable_iff, (legalTable_iff _).mpr ⟨_, defaultShufflePerm_eq⟩⟩

/-- Settles O47: three shuffles take each neighbour's place three steps of two on, which is its own modulo 3, and no other cell's. -/
theorem threeDefaultShufflesRestore : Obligations.ThreeDefaultShufflesRestore := by
  intro n m hm
  have hm1 := shuffle_wf defaultShufflePerm n hm
  have hm2 := shuffle_wf defaultShufflePerm n hm1
  refine memory_ext_cells (shuffle_wf _ _ hm2) hm fun k => ?_
  by_cases hk : ∃ i, k = neighbour n i
  · obtain ⟨i, rfl⟩ := hk
    have back : ∀ j : Fin 3, j + 2 + 2 + 2 = j := by decide
    rw [cellRead_defaultShuffle n hm2, cellRead_defaultShuffle n hm1, cellRead_defaultShuffle n hm, back]
  · have other : k ≠ n ^^^ 1 ∧ k ≠ n ^^^ 2 ∧ k ≠ n ^^^ 3 :=
      ⟨fun e => hk ⟨0, e⟩, fun e => hk ⟨1, e⟩, fun e => hk ⟨2, e⟩⟩
    rw [shuffle_other _ hm2 other, shuffle_other _ hm1 other, shuffle_other _ hm other]

/-- Settles O48: `tprime` by the three bits that it reads (`tprime_eq`). -/
theorem tprimeTable : Obligations.TprimeTable := by
  intro t
  rw [tprime_eq]
  cases t.getLsbD 5 <;> cases t.getLsbD 4 <;> cases t.getLsbD 0 <;> rfl

end

section

/-! SUM (46_control.md R113, R114): what its result is made of. A view keeps some fields and forgets the others; the loop takes states
alike in `loopView` to states alike in `cacheView`, for it writes `C`, `C2`, `P`, `ADDR` and `ADDR2` before it reads them. -/

namespace Sys2Proof.Machine

open Rule

/-- The fields that SUM leaves a function of its input. -/
def digestView (s : State) : State :=
  { State.reset with
    st := s.st, sp := s.sp, rk := s.rk, blk := s.blk, a := s.a, b := s.b, c := s.c, c2 := s.c2, p := s.p, addr := s.addr,
    addr2 := s.addr2, tweak := s.tweak, divr := s.divr, sqrtr := s.sqrtr, iter := s.iter, sel := s.sel, digest := s.digest }

/-- Those of them that FINALIZE reads or keeps. -/
def cacheView (s : State) : State := { digestView s with sel := 0, digest := Vector.replicate 4 0 }

/-- Those of them that the memory-hard loop reads as it finds them, or keeps. -/
def loopView (s : State) : State :=
  { cacheView s with c := Pair.zero, c2 := Pair.zero, p := Pair.zero, addr := 0, addr2 := 0 }

/-- States alike for the loop are alike for FINALIZE after one iteration. -/
theorem cacheView_iterateCounted {v : Variant} {s t : State} (h : loopView s = loopView t) :
    cacheView (iterateCounted v2ShufflePerm v s) = cacheView (iterateCounted v2ShufflePerm v t) := by
  have viewed : ∀ u, cacheView (iterateCounted v2ShufflePerm v u) = cacheView (iterateCounted v2ShufflePerm v (loopView u)) := by
    intro u
    cases v with
    | v0 => simp only [iterateCounted, iterate_v0, countIteration, loopView, cacheView, digestView]
    | v1 => simp only [iterateCounted, iterate_v1, countIteration, loopView, cacheView, digestView]
    | v2 => simp only [iterateCounted, iterate_v2, countIteration, loopView, cacheView, digestView]
  rw [viewed s, h, ← viewed t]

theorem loopView_of_cacheView {s t : State} (h : cacheView s = cacheView t) : loopView s = loopView t :=
  congrArg (fun u => { u with c := Pair.zero, c2 := Pair.zero, p := Pair.zero, addr := 0, addr2 := 0 }) h

/-- A loop of at least one iteration does what one does. -/
theorem cacheView_loop (v : Variant) {n : Nat} (hn : n ≠ 0) {s t : State} (h : loopView s = loopView t) :
    cacheView (loopUp (fun _ => iterateCounted v2ShufflePerm v) n s) =
      cacheView (loopUp (fun _ => iterateCounted v2ShufflePerm v) n t) := by
  obtain ⟨n, rfl⟩ := Nat.exists_eq_succ_of_ne_zero hn
  have blind : BlindTo loopView (iterateCounted v2ShufflePerm v) := fun _ _ hst =>
    loopView_of_cacheView (cacheView_iterateCounted hst)
  rw [loopUp_succ, loopUp_succ]
  exact cacheView_iterateCounted (BlindTo.loopUp (fun _ => blind) n h)

/-- What MHL_INIT leaves for the loop is made of `ST`, `VARIANT` and the nonce. -/
theorem loopView_mhlInit {s t : State} (hst : s.st = t.st) (hsp : s.sp = t.sp) (hrk : s.rk = t.rk) (hblk : s.blk = t.blk)
    (hv : s.variant = t.variant) (hnonce : s.variant = 1 → inputNonce s = inputNonce t) :
    loopView (mhlInitEffect s) = loopView (mhlInitEffect t) := by
  have tweak : (if s.variant = 1 then t.st[24] ^^^ inputNonce s else 0) = if t.variant = 1 then t.st[24] ^^^ inputNonce t else 0 :=
    if_ctx_congr (by rw [hv]) (fun h => by rw [hnonce (hv.trans h)]) fun _ => rfl
  simp only [loopView, cacheView, digestView, mhlInitEffect, hst, hsp, hrk, hblk, tweak]

theorem finalizeEffect_blind_cacheView : BlindTo cacheView finalizeEffect :=
  have load : BlindTo cacheView finalizeLoad := .of_masked fun _ => rfl
  have pass : ∀ ch, BlindTo cacheView (finalizeChunk ch) := fun _ => .of_masked fun _ => rfl
  have store : BlindTo cacheView finalizeStore := .of_masked fun _ => rfl
  store.comp ((BlindTo.loopUp pass chunkCount).comp load)

theorem digestView_finalMux {s t : State} (h : cacheView s = cacheView t) :
    digestView (finalMuxEffect s) = digestView (finalMuxEffect t) := by
  have viewed : ∀ u, digestView (finalMuxEffect u) = digestView (finalMuxEffect (cacheView u)) := fun _ => rfl
  rw [viewed s, h, ← viewed t]

theorem digestView_complete (s : State) : digestView (complete s) = digestView s := rfl

variable {s s' : State} (hm : Memory.wf s.sp = true) (hm' : Memory.wf s'.sp = true) (hs : hashable s) (hv : s.variant = s'.variant)
  (hlen : s.inLen = s'.inLen) (hbytes : ∀ k, k < s.inLen.toNat → inByte s k = inByte s' k)
include hm hm' hs hv hlen hbytes

/-- After KECCAK_ABSORB, SP_INIT and MHL_INIT two states with the same input and `VARIANT` are alike for the loop. -/
theorem loopView_sum_start : loopView (mhlInitEffect (spInitEffect (absorbEffect (clearDv s)))) =
    loopView (mhlInitEffect (spInitEffect (absorbEffect (clearDv s')))) := by
  have hinput : input s = input s' := input_eq_of_bytes (s := s') (t := s) hlen (by rwa [hlen] at hbytes)
  have hst : (absorbEffect (clearDv s)).st = (absorbEffect (clearDv s')).st := congrArg keccakAbsorb hinput
  obtain ⟨kst, kv, kbytes, krk⟩ := spInitEffect_keeps (absorbEffect (clearDv s))
  obtain ⟨kst', kv', kbytes', krk'⟩ := spInitEffect_keeps (absorbEffect (clearDv s'))
  refine loopView_mhlInit ?_ (spInitEffect_sp_congr hst hm hm') ?_ (spInitEffect_blk_congr hst hm hm') ?_ fun h1 => ?_
  · rw [kst, kst', hst]
  · rw [krk, krk', keyFromStLo_congr hst]
  · rw [kv, kv']
    exact hv
  · rw [inputNonce_congr (kbytes : _ = s.inBytes), inputNonce_congr (kbytes' : _ = s'.inBytes)]
    exact (inputNonce_of_bytes (fun k hk => (hbytes k hk).symm) (hs.2 (kv.symm.trans h1))).symm

theorem digestView_sum : digestView (sumEffect s) = digestView (sumEffect s') := by
  have start := loopView_sum_start hm hm' hs hv hlen hbytes
  have sameVariant : checkedVariant (spInitEffect (absorbEffect (clearDv s))) =
      checkedVariant (spInitEffect (absorbEffect (clearDv s'))) := by
    obtain ⟨-, kv, -⟩ := spInitEffect_keeps (absorbEffect (clearDv s))
    obtain ⟨-, kv', -⟩ := spInitEffect_keeps (absorbEffect (clearDv s'))
    rw [checkedVariant, kv, checkedVariant, kv', absorbEffect_variant, absorbEffect_variant, clearDv_variant, clearDv_variant, hv]
  have run : cacheView (mhlRunEffect (spInitEffect (absorbEffect (clearDv s)))) =
      cacheView (mhlRunEffect (spInitEffect (absorbEffect (clearDv s')))) := by
    rw [mhlRunEffect, mhlRunEffect, sameVariant]
    exact cacheView_loop _ (by rw [loopIterations_eq]; decide) start
  rw [sumEffect, sumEffect]
  exact digestView_finalMux (finalizeEffect_blind_cacheView run)

end Sys2Proof.Machine
end

section

open Sys2Proof Sys2Proof.Machine Sys2Proof.Rule

/-- Settles O58: SUM is legal on both states, and leaves them alike in all that `digestView` shows (`digestView_sum`). -/
theorem sumDependsOnInputAndVariantAlone : Obligations.SumDependsOnInputAndVariantAlone := by
  intro s s' hm hm' hs hv hlen hbytes
  have hs' : hashable s' := by
    rw [hashable, ← hv, ← hlen]
    exact hs
  have run : ∀ {u}, hashable u → ∃ t, exec .sum u = .next t ∧ digestView t = digestView (sumEffect u) := fun h =>
    ⟨_, exec_of_pass (i := .sum) (checkVariantThenInput_of_hashable h), by rw [digestView_complete, commandEffect]⟩
  obtain ⟨t, ht, view⟩ := run hs
  obtain ⟨t', ht', view'⟩ := run hs'
  have same : digestView t = digestView t' := view.trans ((digestView_sum hm hm' hs hv hlen hbytes).trans view'.symm)
  simp only [digestView, State.mk.injEq] at same
  obtain ⟨hst, hsp, hrk, hblk, ha, hb, hc, hc2, hp, haddr, haddr2, htweak, hdivr, hsqrtr, hiter, -, -, -, -, -, -, -, -, -, -, hsel,
    hdigest, -⟩ := same
  exact ⟨t, t', ht, ht', hdigest, hsel, hst, hsp, hrk, hblk, ha, hb, hc, hc2, hp, haddr, haddr2, htweak, hdivr, hsqrtr, hiter⟩

end

section

/-! The division (44_isqrt_divmod.md R100, R101) in numbers. -/

namespace Sys2Proof.Machine

open Rule

theorem le_divisorOf (blo : Word) : 0x80000001 ≤ divisorOf blo := Nat.right_le_or

theorem mod_divisorOf_lt (blo bhi : Word) : bhi.toNat % divisorOf blo < 2 ^ 32 :=
  (Nat.mod_lt _ (Nat.lt_of_lt_of_le (by decide) (le_divisorOf blo))).trans (divisorOf_lt blo)

/-- `DIVR'` as a number: the quotient's low half and the remainder above it. -/
theorem divOf_toNat (blo bhi : Word) : (divOf blo bhi).toNat =
    bhi.toNat / divisorOf blo % 2 ^ 32 + 2 ^ 32 * (bhi.toNat % divisorOf blo) := by
  have hr := mod_divisorOf_lt blo bhi
  rw [divOf, BitVec.toNat_ofNat, Nat.mod_eq_of_lt (a := _ + _) (by omega)]

theorem quotient_le (blo bhi : Word) : bhi.toNat / divisorOf blo ≤ 0x1FFFFFFFC :=
  calc bhi.toNat / divisorOf blo
    _ ≤ (2 ^ 64 - 1) / 0x80000001 := Nat.div_le_div (Nat.le_sub_one_of_lt bhi.isLt) (le_divisorOf blo) (by decide)
    _ = 0x1FFFFFFFC := by norm_num

end Sys2Proof.Machine
end

section

open Sys2Proof Sys2Proof.Machine Sys2Proof.Rule

/-- Settles O54: the divisor has bits 31 and 0 set and no higher one, and `DIVR'` is two 32-bit halves (`divOf_toNat`). -/
theorem divisionCornerCases : Obligations.DivisionCornerCases := by
  intro blo bhi
  have hr := mod_divisorOf_lt blo bhi
  rw [v2Division_eq_divOf, divOf_toNat]
  refine ⟨le_divisorOf blo, Nat.le_of_lt_succ (divisorOf_lt blo), v2Divisor_toNat blo, quotient_le blo bhi, by omega, by omega,
    fun hlt => ?_⟩
  rw [Nat.div_eq_of_lt hlt, Nat.mod_eq_of_lt hlt]
  omega

end

section

/-! The binary64 primitives (44_isqrt_divmod.md R99) on the real values. A value scaled so that its significand lies between 2^52 and 2^53
is rounded to an integer, and that rounds it to the nearest binary64 (`f64Nearest_renormalize`). -/

namespace Sys2Proof.Machine

open Rule

/-! Values. -/

theorem f64Value_nonneg (x : Binary64) : 0 ≤ f64Value x := by
  unfold f64Value
  positivity

/-- Halving a 54-bit significand keeps the value. -/
theorem f64Value_renormalize (m : Nat) (e : Int) : f64Value (renormalize m e) = (m : ℝ) * 2 ^ e := by
  rw [renormalize]
  split_ifs with h
  · rw [f64Value, h, zpow_add_one₀ two_ne_zero]
    push_cast
    ring
  · rfl

theorem f64Canonical_renormalize {m : Nat} (e : Int) (hlo : 2 ^ 52 ≤ m) (hhi : m ≤ 2 ^ 53) : f64Canonical (renormalize m e) := by
  rw [renormalize]
  split_ifs with h
  · exact .inr ⟨Nat.le_refl _, by norm_num⟩
  · exact .inr ⟨hlo, lt_of_le_of_ne hhi h⟩

theorem renormalize_mant_even {m : Nat} (e : Int) (h : m % 2 = 0) : (renormalize m e).mant % 2 = 0 := by
  rw [renormalize]
  split_ifs
  · exact (by norm_num : 2 ^ 52 % 2 = 0)
  · exact h

/-- A canonical value is nearest to itself, and no other value is as near. -/
theorem f64Nearest_self {x : Binary64} (hx : f64Canonical x) : f64Nearest (f64Value x) x := by
  refine ⟨hx, fun y _ => ?_⟩
  rw [sub_self, abs_zero]
  refine ⟨abs_nonneg _, fun htie hne => absurd ?_ hne⟩
  exact (sub_eq_zero.mp (abs_eq_zero.mp htie.symm)).symm

/-! Rounding to an integer, and to a binary64. -/

/-- An integer other than one within a half of `ρ` is at least a half away. -/
theorem half_le_of_ne {ρ : ℝ} {m n : Nat} (hm : |ρ - m| ≤ 1 / 2) (hne : n ≠ m) : 1 / 2 ≤ |ρ - n| := by
  have apart : (1 : ℝ) ≤ |(n : ℝ) - m| := by
    have h : (1 : ℤ) ≤ |(n : ℤ) - m| := Int.one_le_abs (by omega)
    exact_mod_cast h
  have triangle : |(n : ℝ) - m| ≤ |(n : ℝ) - ρ| + |ρ - m| := abs_sub_le _ _ _
  rw [abs_sub_comm (n : ℝ) ρ] at triangle
  linarith

/-- A canonical value below the binade of `2 ^ 52 * 2 ^ e` is below `2 ^ 52 * 2 ^ e`. -/
theorem f64Value_lt_of_exp_lt {y : Binary64} (hy : f64Canonical y) {e : Int} (he : y.exp < e) :
    f64Value y < 2 ^ 52 * 2 ^ e := by
  have hmant : (y.mant : ℝ) < 2 ^ 53 := by
    have h : y.mant < 2 ^ 53 := by
      rcases hy with h | ⟨-, h⟩
      · rw [h]
        decide
      · exact h
    exact_mod_cast h
  have hexp : (2 : ℝ) ^ y.exp ≤ 2 ^ (e - 1) := zpow_le_zpow_right₀ (by norm_num) (by omega)
  calc f64Value y
    _ ≤ y.mant * 2 ^ (e - 1) := mul_le_mul_of_nonneg_left hexp (Nat.cast_nonneg _)
    _ < 2 ^ 53 * 2 ^ (e - 1) := mul_lt_mul_of_pos_right hmant (by positivity)
    _ = 2 ^ 52 * 2 ^ e := by
      rw [zpow_sub_one₀ two_ne_zero]
      ring

/-- A value of the binade of `2 ^ 52 * 2 ^ e` or above is an integer times `2 ^ e`. -/
theorem f64Value_eq_of_le_exp {y : Binary64} {e : Int} (he : e ≤ y.exp) :
    f64Value y = (y.mant * 2 ^ (y.exp - e).toNat : ℕ) * 2 ^ e := by
  have hexp : (2 : ℝ) ^ y.exp = 2 ^ (y.exp - e).toNat * 2 ^ e := by
    rw [← zpow_natCast, ← zpow_add₀ two_ne_zero, Int.toNat_of_nonneg (by omega), sub_add_cancel]
  rw [f64Value, hexp]
  push_cast
  ring

section

variable {ρ : ℝ} {m : Nat} (hlo : 2 ^ 52 ≤ ρ) (hm : |ρ - m| ≤ 1 / 2)
include hlo hm

/-- What the nearest integer `m` to `ρ` is to the other canonical values scaled by `2 ^ e`: the same, nearer to `ρ`, or `ρ` is at least a
half away from them. -/
theorem scaled_competitor {y : Binary64} (hy : f64Canonical y) (e : Int) :
    f64Value y = m * 2 ^ e ∨ |ρ * 2 ^ e - m * 2 ^ e| < |ρ * 2 ^ e - f64Value y| ∨ 1 / 2 * 2 ^ e ≤ |ρ * 2 ^ e - f64Value y| := by
  have pos : (0 : ℝ) < 2 ^ e := by positivity
  have scale : ∀ u : ℝ, |ρ * 2 ^ e - u * 2 ^ e| = |ρ - u| * 2 ^ e := fun u => by
    rw [← sub_mul, abs_mul, abs_of_pos pos]
  by_cases he : e ≤ y.exp
  · rw [f64Value_eq_of_le_exp he]
    by_cases hn : y.mant * 2 ^ (y.exp - e).toNat = m
    · exact .inl (by rw [hn])
    · refine .inr (.inr ?_)
      rw [scale]
      exact mul_le_mul_of_nonneg_right (half_le_of_ne hm hn) pos.le
  · have below := f64Value_lt_of_exp_lt hy (not_le.mp he)
    have floor : |ρ - m| ≤ |ρ - (2 ^ 52 : ℕ)| := by
      by_cases h52 : 2 ^ 52 = m
      · rw [h52]
      · exact hm.trans (half_le_of_ne hm h52)
    refine .inr (.inl ?_)
    calc |ρ * 2 ^ e - m * 2 ^ e|
      _ ≤ |ρ - (2 ^ 52 : ℕ)| * 2 ^ e := by
        rw [scale]
        exact mul_le_mul_of_nonneg_right floor pos.le
      _ = ρ * 2 ^ e - 2 ^ 52 * 2 ^ e := by
        rw [Nat.cast_pow, Nat.cast_ofNat, abs_of_nonneg (sub_nonneg.mpr hlo), sub_mul]
      _ < ρ * 2 ^ e - f64Value y := by linarith
      _ ≤ |ρ * 2 ^ e - f64Value y| := le_abs_self _

/-- Rounding the scaled value to the nearest integer, ties to even, rounds the value to the nearest binary64, ties to even. -/
theorem f64Nearest_renormalize (hhi : ρ < 2 ^ 53) (htie : |ρ - m| = 1 / 2 → m % 2 = 0) (e : Int) :
    f64Nearest (ρ * 2 ^ e) (renormalize m e) := by
  have pos : (0 : ℝ) < 2 ^ e := by positivity
  obtain ⟨hleft, hright⟩ := abs_le.mp hm
  have mlo : 2 ^ 52 ≤ m := by
    have h : ((2 ^ 52 : ℕ) : ℝ) < (m + 1 : ℕ) := by
      push_cast
      linarith
    exact Nat.lt_succ_iff.mp (by exact_mod_cast h)
  have mhi : m ≤ 2 ^ 53 := by
    have h : (m : ℝ) < (2 ^ 53 + 1 : ℕ) := by
      push_cast
      linarith
    exact Nat.lt_succ_iff.mp (by exact_mod_cast h)
  have near : |ρ * 2 ^ e - m * 2 ^ e| ≤ 1 / 2 * 2 ^ e := by
    rw [← sub_mul, abs_mul, abs_of_pos pos]
    exact mul_le_mul_of_nonneg_right hm pos.le
  refine ⟨f64Canonical_renormalize e mlo mhi, fun y hy => ?_⟩
  rw [f64Value_renormalize]
  obtain same | nearer | far := scaled_competitor hlo hm hy e
  · exact ⟨by rw [same], fun _ hne => absurd same hne⟩
  · exact ⟨nearer.le, fun h _ => absurd h nearer.ne⟩
  · refine ⟨near.trans far, fun h _ => renormalize_mant_even e (htie ?_)⟩
    have half : |ρ * 2 ^ e - m * 2 ^ e| = 1 / 2 * 2 ^ e := le_antisymm near (h ▸ far)
    rw [← sub_mul, abs_mul, abs_of_pos pos] at half
    exact mul_right_cancel₀ pos.ne' half

end

/-! The conversion. -/

section

variable (r : Nat) {d : Nat} (hd : 0 < d)
include hd

theorem half_le_div_iff : 1 / 2 ≤ (r : ℝ) / d ↔ d ≤ 2 * r := by
  rw [le_div_iff₀ (Nat.cast_pos.mpr hd), ← Nat.cast_le (α := ℝ)]
  push_cast
  constructor <;> intro h <;> linarith

theorem div_le_half_iff : (r : ℝ) / d ≤ 1 / 2 ↔ 2 * r ≤ d := by
  rw [div_le_iff₀ (Nat.cast_pos.mpr hd), ← Nat.cast_le (α := ℝ)]
  push_cast
  constructor <;> intro h <;> linarith

end

/-- A number divided is the quotient and the remainder's fraction. -/
theorem cast_div_eq (n : Nat) {d : Nat} (hd : 0 < d) : (n : ℝ) / d = (n / d : ℕ) + (n % d : ℕ) / d := by
  have pos : (d : ℝ) ≠ 0 := (Nat.cast_pos.mpr hd).ne'
  rw [div_eq_iff pos, add_mul, div_mul_cancel₀ _ pos]
  exact_mod_cast (Nat.div_add_mod' n d).symm

/-- `roundShift` rounds `n / 2 ^ k` to the nearest integer, ties to even. -/
theorem roundShift_spec (n k : Nat) : |(n : ℝ) / (2 ^ k : ℕ) - roundShift n k| ≤ 1 / 2 ∧
    (|(n : ℝ) / (2 ^ k : ℕ) - roundShift n k| = 1 / 2 → roundShift n k % 2 = 0) := by
  have pos : 0 < 2 ^ k := by positivity
  rw [cast_div_eq n pos, roundShift]
  have fraction : n % 2 ^ k < 2 ^ k := Nat.mod_lt n pos
  generalize n / 2 ^ k = q
  generalize n % 2 ^ k = r at fraction ⊢
  split_ifs with hup
  · have distance : |(q : ℝ) + r / (2 ^ k : ℕ) - (q + 1 : ℕ)| = 1 - r / (2 ^ k : ℕ) := by
      have below : (r : ℝ) / (2 ^ k : ℕ) ≤ 1 := (div_le_one (Nat.cast_pos.mpr pos)).mpr (Nat.cast_le.mpr fraction.le)
      rw [Nat.cast_succ, abs_of_nonpos (by linarith)]
      ring
    have big := (half_le_div_iff r pos).mpr (by omega)
    rw [distance]
    refine ⟨by linarith, fun tie => ?_⟩
    have := (div_le_half_iff r pos).mp (by linarith)
    omega
  · have distance : |(q : ℝ) + r / (2 ^ k : ℕ) - q| = r / (2 ^ k : ℕ) := by
      rw [add_sub_cancel_left, abs_of_nonneg (by positivity)]
    rw [distance]
    refine ⟨(div_le_half_iff r pos).mpr (by omega), fun tie => ?_⟩
    have := (half_le_div_iff r pos).mp tie.ge
    omega

/-- A number of at most 53 bits is converted exactly. -/
theorem f64Value_f64OfNat {n : Nat} (h : n < 2 ^ 53) : f64Value (f64OfNat n) = n := by
  rw [f64OfNat]
  by_cases hn : n = 0
  · simp [hn, f64Value]
  · have hlog : n.log2 ≤ 52 := Nat.lt_succ_iff.mp ((Nat.log2_lt hn).mpr h)
    have hexp : (2 : ℝ) ^ (52 - n.log2) * 2 ^ ((n.log2 : ℤ) - 52) = 1 := by
      rw [← zpow_natCast, ← zpow_add₀ two_ne_zero, Nat.cast_sub hlog]
      simp
    rw [if_neg hn, if_pos hlog, f64Value]
    push_cast
    rw [mul_assoc, hexp, mul_one]

theorem f64Canonical_f64OfNat {n : Nat} (h : n < 2 ^ 53) : f64Canonical (f64OfNat n) := by
  rw [f64OfNat]
  by_cases hn : n = 0
  · rw [if_pos hn]
    exact .inl rfl
  · have hlog : n.log2 ≤ 52 := Nat.lt_succ_iff.mp ((Nat.log2_lt hn).mpr h)
    have hlo : 2 ^ n.log2 ≤ n := Nat.log2_self_le hn
    have hhi : n < 2 ^ (n.log2 + 1) := Nat.lt_log2_self
    rw [if_neg hn, if_pos hlog]
    refine .inr ⟨?_, ?_⟩
    · calc 2 ^ 52
        _ = 2 ^ n.log2 * 2 ^ (52 - n.log2) := by rw [← Nat.pow_add, Nat.add_sub_of_le hlog]
        _ ≤ n * 2 ^ (52 - n.log2) := Nat.mul_le_mul_right _ hlo
    · calc n * 2 ^ (52 - n.log2)
        _ < 2 ^ (n.log2 + 1) * 2 ^ (52 - n.log2) := Nat.mul_lt_mul_of_pos_right hhi (by positivity)
        _ = 2 ^ 53 := by rw [← Nat.pow_add, show n.log2 + 1 + (52 - n.log2) = 53 by omega]

/-- The conversion rounds to nearest, ties to even. -/
theorem f64Nearest_f64OfNat (n : Nat) : f64Nearest n (f64OfNat n) := by
  by_cases hsmall : n < 2 ^ 53
  · have h := f64Nearest_self (f64Canonical_f64OfNat hsmall)
    rwa [f64Value_f64OfNat hsmall] at h
  · have hn : n ≠ 0 := by omega
    have hlog : 52 < n.log2 := by
      by_contra hle
      have := Nat.pow_le_pow_right (n := 2) (by decide) (show n.log2 + 1 ≤ 53 by omega)
      exact hsmall (Nat.lt_of_lt_of_le Nat.lt_log2_self this)
    have hexp : (n.log2 : ℤ) - 52 = (n.log2 - 52 : ℕ) := by omega
    have pos : (0 : ℝ) < (2 ^ (n.log2 - 52) : ℕ) := Nat.cast_pos.mpr (by positivity)
    have scaled : (n : ℝ) = n / (2 ^ (n.log2 - 52) : ℕ) * 2 ^ ((n.log2 : ℤ) - 52) := by
      have power : (2 : ℝ) ^ ((n.log2 : ℤ) - 52) = (2 ^ (n.log2 - 52) : ℕ) := by
        rw [hexp, zpow_natCast, Nat.cast_pow, Nat.cast_ofNat]
      rw [power, div_mul_cancel₀ _ pos.ne']
    have lo : (2 ^ 52 : ℝ) ≤ n / (2 ^ (n.log2 - 52) : ℕ) := by
      rw [le_div_iff₀ pos]
      have h : 2 ^ 52 * 2 ^ (n.log2 - 52) ≤ n := by
        rw [← Nat.pow_add, Nat.add_sub_of_le hlog.le]
        exact Nat.log2_self_le hn
      exact_mod_cast h
    have hi : (n : ℝ) / (2 ^ (n.log2 - 52) : ℕ) < 2 ^ 53 := by
      rw [div_lt_iff₀ pos]
      have h : n < 2 ^ 53 * 2 ^ (n.log2 - 52) := by
        rw [← Nat.pow_add, show 53 + (n.log2 - 52) = n.log2 + 1 by omega]
        exact Nat.lt_log2_self
      exact_mod_cast h
    obtain ⟨near, tie⟩ := roundShift_spec n (n.log2 - 52)
    rw [f64OfNat, if_neg hn, if_neg (by omega)]
    have nearest := f64Nearest_renormalize lo near hi tie ((n.log2 : ℤ) - 52)
    rwa [← scaled] at nearest

/-! The root. -/

/-- Digit by digit the root is the integer square root. -/
theorem isqrtDigits_spec (d : Nat) {m : Nat} (h : m < 4 ^ d) :
    isqrtDigits d m * isqrtDigits d m ≤ m ∧ m < (isqrtDigits d m + 1) * (isqrtDigits d m + 1) := by
  induction d generalizing m with
  | zero =>
    rw [Nat.pow_zero, Nat.lt_one_iff] at h
    subst h
    decide
  | succ d ih =>
    obtain ⟨hlo, hhi⟩ := ih (m := m / 4) (by rw [Nat.pow_succ] at h; omega)
    rw [isqrtDigits]
    generalize isqrtDigits d (m / 4) = r at hlo hhi ⊢
    have lo : 2 * r * (2 * r) ≤ m := by
      have : 2 * r * (2 * r) = 4 * (r * r) := by ring
      omega
    have hi : m < (2 * r + 1 + 1) * (2 * r + 1 + 1) := by
      have : (2 * r + 1 + 1) * (2 * r + 1 + 1) = 4 * ((r + 1) * (r + 1)) := by ring
      omega
    split_ifs with hbit
    · exact ⟨hbit, hi⟩
    · exact ⟨lo, Nat.not_le.mp hbit⟩

/-- The rounded root is within a half of the root, and no root is half-way. -/
theorem roundedSqrt_spec {m : Nat} (h : m < 4 ^ 53) : |√(m : ℝ) - roundedSqrt m| < 1 / 2 := by
  obtain ⟨hlo, hhi⟩ := isqrtDigits_spec 53 h
  rw [roundedSqrt]
  generalize isqrtDigits 53 m = r at hlo hhi ⊢
  have lo : (r : ℝ) ≤ √m := Real.le_sqrt_of_sq_le (by rw [sq]; exact_mod_cast hlo)
  have hi : √(m : ℝ) < r + 1 := (Real.sqrt_lt' (by positivity)).mpr (by rw [sq]; exact_mod_cast hhi)
  split_ifs with hup
  · have above : (r : ℝ) + 1 / 2 < √m := by
      refine Real.lt_sqrt_of_sq_lt ?_
      have hm : ((r * r + r + 1 : ℕ) : ℝ) ≤ m := by
        have : r * r + r + 1 ≤ m := by omega
        exact_mod_cast this
      push_cast at hm
      nlinarith
    push_cast
    exact abs_lt.mpr ⟨by linarith, by linarith⟩
  · have below : √(m : ℝ) < r + 1 / 2 := by
      refine (Real.sqrt_lt' (by positivity)).mpr ?_
      have hm : (m : ℝ) ≤ (r * r + r : ℕ) := by
        have : m ≤ r * r + r := by omega
        exact_mod_cast this
      push_cast at hm
      nlinarith
    exact abs_lt.mpr ⟨by linarith, by linarith⟩

/-- A number of 105 or 106 bits has a root of 53 bits, whose rounding is the binary64 root of the number at an even exponent. -/
theorem f64Nearest_sqrt {n : Nat} (hlo : 2 ^ 104 ≤ n) (hhi : n < 2 ^ 106) (e : Int) :
    f64Nearest (√(n : ℝ) * 2 ^ e) (renormalize (roundedSqrt n) e) := by
  have near := roundedSqrt_spec (m := n) (lt_of_lt_of_eq hhi (by norm_num))
  have lo : (2 ^ 52 : ℝ) ≤ √n := Real.le_sqrt_of_sq_le (by rw [← pow_mul]; exact_mod_cast hlo)
  have hi : √(n : ℝ) < 2 ^ 53 := (Real.sqrt_lt' (by positivity)).mpr (by rw [← pow_mul]; exact_mod_cast hhi)
  exact f64Nearest_renormalize lo near.le hi (fun htie => absurd htie near.ne) e

/-- The root of a number at an even exponent. -/
theorem sqrt_mul_zpow (n : Nat) (e : Int) : √((n : ℝ) * 2 ^ (2 * e)) = √(n : ℝ) * 2 ^ e := by
  have square : (2 : ℝ) ^ (2 * e) = (2 ^ e) ^ 2 := by rw [← zpow_natCast, ← zpow_mul, mul_comm]; rfl
  rw [Real.sqrt_mul (Nat.cast_nonneg n), square, Real.sqrt_sq (by positivity)]

/-- The root rounds to nearest, ties to even. -/
theorem f64Nearest_f64Sqrt {x : Binary64} (hx : f64Canonical x) : f64Nearest √(f64Value x) (f64Sqrt x) := by
  have shifted : ∀ {k : ℕ} {e : ℤ}, x.exp = 2 * e + k → f64Value x = (x.mant * 2 ^ k : ℕ) * 2 ^ (2 * e) := fun {k e} he => by
    rw [f64Value, he, zpow_add₀ two_ne_zero, zpow_natCast]
    push_cast
    ring
  rw [f64Sqrt]
  by_cases h0 : x.mant = 0
  · have zero : f64Value x = 0 := by rw [f64Value, h0, Nat.cast_zero, zero_mul]
    have self := f64Nearest_self hx
    rw [if_pos h0, zero, Real.sqrt_zero]
    rwa [zero] at self
  · obtain ⟨hlo, hhi⟩ := hx.resolve_left h0
    rw [if_neg h0]
    split_ifs with heven
    · rw [shifted (k := 52) (e := (x.exp - 52) / 2) (by omega), sqrt_mul_zpow]
      exact f64Nearest_sqrt (by omega) (by omega) _
    · rw [shifted (k := 53) (e := (x.exp - 53) / 2) (by omega), sqrt_mul_zpow]
      exact f64Nearest_sqrt (by omega) (by omega) _

/-! The truncation. -/

/-- The number that the truncation takes is the floor of the value. -/
theorem floor_f64Value (x : Binary64) :
    ⌊f64Value x⌋₊ = if 0 ≤ x.exp then x.mant * 2 ^ x.exp.toNat else x.mant / 2 ^ (-x.exp).toNat := by
  split_ifs with h
  · have value : f64Value x = (x.mant * 2 ^ x.exp.toNat : ℕ) := by
      rw [f64Value, ← Int.toNat_of_nonneg h, zpow_natCast, Int.toNat_natCast]
      push_cast
      rfl
    rw [value, Nat.floor_natCast]
  · have value : f64Value x = (x.mant : ℝ) / (2 ^ (-x.exp).toNat : ℕ) := by
      obtain ⟨k, hk⟩ : ∃ k : ℕ, x.exp = -k := ⟨(-x.exp).toNat, by omega⟩
      rw [f64Value, hk, neg_neg, Int.toNat_natCast, zpow_neg, zpow_natCast, div_eq_mul_inv, Nat.cast_pow, Nat.cast_ofNat]
    rw [value, Nat.floor_div_eq_div]

/-- The truncation of a value below 2^64 is its floor. -/
theorem f64Trunc_toNat {x : Binary64} (h : f64Value x < 2 ^ 64) : (f64Trunc x).toNat = ⌊f64Value x⌋₊ := by
  have hlt : ⌊f64Value x⌋₊ < 2 ^ 64 := (Nat.floor_lt (f64Value_nonneg x)).mpr (by exact_mod_cast h)
  rw [f64Trunc, ← floor_f64Value, BitVec.toNat_ofNat, Nat.mod_eq_of_lt hlt]

/-! The root of a 48-bit number (44_isqrt_divmod.md R102). -/

/-- Every number of at most 53 bits at any exponent is the value of a binary64. -/
theorem exists_f64Value {n : Nat} (h : n < 2 ^ 53) (e : Int) : ∃ y, f64Canonical y ∧ f64Value y = n * 2 ^ e := by
  refine ⟨{ mant := (f64OfNat n).mant, exp := (f64OfNat n).exp + e }, f64Canonical_f64OfNat h, ?_⟩
  rw [← f64Value_f64OfNat h, f64Value, f64Value, zpow_add₀ two_ne_zero, mul_assoc]

section

variable {m : Nat} (hm : m < 2 ^ 48)
include hm

theorem sqrt_lt_of_48_bits : Nat.sqrt m < 2 ^ 24 := Nat.sqrt_lt.mpr (by omega)

/-- The binary64 root of a 48-bit number has the integer square root as its floor: that root is a binary64 itself, and between the
real root and the next integer there is another one. -/
theorem floor_f64Sqrt : ⌊f64Value (f64Sqrt (f64OfNat m))⌋₊ = Nat.sqrt m := by
  have hk := sqrt_lt_of_48_bits hm
  have klo : Nat.sqrt m * Nat.sqrt m ≤ m := Nat.sqrt_le m
  have khi : m + 1 ≤ (Nat.sqrt m + 1) * (Nat.sqrt m + 1) := Nat.lt_succ_sqrt m
  generalize Nat.sqrt m = k at hk klo khi ⊢
  obtain ⟨-, nearest⟩ := f64Nearest_f64Sqrt (f64Canonical_f64OfNat (n := m) (by omega))
  rw [f64Value_f64OfNat (by omega)] at nearest
  generalize f64Sqrt (f64OfNat m) = x at nearest ⊢
  have lo : (k : ℝ) ≤ √m := Real.le_sqrt_of_sq_le (by rw [sq]; exact_mod_cast klo)
  obtain ⟨y, hy, yval⟩ := exists_f64Value (n := k) (by omega) 0
  obtain ⟨z, hz, zval⟩ := exists_f64Value (n := (k + 1) * 2 ^ 29 - 1) (by omega) (-29)
  have yval' : f64Value y = k := by rw [yval, zpow_zero, mul_one]
  have zval' : f64Value z = k + 1 - 1 / 2 ^ 29 := by
    rw [zval, Nat.cast_sub (by omega), zpow_neg]
    push_cast
    norm_num
    ring
  have hi : √(m : ℝ) ≤ f64Value z := by
    rw [zval']
    have hk' : (k : ℝ) + 1 ≤ 2 ^ 24 := by exact_mod_cast hk
    have khi' : (m : ℝ) + 1 ≤ (k + 1) * (k + 1) := by exact_mod_cast khi
    have k0 : (0 : ℝ) ≤ k := Nat.cast_nonneg k
    refine Real.sqrt_le_iff.mpr ⟨by norm_num; linarith, ?_⟩
    nlinarith
  have nearY := (nearest y hy).1
  have nearZ := (nearest z hz).1
  rw [yval', abs_of_nonneg (sub_nonneg.mpr lo)] at nearY
  rw [abs_of_nonpos (sub_nonpos.mpr hi)] at nearZ
  refine (Nat.floor_eq_iff (f64Value_nonneg x)).mpr ⟨?_, ?_⟩
  · by_contra hlt
    have := le_abs_self (√(m : ℝ) - f64Value x)
    linarith
  · by_contra hge
    have := neg_le_abs (√(m : ℝ) - f64Value x)
    have : f64Value z < k + 1 := by
      rw [zval']
      norm_num
    linarith

theorem trunc_f64Sqrt_toNat : (f64Trunc (f64Sqrt (f64OfNat m))).toNat = Nat.sqrt m := by
  have hfloor := floor_f64Sqrt hm
  have hk := sqrt_lt_of_48_bits hm
  have hsmall : f64Value (f64Sqrt (f64OfNat m)) < 2 ^ 64 := by
    have h := Nat.lt_floor_add_one (f64Value (f64Sqrt (f64OfNat m)))
    have hk' : ((Nat.sqrt m : ℕ) : ℝ) < 2 ^ 24 := by exact_mod_cast hk
    rw [hfloor] at h
    linarith
  rw [f64Trunc_toNat hsmall, hfloor]

end

end Sys2Proof.Machine
end

section

open Sys2Proof Sys2Proof.Machine Sys2Proof.Rule

/-- Settles O53: conversion and root round a scaled value to the nearest integer (`f64Nearest_f64OfNat`, `f64Nearest_f64Sqrt`), a number of
at most 53 bits is its own significand, and the truncation divides by the power of two that the exponent says. -/
theorem binary64PrimitivesRoundToNearest : Obligations.Binary64PrimitivesRoundToNearest :=
  ⟨fun n _ => f64Nearest_f64OfNat n, fun _ => f64Value_f64OfNat, fun _ => f64Nearest_f64Sqrt, fun _ _ => f64Trunc_toNat⟩

/-- Settles O52: the root's argument has 48 bits, and the root of such a number truncates to its integer square root
(`trunc_f64Sqrt_toNat`). -/
theorem rootIsTheIntegerSquareRoot : Obligations.RootIsTheIntegerSquareRoot := by
  intro s
  have hm : rootArgOf s.b.lo s.b.hi < 2 ^ 48 := by
    rw [rootArgOf]
    omega
  refine ⟨_, v2DivsqrtResult s, hm, ?_⟩
  simp only [rootOf, trunc_f64Sqrt_toNat hm]
  exact ⟨Nat.sqrt_le _, Nat.lt_succ_sqrt _, sqrt_lt_of_48_bits hm⟩

end
